-- ==== Sys2Proof/Word.lean ====
section
/-! DEFINITION. The machine's words: a register is 32 bits (spec/00_scope.md R9, REG_WIDTH), a memory cell 8. -/

namespace Sys2Proof

/-- A register, a host address, a command word: 32 bits (R9). -/
abbrev Word := BitVec 32

/-- A byte of host memory or of Scratch (R12). -/
abbrev Byte := BitVec 8

end Sys2Proof
end

