-- ==== Sys2Proof/Config.lean ====
section
/-! DEFINITION. What the spec fixes once (spec/00_scope.md R9), what it leaves to the platform (R9, OPEN), and the
free values: the results spec/93_implementation_defined.md calls "any value". -/

namespace Sys2Proof.Config

/-- MAX_RGBA_LENGTH, 16384 × 16384 × 4 bytes (R9). -/
def maxRgbaLength : Nat := 0x40000000

/-- How many host addresses there are: 2^ADDR_WIDTH (R9). -/
def addressCount : Nat := 4294967296

/-- How many bytes of host address space the register block occupies (R22). -/
def blockSize : Nat := 256

/-- GAMMA_WIDTH, the width of an Elias-gamma result (R9). -/
def gammaWidth : Nat := 32

/-- INVALID, the sentinel of the Elias-gamma decoder (R9, R111). -/
def gammaInvalid : Word := 0xFFFFFFFF#32

/-- Byte `index` of Scratch after its `epoch`-th release, while nothing has determined it: any value (O1: R38, R47,
R239). Free value, log entry 5. -/
opaque scratchByte (epoch index : Nat) : Byte

/-- The `n`-th value drawn by the Engine's read of a byte the Host wrote where it must not: during the command that
reads it (O3: R71 item 3), or between cursor commands while the cursor had not finished it (O4: R75). Free value, log
entries 7 and 8. -/
opaque unsettledByte (n : Nat) : Byte

/-- The `n`-th value left in a byte that a command may have written, after the Host broke its duty (O3: R71 item 3) or a
reset discarded the command (O5: R261). Free value, log entries 7 and 9. -/
opaque clobberedByte (n : Nat) : Byte

/-- The `n`-th value a Host load of a state register returns while a command is busy (O2: R43). Free value, log
entry 6. -/
opaque busyWord (n : Nat) : Word

/-- The `n`-th value a Host load returns, while a command is busy, from a byte that command may write (R71 item 3).
Free value, log entry 7. -/
opaque busyByte (n : Nat) : Byte

end Sys2Proof.Config

namespace Sys2Proof

/-- A run of `len` consecutive addresses from `base` up. -/
structure Region where
  base : Nat
  len : Nat
deriving DecidableEq, Repr

/-- What the platform fixes: the OPEN parameters of R9 that one instance can tell. The model takes them as an
argument: they are a field of the state that no step changes, so a statement about every state is a statement about
every platform. -/
structure Platform where
  /-- UNRLE_CAP: the bytes of Scratch, the largest total that can be allocated (O12: R9, R140). -/
  unrleCap : Nat
  /-- BLOCK_BASE: the host address of the register block (O13: R9, R22). -/
  blockBase : Word
  /-- HOST_MEMORY: which host addresses the platform backs (O15: R9, R61), as a list of regions. -/
  hostMemory : List Region
deriving DecidableEq, Repr

/-- The platform `State.reset` stands on. DESIGN CHOICE (log entry 2, unsafe): the spec leaves all three OPEN. The
capacity is MAX_RGBA_LENGTH, the block is at 0xF0000000, and every address outside the block is backed. -/
def Platform.reference : Platform where
  unrleCap := Config.maxRgbaLength
  blockBase := 0xF0000000#32
  hostMemory := [⟨0, 0xF0000000⟩, ⟨0xF0000100, 0x0FFFFF00⟩]

end Sys2Proof
end

