-- ==== Sys2Proof/Syntax.lean ====
section
/-! DEFINITION. The commands (one constructor per row of spec/opcode_table.json), the registers' names, the Host's
program syntax (spec/30_encoding.md R94) and what can reach the machine from outside. -/

namespace Sys2Proof

/-- The thirteen commands (R81). None has an operand in its word: operands are registers (R80). -/
inductive Instr where
  | nop
  | curInit
  | getBit
  | getGamma
  | unrle
  | scratchRead
  | unpackValue
  | tableRead
  | regroup
  | hdelta
  | vdelta
  | undeltafilter
  | decode
deriving DecidableEq, Repr

/-- The registers of the block, by name (R22). -/
inductive RegName where
  | cmd | status | result | operand | dataAddr | dataLen | cmdAddr | cmdLen | outAddr | outCap
  | width | height | depth | stride | unrleLen | dataPos | curAddr | curRem | curState | scrState
deriving DecidableEq, Repr

/-- A line of a host program (R94). `MEM` lines are initial contents, not operations (R95). -/
inductive HostInstr where
  /-- `WR <REG>, <value>`: one aligned 32-bit store. -/
  | wr (reg : RegName) (value : Word)
  /-- `RD <REG>`: one aligned 32-bit load. -/
  | rd (reg : RegName)
  /-- `CMD <MNEMONIC>`: the store of the command's word to CMD. -/
  | cmd (command : Instr)
  /-- `WAIT`: repeat `RD STATUS` until BUSY is 0. -/
  | wait
  /-- `CLR`: the store of 0x00000002 to STATUS, which clears DONE. -/
  | clr
deriving DecidableEq, Repr

/-- What can happen next: the Engine's turn, or something from outside it. The order of the list `State.inputs` is the
order in which they happen (log entry 4). -/
inductive Input where
  /-- The Engine takes its turn: it performs the pending command, if any (R237). -/
  | engine
  /-- A Host load of `width` bytes at an address of the register block (R68). -/
  | load (width : Nat) (addr : Word)
  /-- A Host store of `value`, `width` bytes wide, at an address of the register block (R68). -/
  | store (width : Nat) (addr value : Word)
  /-- `WAIT`: a load of STATUS, made again until it shows BUSY = 0 (R94, R95). -/
  | poll
  /-- A Host load of one byte of host memory (R61). -/
  | memLoad (addr : Word)
  /-- A Host store of one byte of host memory (R61); another instance's store too (R247). -/
  | memStore (addr : Word) (value : Byte)
  /-- The platform's reset event (R260, R261). -/
  | reset
deriving DecidableEq, Repr

end Sys2Proof
end

