-- ==== Sys2Proof/WellFormed.lean ====
section
/-! DEFINITION. The checks on what arrives from outside: a command word (spec/30_encoding.md R82), the platform's
parameters (spec/00_scope.md R9) and a Host access (spec/20_memory.md R68). `Instr` has no operand field, so no term of
it is ill-formed: what can be ill-formed is the word that should encode one. -/

namespace Sys2Proof

/-- The opcodes of R81. -/
def definedOpcodes : List Byte :=
  [0x00#8, 0x01#8, 0x02#8, 0x03#8, 0x10#8, 0x11#8, 0x20#8, 0x21#8, 0x22#8, 0x23#8, 0x24#8, 0x25#8, 0x30#8]

/-- A command word is legal when RSV, bits 31:8, is 0 and OP, bits 7:0, is listed in R81 (R82). -/
def legalCommandWord (w : Word) : Bool :=
  w.extractLsb' 8 24 == 0#24 && definedOpcodes.contains (w.extractLsb' 0 8)

/-- A region lies inside the host address space (R60). -/
def Region.wf (r : Region) : Bool := decide (r.base + r.len ≤ Config.addressCount)

/-- BLOCK_BASE is 256-byte-aligned, and HOST_MEMORY speaks of host addresses only (R9). -/
def Platform.wf (p : Platform) : Bool :=
  decide (p.blockBase.toNat % Config.blockSize = 0) && p.hostMemory.all Region.wf

/-- An access of `width` bytes at `addr` is an aligned 32-bit access within the register block (R68). -/
def Platform.legalAccess (p : Platform) (width : Nat) (addr : Word) : Bool :=
  decide (width = 4) && decide (addr.toNat % 4 = 0) && decide ((addr - p.blockBase).toNat < Config.blockSize)

/-- Every register access among the inputs is one the block supports (R68). -/
def Input.wf (p : Platform) : Input → Bool
  | .load width addr => p.legalAccess width addr
  | .store width addr _ => p.legalAccess width addr
  | .engine => true
  | .poll => true
  | .memLoad addr => !decide ((addr - p.blockBase).toNat < Config.blockSize)
  | .memStore addr _ => !decide ((addr - p.blockBase).toNat < Config.blockSize)
  | .reset => true

end Sys2Proof
end

