-- ==== Sys2Proof/Decode.lean ====
section
/-! DEFINITION. The command word's decoder and encoder (spec/30_encoding.md R80 to R82), the register offsets
(spec/10_state.md R22) and the encoding of a host program as bus operations (spec/30_encoding.md R95). -/

namespace Sys2Proof

/-- Why a word is no command (R82). The Engine completes either with IllegalCommand. -/
inductive DecodeError where
  /-- RSV, bits 31:8, is not 0. -/
  | reservedNotZero (rsv : BitVec 24)
  /-- RSV is 0 and OP is not listed in R81. -/
  | undefinedOpcode (op : Byte)
deriving DecidableEq, Repr

/-- The field OP, bits 7:0 (R80). -/
def opField (w : Word) : Byte := w.extractLsb' 0 8

/-- The field RSV, bits 31:8 (R80). -/
def rsvField (w : Word) : BitVec 24 := w.extractLsb' 8 24

/-- The opcode map (R81). -/
def opcodeMap : List (Byte × Instr) :=
  [(0x00#8, .nop), (0x01#8, .curInit), (0x02#8, .getBit), (0x03#8, .getGamma),
   (0x10#8, .unrle), (0x11#8, .scratchRead),
   (0x20#8, .unpackValue), (0x21#8, .tableRead), (0x22#8, .regroup), (0x23#8, .hdelta), (0x24#8, .vdelta),
   (0x25#8, .undeltafilter),
   (0x30#8, .decode)]

/-- The decoder, total on every word: `command(OP)` if RSV = 0 and OP is in R81, else illegal (R82). -/
def decodeWord (w : Word) : Except DecodeError Instr :=
  if rsvField w = 0#24 then
    match opcodeMap.lookup (opField w) with
    | some i => .ok i
    | none => .error (.undefinedOpcode (opField w))
  else .error (.reservedNotZero (rsvField w))

/-- The instruction read from the `nbits` bits of `w`, bit 0 the least significant bit of the first word, as
spec/opcode_table.json numbers them. A command word is one 32-bit word (R80), accessed whole (R65): a shorter one has
zeros above, a longer one whose upper bits are not zero is no command word. -/
def decodeTableWord (nbits w : Nat) : Option Instr :=
  if w % 2 ^ nbits < 2 ^ 32 then
    match decodeWord (BitVec.ofNat 32 (w % 2 ^ nbits)) with
    | .ok i => some i
    | .error _ => none
  else none

/-- The opcode of each command (R81). -/
def opcode : Instr → Byte
  | .nop => 0x00#8
  | .curInit => 0x01#8
  | .getBit => 0x02#8
  | .getGamma => 0x03#8
  | .unrle => 0x10#8
  | .scratchRead => 0x11#8
  | .unpackValue => 0x20#8
  | .tableRead => 0x21#8
  | .regroup => 0x22#8
  | .hdelta => 0x23#8
  | .vdelta => 0x24#8
  | .undeltafilter => 0x25#8
  | .decode => 0x30#8

/-- The encoder: RSV = 0 above OP (R80, and `zext_32(OP)` of R94). -/
def encode (i : Instr) : Word := 0#24 ++ opcode i

/-- The offset of a register in the block (R22). -/
def RegName.offset : RegName → Nat
  | .cmd => 0x00
  | .status => 0x04
  | .result => 0x08
  | .operand => 0x0C
  | .dataAddr => 0x10
  | .dataLen => 0x14
  | .cmdAddr => 0x18
  | .cmdLen => 0x1C
  | .outAddr => 0x20
  | .outCap => 0x24
  | .width => 0x28
  | .height => 0x2C
  | .depth => 0x30
  | .stride => 0x34
  | .unrleLen => 0x38
  | .dataPos => 0x3C
  | .curAddr => 0x40
  | .curRem => 0x44
  | .curState => 0x48
  | .scrState => 0x4C

/-- The registers in the order of their offsets (R22). -/
def registers : List RegName :=
  [.cmd, .status, .result, .operand, .dataAddr, .dataLen, .cmdAddr, .cmdLen, .outAddr, .outCap,
   .width, .height, .depth, .stride, .unrleLen, .dataPos, .curAddr, .curRem, .curState, .scrState]

/-- The register at an offset; a reserved offset holds none (R22, R39). -/
def registerAt (offset : Nat) : Option RegName := registers.find? fun r => r.offset == offset

/-- The host address of a register (R22). -/
def registerAddr (base : Word) (r : RegName) : Word := base + BitVec.ofNat 32 r.offset

/-- The encoding of a line of a host program as bus operations (R95). -/
def encodeHostInstr (base : Word) : HostInstr → Input
  | .wr r v => .store 4 (registerAddr base r) v
  | .rd r => .load 4 (registerAddr base r)
  | .cmd i => .store 4 (registerAddr base .cmd) (encode i)
  | .wait => .poll
  | .clr => .store 4 (registerAddr base .status) 0x00000002#32

/-- The encoding of a host program: its bus operations in program order (R95). -/
def encodeProgram (base : Word) (program : List HostInstr) : List Input := program.map (encodeHostInstr base)

end Sys2Proof
end

