-- ==== Sys2Proof/Machine/State.lean ====
section
/-! DEFINITION. Everything spec/ gives the machine, as plain data: the registers of spec/10_state.md R22, the pending
command (R23), Scratch (R38), host memory (spec/20_memory.md R61), the platform's parameters (spec/00_scope.md R9); and
the model's own fields, each named in the assumption log. -/

namespace Sys2Proof.Machine

/-- The status codes (R231). "Every other code value is never produced", so CODE is this type. -/
inductive Code where
  | success
  | dataBufferIsNull
  | cmdBufferIsNull
  | rgbaBufferIsNull
  | dimensionsTooLarge
  | invalidDimensions
  | invalidDepthBytes
  | corruptStream
  | rgbaBufferTooSmall
  | invalidUnrleLength
  | allocationFailed
  | addressRange
  | illegalCommand
  | scratchInvalid
  | operandRange
  | pending
deriving DecidableEq, Repr

/-- The fields of STATUS (R24). The reserved bits read as 0 and take no storage: `statusWord` is the register. -/
structure Status where
  busy : Bool
  done : Bool
  code : Code
deriving DecidableEq, Repr

/-- The registers the Host writes and the commands only read (R26 to R30). -/
structure Args where
  operand : Word
  dataAddr : Word
  dataLen : Word
  cmdAddr : Word
  cmdLen : Word
  outAddr : Word
  outCap : Word
  width : Word
  height : Word
  depth : Word
  stride : Word
deriving DecidableEq, Repr

/-- The cursor: CUR_ADDR (R33), CUR_REM (R34) and the two fields of CUR_STATE (R35). -/
structure Cursor where
  addr : Word
  rem : Word
  bit : BitVec 3
  exh : Bool
deriving DecidableEq, Repr

/-- Host memory: (address, byte) pairs, addresses strictly rising, no entry equal to 0, which an unlisted address reads
as (log entry 1). The form is `Memory.wf`, in Machine/Memory.lean. -/
abbrev Memory := List Host.Cell

/-- The state of one HG-CORE instance (R20), the host memory it works on, and the model's own fields. -/
structure State where
  /-- CMD, the last accepted command word (R23). -/
  cmd : Word
  /-- STATUS (R24). -/
  status : Status
  /-- RESULT (R25). -/
  result : Word
  /-- OPERAND to STRIDE, the registers at 0x0C to 0x34 (R26 to R30). -/
  args : Args
  /-- UNRLE_LEN, the declared total length L of the last RunLengthExpander run (R31). -/
  unrleLen : Word
  /-- DATA_POS, the data bytes the last run consumed (R32). -/
  dataPos : Word
  /-- CUR_ADDR, CUR_REM and CUR_STATE (R33 to R35). -/
  cur : Cursor
  /-- SCR_STATE.VALID (R37). -/
  scrValid : Bool
  /-- Scratch (R38): its first bytes, as many as have a determined value. Every byte beyond the list is any value,
  `Config.scratchByte scratchEpoch index` (log entry 5). -/
  scratch : List Byte
  /-- The Engine's pending command (R20 (d), R23). -/
  pending : Option Word
  /-- Host memory (R61). -/
  mem : Memory
  /-- The OPEN parameters of R9, which no step changes (log entry 2). -/
  platform : Platform
  /-- The model's own: how many free values have been drawn (log entry 6). -/
  draws : Nat
  /-- The model's own: how many times Scratch has been released (log entry 5). -/
  scratchEpoch : Nat
  /-- The model's own: the host bytes the Host wrote since the pending command was accepted (R71 item 3, log
  entry 7). -/
  raced : List Nat
  /-- The model's own: the unfinished cursor bytes the Host wrote between two cursor commands (R75, log entry 8). -/
  unstable : List Nat
  /-- The model's own: a cursor command has run since the cursor was initialised, or initialised it, so that its bytes
  may be latched (R75, log entry 8). -/
  latched : Bool
  /-- The model's own: what happens next, oldest first (log entry 4). -/
  inputs : List Input
  /-- The model's own: what the Host's loads have returned, oldest first (log entry 4). -/
  observed : List Word
deriving DecidableEq, Repr

/-- Why the machine has no step. -/
inductive Fault where
  /-- Raised by the Engine's byte accesses: the address is outside HOST_MEMORY, the access has no step and the Engine
  is stuck (O7: R61). Safe: nothing is claimed of what follows (log entry 3). -/
  | engineOutsideHostMemory
  /-- Raised by the Host's byte accesses to host memory: the address is outside HOST_MEMORY, and an access outside it
  has no step (R9). Safe (log entry 12). -/
  | hostOutsideHostMemory
deriving DecidableEq, Repr

/-- What the model has no transition for. -/
inductive Refusal where
  /-- An instruction with no meaning yet, by its mnemonic. Raised by no arm of `exec`: every command has its meaning.
  Safe. -/
  | notModelled (mnemonic : String)
  /-- Raised by a Host access to the register block that is not an aligned 32-bit access within it, a byte access to
  the block among them (O8: R39, R68). Safe: the spec's own refusal. -/
  | unsupportedRegisterAccess
deriving DecidableEq, Repr

/-- The registers the Host writes, after reset (R47). -/
def Args.zero : Args where
  operand := 0#32
  dataAddr := 0#32
  dataLen := 0#32
  cmdAddr := 0#32
  cmdLen := 0#32
  outAddr := 0#32
  outCap := 0#32
  width := 0#32
  height := 0#32
  depth := 0#32
  stride := 0#32

/-- The machine after reset, on a platform and with the host memory that reset does not change (R47, R260). -/
def State.resetOn (platform : Platform) (mem : Memory) : State where
  cmd := 0#32
  status := ⟨false, false, .success⟩
  result := 0#32
  args := Args.zero
  unrleLen := 0#32
  dataPos := 0#32
  cur := ⟨0#32, 0#32, 0#3, false⟩
  scrValid := false
  scratch := []
  pending := none
  mem := mem
  platform := platform
  draws := 0
  scratchEpoch := 0
  raced := []
  unstable := []
  latched := false
  inputs := []
  observed := []

/-- The machine right after reset (R47): every register 0, no pending command, Scratch any value. The platform is
`Platform.reference` (log entry 2) and nothing is listed in host memory (log entry 1). -/
def State.reset : State := State.resetOn Platform.reference []

end Sys2Proof.Machine
end

