-- ==== Sys2Proof/Machine/Flags.lean ====
section
/-! DEFINITION. The flags (spec/10_state.md R42), the numbers of the status codes (spec/60_exceptions.md R231) and the
register words the flags are read in (R24, R35, R37). -/

namespace Sys2Proof.Machine

/-- The number of a status code (R231). -/
def codeNumber : Code → Byte
  | .success => 0x00#8
  | .dataBufferIsNull => 0x01#8
  | .cmdBufferIsNull => 0x02#8
  | .rgbaBufferIsNull => 0x03#8
  | .dimensionsTooLarge => 0x04#8
  | .invalidDimensions => 0x05#8
  | .invalidDepthBytes => 0x06#8
  | .corruptStream => 0x07#8
  | .rgbaBufferTooSmall => 0x08#8
  | .invalidUnrleLength => 0x09#8
  | .allocationFailed => 0x0A#8
  | .addressRange => 0x20#8
  | .illegalCommand => 0x21#8
  | .scratchInvalid => 0x22#8
  | .operandRange => 0x23#8
  | .pending => 0xFF#8

/-- The register STATUS: CODE in 15:8, DONE in bit 1, BUSY in bit 0, every other bit 0 (R24). -/
def statusWord (st : Status) : Word :=
  0#16 ++ codeNumber st.code ++ 0#6 ++ BitVec.ofBool st.done ++ BitVec.ofBool st.busy

/-- The register CUR_STATE: EXH in bit 8, BIT in 2:0, every other bit 0 (R35). -/
def curStateWord (c : Cursor) : Word := 0#23 ++ BitVec.ofBool c.exh ++ 0#5 ++ c.bit

/-- The register SCR_STATE: VALID in bit 0, every other bit 0 (R37). -/
def scrStateWord (valid : Bool) : Word := 0#31 ++ BitVec.ofBool valid

/-- STATUS from an accepted CMD write on: BUSY = 1, DONE = 0, CODE = 0xFF (R23). -/
def acceptedStatus : Status := ⟨true, false, .pending⟩

/-- STATUS at completion: BUSY = 0, DONE = 1, CODE the code (R238). -/
def completedStatus (c : Code) : Status := ⟨false, true, c⟩

/-- A Host write of `w` to STATUS while not busy: bit 1 clears DONE, CODE is kept (R24). -/
def writeStatus (w : Word) (st : Status) : Status :=
  if w.getLsbD 1 then ⟨st.busy, false, st.code⟩ else st

/-- A fresh cursor over a region: BIT = 0 and EXH = 0 (R113, R140). -/
def freshCursor (addr len : Word) : Cursor := ⟨addr, len, 0#3, false⟩

/-- The cursor after a read that found no byte: EXH = 1 (R110). -/
def exhaustedCursor (c : Cursor) : Cursor := ⟨c.addr, c.rem, c.bit, true⟩

/-- The cursor after one genuine bit: past bit 7 the next byte starts, and CUR_REM counts down (R110). -/
def advancedCursor (c : Cursor) : Cursor :=
  if c.bit = 7#3 then ⟨c.addr + 1#32, c.rem - 1#32, 0#3, c.exh⟩ else ⟨c.addr, c.rem, c.bit + 1#3, c.exh⟩

end Sys2Proof.Machine
end

