-- ==== Sys2Proof/Machine/Memory.lean ====
section
/-! DEFINITION. Host memory as data (spec/20_memory.md R61): the read and the write of one byte, the form a memory
keeps, the address arithmetic (spec/00_scope.md R10) and HOST_MEMORY (R9). -/

namespace Sys2Proof.Machine

/-- The byte at an address; an unlisted address reads 0x00 (DESIGN CHOICE, log entry 1). -/
def Memory.read : Memory → Nat → Byte
  | [], _ => 0#8
  | (b, w) :: m, a => if a = b then w else Memory.read m a

/-- Write a byte and keep the form: the value an unlisted address reads as is not listed. -/
def Memory.write : Memory → Nat → Byte → Memory
  | [], a, v => if v = 0#8 then [] else [(a, v)]
  | (b, w) :: m, a, v =>
    if a < b then
      if v = 0#8 then (b, w) :: m else (a, v) :: (b, w) :: m
    else if a = b then
      if v = 0#8 then m else (a, v) :: m
    else (b, w) :: Memory.write m a v

/-- Every listed address is at least `low` and a host address, the addresses rise strictly, and no entry is 0. -/
def Memory.wfFrom : Nat → Memory → Bool
  | _, [] => true
  | low, (a, v) :: m =>
    decide (low ≤ a) && decide (a < Config.addressCount) && decide (v ≠ 0#8) && Memory.wfFrom (a + 1) m

/-- The canonical form: equal memories are equal lists. -/
def Memory.wf (m : Memory) : Bool := Memory.wfFrom 0 m

/-- The region holds the address. -/
def regionHolds (r : Region) (a : Nat) : Bool := decide (r.base ≤ a) && decide (a < r.base + r.len)

/-- HOST_MEMORY: the platform backs the address (R9, R61). -/
def backs (p : Platform) (a : Nat) : Bool := p.hostMemory.any fun r => regionHolds r a

/-- The address `base + i`: an index is exact, an address is mod 2^32 (R10, R33). -/
def addrAt (base : Word) (i : Nat) : Word := base + BitVec.ofNat 32 i

/-- `AddrOK(a, n)`: the region does not wrap past the top of the address space (R62). -/
def addrOK (a n : Word) : Bool := decide (a.toNat + n.toNat ≤ Config.addressCount)

/-- The address lies in the region `[base, base + len)`, whose length is exact (R17). -/
def inRegion (base : Word) (len a : Nat) : Bool := decide (base.toNat ≤ a) && decide (a < base.toNat + len)

end Sys2Proof.Machine
end

