-- ==== Sys2Proof/Machine/Operands.lean ====
section
/-! DEFINITION. The operand fields of OPERAND (spec/30_encoding.md R83), the ROM tables (spec/10_state.md R40) and the
byte transform (spec/42_deinterleave.md R170). -/

namespace Sys2Proof.Machine

/-- The field C of UNPACK_VALUE and IDX of TABLE_READ: OPERAND[7:0] (R83). -/
def operandByte (s : State) : Byte := s.args.operand.extractLsb' 0 8

/-- The field SEL of TABLE_READ: OPERAND[9:8], 0 for T1 to 3 for T4 (R83). -/
def operandSelect (s : State) : BitVec 2 := s.args.operand.extractLsb' 8 2

/-- The field INDEX of SCRATCH_READ: all of OPERAND, unsigned (R83). -/
def operandIndex (s : State) : Nat := s.args.operand.toNat

/-- `Base(i)`: each 2-bit group of the index at the bottom of its own byte (R40). -/
def romBase (i : Byte) : Word :=
  (i.extractLsb' 6 2).zeroExtend 32 <<< 24 ||| (i.extractLsb' 4 2).zeroExtend 32 <<< 16 |||
    (i.extractLsb' 2 2).zeroExtend 32 <<< 8 ||| (i.extractLsb' 0 2).zeroExtend 32

/-- The table T1, T2, T3 or T4 at an index, the select as TABLE_READ numbers them (R40, R83). -/
def romTable (sel : BitVec 2) (i : Byte) : Word :=
  if sel = 0#2 then romBase i <<< 6
  else if sel = 1#2 then romBase i <<< 4
  else if sel = 2#2 then romBase i <<< 2
  else romBase i

/-- `UnpackValue(c)` (R170). -/
def unpackValue (c : Byte) : Byte := if c.getLsbD 0 then (c >>> 1) ^^^ 0xFF#8 else c >>> 1

end Sys2Proof.Machine
end

