-- ==== Sys2Proof/Machine/Ops.lean ====
section
/-! DEFINITION. The shared operations: how a command's pseudocode runs and fails (spec/00_scope.md R13, R14), byte
accesses (R12), the tests a command makes and their order (spec/60_exceptions.md R235), acceptance (spec/10_state.md
R23), completion (spec/60_exceptions.md R238) and the release of Scratch (spec/10_state.md R37). -/

namespace Sys2Proof.Machine

/-- How a piece of pseudocode ends. -/
inductive Res (α : Type) where
  /-- It ran to its end, with a value. -/
  | ok (value : α) (s : State)
  /-- `raise Fail(code)` (R13), with the state built so far (R239). -/
  | fail (code : Code) (s : State)
  /-- An access that has no step (R61). -/
  | stop (reason : Fault)

/-- Go on with the pseudocode after a piece that ran to its end; a failure ends the command at once (R13). -/
def Res.andThen {α β : Type} (r : Res α) (k : α → State → Res β) : Res β :=
  match r with
  | .ok a s => k a s
  | .fail c s => .fail c s
  | .stop f => .stop f

/-- `for i in first .. first+count-1: body(i)`, in ascending order (R14). -/
def forUp (count first : Nat) (body : Nat → State → Res Unit) (s : State) : Res Unit :=
  match count with
  | 0 => .ok () s
  | n + 1 => (body first s).andThen fun _ s => forUp n (first + 1) body s

/-! ### Named updates of the state -/

/-- One more free value has been drawn. -/
def drawOne (s : State) : State := { s with draws := s.draws + 1 }

/-- RESULT <- w (R25). -/
def setResult (w : Word) (s : State) : State := { s with result := w }

/-- UNRLE_LEN <- w (R31). -/
def setUnrleLen (w : Word) (s : State) : State := { s with unrleLen := w }

/-- DATA_POS <- w (R32). -/
def setDataPos (w : Word) (s : State) : State := { s with dataPos := w }

/-- The cursor registers (R33 to R35). -/
def setCursor (c : Cursor) (s : State) : State := { s with cur := c }

/-- Host memory. -/
def setMem (m : Memory) (s : State) : State := { s with mem := m }

/-- Release of the intermediate buffer: VALID <- 0, after which every byte of Scratch is any value (R37, R38, R77). -/
def release (s : State) : State := { s with scrValid := false, scratch := [], scratchEpoch := s.scratchEpoch + 1 }

/-- The end of a successful UnrleCore: Scratch holds the buffer and VALID <- 1 (R140). -/
def keepScratch (buf : List Byte) (s : State) : State := { s with scratch := buf, scrValid := true }

/-- A fresh cursor over the command region, nothing of it latched (R113, R140): what the Host wrote before is seen
(R71 item 1). -/
def startCursor (s : State) : State :=
  { s with cur := freshCursor s.args.cmdAddr s.args.cmdLen, unstable := [], latched := false }

/-- A cursor command has run: an implementation may have latched bytes the cursor has not finished (R75). -/
def latchCursor (s : State) : State := { s with latched := true }

/-- Add an address to a list without repeats. -/
def addOnce (a : Nat) (l : List Nat) : List Nat := if l.contains a then l else a :: l

/-- A Host write of the byte is one between two cursor commands to a byte the cursor has not finished (R75), unless
UNRLE or DECODE left the cursor and no cursor command has run since: then R71 item 1 alone holds and it is seen (log
entry 8). -/
def mayBeLatched (s : State) (a : Nat) : Bool := s.latched && inRegion s.cur.addr s.cur.rem.toNat a

/-- The bytes the Host wrote, as the cursor will read them: any value where they may be latched (R75). -/
def latchWrites (written : List Nat) (s : State) : State :=
  { s with unstable := (written.filter (mayBeLatched s)).foldr addOnce s.unstable }

/-- The end of a command is the end of its races. A byte the Host wrote meanwhile was written between two cursor
commands, unless the command left an unlatched cursor (R75, log entry 8). -/
def endRace (s : State) : State := { latchWrites s.raced s with raced := [] }

/-- An accepted write of `w` to CMD (R23). The bytes the Host raced with an earlier command are no concern of this
one. -/
def acceptCommand (w : Word) (s : State) : State :=
  { s with cmd := w, status := acceptedStatus, pending := some w, raced := [] }

/-- Completion with a code: the one way every command ends, success or failure (R238). No failure saves anything else or
goes anywhere (R240). -/
def complete (c : Code) (s : State) : State := { s with status := completedStatus c, pending := none }

/-- The end of a command: completion with Success, or with the code raised (R238); an access without a step leaves the
Engine stuck (R61). -/
def finish (r : Res Unit) : Host.Outcome State Fault Refusal :=
  match r with
  | .ok _ s => .next (complete .success s)
  | .fail c s => .next (complete c s)
  | .stop f => .fault f

/-- Leave a piece of pseudocode through the release of Scratch, on success and on failure (R77, R210). -/
def releasing (r : Res Unit) : Res Unit :=
  match r with
  | .ok _ s => .ok () (release s)
  | .fail c s => .fail c (release s)
  | .stop f => .stop f

/-- Leave a piece of pseudocode as a cursor command: what the cursor has not finished may be latched (R75). -/
def latching (r : Res Unit) : Res Unit :=
  match r with
  | .ok _ s => .ok () (latchCursor s)
  | .fail c s => .fail c (latchCursor s)
  | .stop f => .stop f

/-! ### Byte accesses -/

/-- `MemRead(a, 1)` where the bytes `unsettled` are any value (R71 item 3, R75). An address outside HOST_MEMORY has no
step (R61). -/
def readByte (unsettled : List Nat) (a : Word) (s : State) : Res Byte :=
  if backs s.platform a.toNat then
    if unsettled.contains a.toNat then .ok (Config.unsettledByte s.draws) (drawOne s)
    else .ok (Memory.read s.mem a.toNat) s
  else .stop .engineOutsideHostMemory

/-- `MemRead(a, 1)` (R12). A byte the Host wrote since the command was accepted is any value (R71 item 3). -/
def memRead (a : Word) (s : State) : Res Byte := readByte s.raced a s

/-- `MemWrite(a, 1, v)` (R12). -/
def memWrite (a : Word) (v : Byte) (s : State) : Res Unit :=
  if backs s.platform a.toNat then .ok () (setMem (Memory.write s.mem a.toNat v) s)
  else .stop .engineOutsideHostMemory

/-- `Scratch[i]` (R12): a byte nothing has determined is any value (R38). -/
def scratchAt (s : State) (i : Nat) : Byte := (s.scratch[i]?).getD (Config.scratchByte s.scratchEpoch i)

/-! ### Tests -/

/-- The code of the first test that raises, in the order made (R234). -/
def firstFailure : List (Bool × Code) → Option Code
  | [] => none
  | (true, c) :: _ => some c
  | (false, _) :: rest => firstFailure rest

/-- Make the tests, then go on; the first that raises ends the command (R13, R234). -/
def checked (tests : List (Bool × Code)) (k : State → Res Unit) (s : State) : Res Unit :=
  match firstFailure tests with
  | some c => .fail c s
  | none => k s

/-- `DATA_ADDR == 0` (R27). -/
def dataNullTest (s : State) : Bool × Code := (s.args.dataAddr == 0#32, .dataBufferIsNull)

/-- `CMD_ADDR == 0` (R28). -/
def cmdNullTest (s : State) : Bool × Code := (s.args.cmdAddr == 0#32, .cmdBufferIsNull)

/-- `not AddrOK(DATA_ADDR, DATA_LEN)` (R62). -/
def dataRangeTest (s : State) : Bool × Code := (!addrOK s.args.dataAddr s.args.dataLen, .addressRange)

/-- `not AddrOK(CMD_ADDR, CMD_LEN)` (R62). -/
def cmdRangeTest (s : State) : Bool × Code := (!addrOK s.args.cmdAddr s.args.cmdLen, .addressRange)

/-- `not AddrOK(OUT_ADDR, OUT_CAP)` (R62). -/
def outRangeTest (s : State) : Bool × Code := (!addrOK s.args.outAddr s.args.outCap, .addressRange)

/-- The source's four checks of the output (R174, R210). -/
def dimensionTests (s : State) : List (Bool × Code) :=
  [(s.args.outAddr == 0#32, .rgbaBufferIsNull),
   (decide (Config.maxRgbaLength < s.args.outCap.toNat), .dimensionsTooLarge),
   (s.args.width == 0#32 || s.args.height == 0#32, .invalidDimensions),
   (decide (s.args.depth.toNat < 1) || decide (4 < s.args.depth.toNat), .invalidDepthBytes)]

/-- The last two checks before the PlaneDeinterleaver (R174, R210). -/
def lengthTests (s : State) : List (Bool × Code) :=
  [(decide (s.args.outCap.toNat < s.unrleLen.toNat), .rgbaBufferTooSmall),
   (decide (s.unrleLen.toNat % 4 ≠ 0), .invalidUnrleLength)]

/-- `OutputChecks`, in its order (R174). -/
def outputTests (s : State) : List (Bool × Code) :=
  dimensionTests s ++ [outRangeTest s, (!s.scrValid, .scratchInvalid)] ++ lengthTests s

/-- The tests of CUR_INIT (R113). -/
def curInitTests (s : State) : List (Bool × Code) := [cmdNullTest s, cmdRangeTest s]

/-- The tests of UNRLE before UnrleCore (R141). -/
def unrleTests (s : State) : List (Bool × Code) := [dataNullTest s, cmdNullTest s, dataRangeTest s, cmdRangeTest s]

/-- The tests of SCRATCH_READ (R142). -/
def scratchReadTests (s : State) : List (Bool × Code) :=
  [(!s.scrValid, .scratchInvalid), (decide (s.unrleLen.toNat ≤ operandIndex s), .operandRange)]

/-- The tests of DECODE before UnrleCore (R210). -/
def decodeTests (s : State) : List (Bool × Code) :=
  [dataNullTest s, cmdNullTest s] ++ dimensionTests s ++ [dataRangeTest s, cmdRangeTest s, outRangeTest s]

/-- An accepted illegal command word: IllegalCommand, and nothing else changes (R82). -/
def execIllegal (s : State) : Host.Outcome State Fault Refusal := .next (complete .illegalCommand s)

end Sys2Proof.Machine
end

