-- ==== Sys2Proof/Machine/Deinterleave.lean ====
section
/-! DEFINITION. PlaneDeinterleaver (spec/42_deinterleave.md): UNPACK_VALUE, TABLE_READ, REGROUP, HDELTA, VDELTA,
UNDELTAFILTER. -/

namespace Sys2Proof.Machine

/-- The regroup word: the four table words of a group OR'd together (R171). -/
def regroupWord (a b c d : Byte) : Word := romTable 0#2 a ||| romTable 1#2 b ||| romTable 2#2 c ||| romTable 3#2 d

/-- The regroup word of group `j`: one byte of each section of Scratch (R91, R171). -/
def groupWord (j : Nat) (s : State) : Word :=
  let q := s.unrleLen.toNat / 4
  regroupWord (scratchAt s j) (scratchAt s (q + j)) (scratchAt s (2 * q + j)) (scratchAt s (3 * q + j))

/-- Byte `k` of a regroup word: bits 8k+7:8k (R171). -/
def wordByte (w : Word) (k : Nat) : Byte := w.extractLsb' (8 * k) 8

/-- One group of `RegroupCore`: four output bytes, bits 7:0 of the word first (R65, R171). -/
def regroupGroup (j : Nat) (s : State) : Res Unit :=
  forUp 4 0 (fun k t => memWrite (addrAt t.args.outAddr (4 * j + k)) (unpackValue (wordByte (groupWord j s) k)) t) s

/-- `RegroupCore`, Step 1 (R171). -/
def regroupCore (s : State) : Res Unit := forUp (s.unrleLen.toNat / 4) 0 regroupGroup s

/-- `OUT[i] <- (OUT[i] + OUT[j]) mod 256` (R172, R173). -/
def addByte (i j : Nat) (s : State) : Res Unit :=
  (memRead (addrAt s.args.outAddr i) s).andThen fun x s =>
    (memRead (addrAt s.args.outAddr j) s).andThen fun y s => memWrite (addrAt s.args.outAddr i) (x + y) s

/-- `HdeltaCore`, Step 2: row 0 only, clipped to indices below L (R172). -/
def hdeltaCore (s : State) : Res Unit :=
  forUp (min s.args.stride.toNat s.unrleLen.toNat - s.args.depth.toNat) s.args.depth.toNat
    (fun x s => addByte x (x - s.args.depth.toNat) s) s

/-- One byte of a row of `VdeltaCore`: only an index below L is touched (R173). -/
def vdeltaByte (y x : Nat) (s : State) : Res Unit :=
  if y * s.args.stride.toNat + x < s.unrleLen.toNat then
    addByte (y * s.args.stride.toNat + x) (y * s.args.stride.toNat + x - s.args.stride.toNat) s
  else .ok () s

/-- One row of `VdeltaCore` (R173). -/
def vdeltaRow (y : Nat) (s : State) : Res Unit := forUp s.args.stride.toNat 0 (vdeltaByte y) s

/-- `VdeltaCore`, Step 3: every row but the first, top to bottom (R173). -/
def vdeltaCore (s : State) : Res Unit := forUp (s.args.height.toNat - 1) 1 vdeltaRow s

/-- Steps 1 to 3 in order (R180, R210). -/
def undeltaCore (s : State) : Res Unit :=
  (regroupCore s).andThen fun _ s => (hdeltaCore s).andThen fun _ s => vdeltaCore s

/-- UNPACK_VALUE (R175). -/
def execUnpackValue (s : State) : Host.Outcome State Fault Refusal :=
  finish (.ok () (setResult ((unpackValue (operandByte s)).zeroExtend 32) s))

/-- TABLE_READ (R176). -/
def execTableRead (s : State) : Host.Outcome State Fault Refusal :=
  finish (.ok () (setResult (romTable (operandSelect s) (operandByte s)) s))

/-- REGROUP (R177). -/
def execRegroup (s : State) : Host.Outcome State Fault Refusal := finish (checked (outputTests s) regroupCore s)

/-- HDELTA (R178). -/
def execHdelta (s : State) : Host.Outcome State Fault Refusal := finish (checked (outputTests s) hdeltaCore s)

/-- VDELTA (R179). -/
def execVdelta (s : State) : Host.Outcome State Fault Refusal := finish (checked (outputTests s) vdeltaCore s)

/-- UNDELTAFILTER (R180): the tests once, then Steps 1 to 3. -/
def execUndeltafilter (s : State) : Host.Outcome State Fault Refusal := finish (checked (outputTests s) undeltaCore s)

end Sys2Proof.Machine
end

