-- ==== Sys2Proof/Machine/BitReader.lean ====
section
/-! DEFINITION. BitReader and Elias-gamma decoder (spec/40_bitreader.md): NOP, CUR_INIT, GET_BIT, GET_GAMMA. -/

namespace Sys2Proof.Machine

/-- `MemRead(CUR_ADDR, 1)` of `GetBit`. An unfinished byte the Host wrote between two cursor commands is any value, since
an implementation may latch the current byte (R75, R274). -/
def cursorRead (s : State) : Res Byte := readByte (s.raced ++ s.unstable) s.cur.addr s

/-- `GetBit` (R110). -/
def getBit (s : State) : Res Bool :=
  if s.cur.rem = 0#32 then .ok true (setCursor (exhaustedCursor s.cur) s)
  else (cursorRead s).andThen fun b s => .ok (b.getLsbD s.cur.bit.toNat) (setCursor (advancedCursor s.cur) s)

/-- How many genuine bits the cursor has left (R36, R110). -/
def bitsLeft (c : Cursor) : Nat := 8 * c.rem.toNat - c.bit.toNat

/-- The unary part of `GetGamma`: count zeros until a 1 is read (R111). At most `fuel` bits are read; with more fuel
than genuine bits are left the count always ends at a 1, the terminal one at the latest (R111, `gammaZeros_fuel`). -/
def gammaZeros (fuel digits : Nat) (s : State) : Res Nat :=
  match fuel with
  | 0 => .ok digits s
  | n + 1 => (getBit s).andThen fun b s => if b then .ok digits s else gammaZeros n (digits + 1) s

/-- The explicit bits of `GetGamma`, the first one the most significant: `n` of them are left (R111). -/
def gammaBits (n value : Nat) (s : State) : Res Nat :=
  match n with
  | 0 => .ok value s
  | n + 1 => (getBit s).andThen fun b s => gammaBits n (if b then value ||| 2 ^ n else value) s

/-- The result of `GetGamma`: INVALID when the cursor ran out or no 32-bit word holds the value (R111). -/
def gammaResult (exh : Bool) (digits value : Nat) : Word :=
  if exh then Config.gammaInvalid
  else if Config.gammaWidth ≤ digits then Config.gammaInvalid
  else BitVec.ofNat 32 value

/-- `GetGamma` (R111). `digits` is counted exactly (R118). -/
def getGamma (s : State) : Res Word :=
  (gammaZeros (8 * s.cur.rem.toNat + 1) 0 s).andThen fun digits s =>
    (gammaBits digits (2 ^ digits) s).andThen fun value s => .ok (gammaResult s.cur.exh digits value) s

/-- NOP (R112). -/
def execNop (s : State) : Host.Outcome State Fault Refusal := finish (.ok () s)

/-- CUR_INIT (R113). -/
def execCurInit (s : State) : Host.Outcome State Fault Refusal :=
  finish (latching (checked (curInitTests s) (fun s => .ok () (startCursor s)) s))

/-- GET_BIT (R114): `zext_32` of the bit. Exhaustion is no failure (R233). -/
def execGetBit (s : State) : Host.Outcome State Fault Refusal :=
  finish (latching ((getBit s).andThen fun b s => .ok () (setResult ((BitVec.ofBool b).zeroExtend 32) s)))

/-- GET_GAMMA (R115). INVALID is a value, not a failure (R233). -/
def execGetGamma (s : State) : Host.Outcome State Fault Refusal :=
  finish (latching ((getGamma s).andThen fun w s => .ok () (setResult w s)))

end Sys2Proof.Machine
end

