-- ==== Sys2Proof/Machine/Unrle.lean ====
section
/-! DEFINITION. RunLengthExpander (spec/41_unrle.md): UNRLE, SCRATCH_READ. -/

namespace Sys2Proof.Machine

/-- The reads of a copy run: `MemRead(base + off, 1)` and the `n - 1` bytes after it, in ascending order (R140). -/
def readBytes (n : Nat) (base : Word) (off : Nat) (s : State) : Res (List Byte) :=
  match n with
  | 0 => .ok [] s
  | n + 1 =>
    (memRead (addrAt base off) s).andThen fun b s =>
      (readBytes n base (off + 1) s).andThen fun bs s => .ok (b :: bs) s

/-- `Scratch[off + i] <- bytes[i]` for every i (R140). -/
def fillAt (buf : List Byte) (off : Nat) (bytes : List Byte) : List Byte :=
  buf.take off ++ bytes ++ buf.drop (off + bytes.length)

/-- The loop of `UnrleCore`, step 4 (R140). `buf` is the zero-initialised intermediate buffer as filled so far: while
VALID is 0 Scratch itself is any value, and only a run that ends well keeps it (R38, R239). Every run is at least 1
long, so `total` iterations are enough (R143). -/
def unrleRuns (fuel : Nat) (copy : Bool) (total off : Nat) (buf : List Byte) (s : State) : Res (List Byte) :=
  match fuel with
  | 0 => .ok buf s
  | fuel + 1 =>
    if off < total then
      (getGamma s).andThen fun run s =>
        if run = Config.gammaInvalid then .fail .corruptStream s
        else if total - off < run.toNat then .fail .corruptStream s
        else if copy then
          if s.args.dataLen.toNat - s.dataPos.toNat < run.toNat then .fail .corruptStream s
          else
            (readBytes run.toNat s.args.dataAddr s.dataPos.toNat s).andThen fun bytes s =>
              unrleRuns fuel false total (off + run.toNat) (fillAt buf off bytes) (setDataPos (s.dataPos + run) s)
        else unrleRuns fuel true total (off + run.toNat) buf s
    else .ok buf s

/-- The start of `UnrleCore`: an earlier intermediate buffer is released, UNRLE_LEN and DATA_POS are 0, the cursor is
fresh (R140). -/
def startUnrle (s : State) : State := startCursor (setDataPos 0#32 (setUnrleLen 0#32 (release s)))

/-- Steps 3 and 4 of `UnrleCore`, once the total is known (R140). -/
def expandRuns (copy : Bool) (total : Word) (s : State) : Res Unit :=
  if s.platform.unrleCap < total.toNat then .fail .allocationFailed s
  else
    (unrleRuns total.toNat copy total.toNat 0 (List.replicate total.toNat 0#8) s).andThen fun buf s =>
      .ok () (keepScratch buf s)

/-- `UnrleCore` (R140). -/
def unrleCore (s : State) : Res Unit :=
  (getBit (startUnrle s)).andThen fun copy s =>
    (getGamma s).andThen fun total s =>
      if total = Config.gammaInvalid then .fail .corruptStream s
      else expandRuns copy total (setUnrleLen total s)

/-- UNRLE (R141). -/
def execUnrle (s : State) : Host.Outcome State Fault Refusal := finish (checked (unrleTests s) unrleCore s)

/-- SCRATCH_READ (R142). -/
def execScratchRead (s : State) : Host.Outcome State Fault Refusal :=
  finish (checked (scratchReadTests s)
    (fun s => .ok () (setResult ((scratchAt s (operandIndex s)).zeroExtend 32) s)) s)

end Sys2Proof.Machine
end

