-- ==== Sys2Proof/Machine/ImageDecode.lean ====
section
/-! DEFINITION. ImageDecoder sequencing (spec/43_decode.md): DECODE. -/

namespace Sys2Proof.Machine

/-- The processing of DECODE after its validation, less the release (R210). -/
def decodeCore (s : State) : Res Unit :=
  (unrleCore s).andThen fun _ s => checked (lengthTests s) undeltaCore s

/-- DECODE (R210): Scratch is released on every exit path (R77). -/
def execDecode (s : State) : Host.Outcome State Fault Refusal :=
  finish (releasing (checked (decodeTests s) decodeCore s))

end Sys2Proof.Machine
end

