-- ==== Sys2Proof/Machine/Dispatch.lean ====
section
/-! DEFINITION. The meaning of every command (spec/30_encoding.md R81), one arm each. -/

namespace Sys2Proof.Machine

def exec (i : Instr) (s : State) : Host.Outcome State Fault Refusal :=
  match i with
  | .nop => Sys2Proof.Machine.execNop s
  | .curInit => Sys2Proof.Machine.execCurInit s
  | .getBit => Sys2Proof.Machine.execGetBit s
  | .getGamma => Sys2Proof.Machine.execGetGamma s
  | .unrle => Sys2Proof.Machine.execUnrle s
  | .scratchRead => Sys2Proof.Machine.execScratchRead s
  | .unpackValue => Sys2Proof.Machine.execUnpackValue s
  | .tableRead => Sys2Proof.Machine.execTableRead s
  | .regroup => Sys2Proof.Machine.execRegroup s
  | .hdelta => Sys2Proof.Machine.execHdelta s
  | .vdelta => Sys2Proof.Machine.execVdelta s
  | .undeltafilter => Sys2Proof.Machine.execUndeltafilter s
  | .decode => Sys2Proof.Machine.execDecode s

end Sys2Proof.Machine
end

