-- ==== Sys2Proof/Machine/Footprint.lean ====
section
/-! DEFINITION. Which host bytes a command may read and write (spec/20_memory.md R63), and what becomes of them when the
Host breaks its duty (R71 item 3) or a reset discards the command (spec/70_reset_and_hazards.md R261). -/

namespace Sys2Proof.Machine

/-- How many bytes of OUT, counted from its start, the command may write: none unless its tests pass, then
`[OUT_ADDR, OUT_ADDR + UNRLE_LEN)` (R63, R177, R212). Beside it, the counter of free values after the ones this
took. -/
def outReach (i : Instr) (s : State) : Nat × Nat :=
  match i with
  | .nop | .curInit | .getBit | .getGamma | .unrle | .scratchRead | .unpackValue | .tableRead => (0, s.draws)
  | .regroup | .hdelta | .vdelta | .undeltafilter =>
    (if firstFailure (outputTests s) = none then s.unrleLen.toNat else 0, s.draws)
  | .decode =>
    match firstFailure (decodeTests s) with
    | some _ => (0, s.draws)
    | none =>
      match unrleCore s with
      | .ok _ t => (if firstFailure (lengthTests t) = none then t.unrleLen.toNat else 0, t.draws)
      | .fail _ t => (0, t.draws)
      | .stop _ => (0, s.draws)

/-- The command, performed from `s` to `t`, may read or write the byte (R63). -/
def touches (i : Instr) (s t : State) (a : Nat) : Bool :=
  match i with
  | .nop | .curInit | .unpackValue | .tableRead | .scratchRead => false
  | .getBit | .getGamma => inRegion s.cur.addr s.cur.rem.toNat a
  | .unrle => inRegion s.args.cmdAddr s.args.cmdLen.toNat a || inRegion s.args.dataAddr t.dataPos.toNat a
  | .regroup | .hdelta | .vdelta | .undeltafilter => inRegion s.args.outAddr (outReach i s).1 a
  | .decode =>
    inRegion s.args.cmdAddr s.args.cmdLen.toNat a || inRegion s.args.dataAddr t.dataPos.toNat a ||
      inRegion s.args.outAddr (outReach i s).1 a

/-- One byte takes any value; there is none outside HOST_MEMORY. -/
def clobberByte (a : Word) (s : State) : State :=
  if backs s.platform a.toNat then
    drawOne (setMem (Memory.write s.mem a.toNat (Config.clobberedByte s.draws)) s)
  else s

/-- The `n` bytes of OUT from index `i` up take any value. -/
def clobberOut (n i : Nat) (s : State) : State :=
  match n with
  | 0 => s
  | n + 1 => clobberOut n (i + 1) (clobberByte (addrAt s.args.outAddr i) s)

/-- What the Host's writes during a command do at its completion: if one hit a byte the command may read or write,
every byte the command may write has any value (R71 item 3). -/
def settle (i : Instr) (s t : State) : State :=
  endRace (if s.raced.any (touches i s t) then clobberOut (outReach i s).1 0 t else t)

/-- `outReach` of the pending command; an illegal word writes nothing (R82). -/
def pendingReach (s : State) : Nat × Nat :=
  match s.pending with
  | none => (0, s.draws)
  | some w =>
    match decodeWord w with
    | .ok i => outReach i s
    | .error _ => (0, s.draws)

/-- Host memory at a reset: while busy, every byte the discarded command could write has any value (R261); else as it
was (R260). -/
def settleReset (s : State) : State :=
  if s.status.busy then clobberOut (pendingReach s).1 0 { s with draws := (pendingReach s).2 } else s

/-- The platform's reset event (R260, R261): the registers of R47, no pending command, Scratch any value. Host memory
stays but for what R261 says; the platform, what is still to come and what the Host has seen are no part of the
instance. -/
def platformReset (s : State) : State :=
  { State.resetOn s.platform (settleReset s).mem with
    draws := (settleReset s).draws
    scratchEpoch := s.scratchEpoch + 1
    inputs := s.inputs
    observed := s.observed }

end Sys2Proof.Machine
end

