-- ==== Sys2Proof/Machine/HostBus.lean ====
section
/-! DEFINITION. The Host's side: register loads and stores (spec/10_state.md R22 to R24, R39, R43 to R46;
spec/20_memory.md R68), the WAIT loop (spec/30_encoding.md R94, R95) and byte accesses to host memory
(spec/20_memory.md R61, R71, R75). -/

namespace Sys2Proof.Machine

/-- The word a register holds (R22). -/
def registerWord (r : RegName) (s : State) : Word :=
  match r with
  | .cmd => s.cmd
  | .status => statusWord s.status
  | .result => s.result
  | .operand => s.args.operand
  | .dataAddr => s.args.dataAddr
  | .dataLen => s.args.dataLen
  | .cmdAddr => s.args.cmdAddr
  | .cmdLen => s.args.cmdLen
  | .outAddr => s.args.outAddr
  | .outCap => s.args.outCap
  | .width => s.args.width
  | .height => s.args.height
  | .depth => s.args.depth
  | .stride => s.args.stride
  | .unrleLen => s.unrleLen
  | .dataPos => s.dataPos
  | .curAddr => s.cur.addr
  | .curRem => s.cur.rem
  | .curState => curStateWord s.cur
  | .scrState => scrStateWord s.scrValid

/-- The state registers, which a Host load reads as any value while a command is busy (R43). -/
def hiddenWhileBusy : RegName → Bool
  | .result | .unrleLen | .dataPos | .curAddr | .curRem | .curState | .scrState => true
  | .cmd | .status | .operand | .dataAddr | .dataLen | .cmdAddr | .cmdLen | .outAddr | .outCap => false
  | .width | .height | .depth | .stride => false

/-- What a load returns to the Host. -/
def observe (w : Word) (s : State) : State := { s with observed := s.observed ++ [w] }

/-- A Host load of a register: exact, but for a state register while busy (R43). No other effect (R68). -/
def loadRegister (r : RegName) (s : State) : State :=
  if s.status.busy && hiddenWhileBusy r then observe (Config.busyWord s.draws) (drawOne s)
  else observe (registerWord r s) s

/-- A Host store of `w` to a register while not busy: CMD starts a command (R23), STATUS clears DONE (R24), an RW
register takes all 32 bits (R45), an RO register ignores the store (R39). -/
def storeRegister (r : RegName) (w : Word) (s : State) : State :=
  match r with
  | .cmd => acceptCommand w s
  | .status => { s with status := writeStatus w s.status }
  | .operand => { s with args := { s.args with operand := w } }
  | .dataAddr => { s with args := { s.args with dataAddr := w } }
  | .dataLen => { s with args := { s.args with dataLen := w } }
  | .cmdAddr => { s with args := { s.args with cmdAddr := w } }
  | .cmdLen => { s with args := { s.args with cmdLen := w } }
  | .outAddr => { s with args := { s.args with outAddr := w } }
  | .outCap => { s with args := { s.args with outCap := w } }
  | .width => { s with args := { s.args with width := w } }
  | .height => { s with args := { s.args with height := w } }
  | .depth => { s with args := { s.args with depth := w } }
  | .stride => { s with args := { s.args with stride := w } }
  | .result | .unrleLen | .dataPos | .curAddr | .curRem | .curState | .scrState => s

/-- The offset of an address in the register block (R22). -/
def blockOffset (addr : Word) (s : State) : Nat := (addr - s.platform.blockBase).toNat

/-- The address is one of the register block's 256 (R22). -/
def inBlock (addr : Word) (s : State) : Bool := decide (blockOffset addr s < Config.blockSize)

/-- A Host load from the block (R68). A reserved offset reads 0 (R39). -/
def hostLoad (width : Nat) (addr : Word) (s : State) : Host.Outcome State Fault Refusal :=
  if s.platform.legalAccess width addr then
    match registerAt (blockOffset addr s) with
    | some r => .next (loadRegister r s)
    | none => .next (observe 0#32 s)
  else .refused .unsupportedRegisterAccess

/-- A Host store to the block (R68). While busy every store is ignored (R44); a store to a reserved offset is ignored
(R39). -/
def hostStore (width : Nat) (addr w : Word) (s : State) : Host.Outcome State Fault Refusal :=
  if s.platform.legalAccess width addr then
    if s.status.busy then .next s
    else
      match registerAt (blockOffset addr s) with
      | some r => .next (storeRegister r w s)
      | none => .next s
  else .refused .unsupportedRegisterAccess

/-- One turn of the WAIT loop: a load of STATUS, and while it shows BUSY = 1 the Engine's turn and then the loop again
(R94, R95, log entry 4). -/
def hostPoll (s : State) : State :=
  if s.status.busy then { loadRegister .status s with inputs := .engine :: .poll :: s.inputs }
  else loadRegister .status s

/-- A Host load of a byte of host memory (R61). The Host must not rely on what it reads from a byte the busy command may
write: any value (R71 item 3). -/
def hostMemLoad (addr : Word) (s : State) : Host.Outcome State Fault Refusal :=
  if inBlock addr s then .refused .unsupportedRegisterAccess
  else if backs s.platform addr.toNat then
    if s.status.busy && inRegion s.args.outAddr (pendingReach s).1 addr.toNat then
      .next (observe ((Config.busyByte s.draws).zeroExtend 32) (drawOne s))
    else .next (observe ((Memory.read s.mem addr.toNat).zeroExtend 32) s)
  else .fault .hostOutsideHostMemory

/-- Note that the Host wrote a byte: while busy it races the command, which settles it when it completes (R71 item 3);
else a byte the cursor has not finished may be latched (R75), and any other is seen by the next command (R71 item 1). -/
def noteHostWrite (a : Nat) (s : State) : State :=
  if s.status.busy then { s with raced := addOnce a s.raced } else latchWrites [a] s

/-- A Host store of a byte of host memory (R61). -/
def hostMemStore (addr : Word) (v : Byte) (s : State) : Host.Outcome State Fault Refusal :=
  if inBlock addr s then .refused .unsupportedRegisterAccess
  else if backs s.platform addr.toNat then
    .next (noteHostWrite addr.toNat (setMem (Memory.write s.mem addr.toNat v) s))
  else .fault .hostOutsideHostMemory

end Sys2Proof.Machine
end

