-- ==== Sys2Proof/Machine/Engine.lean ====
section
/-! DEFINITION. The Engine's turn (spec/60_exceptions.md R237) and when it comes. -/

namespace Sys2Proof.Machine

/-- The Engine's turn: with no pending command it is idle (R249); else it decodes the word (R82), performs the command
and completes it (R237). -/
def engineStep (s : State) : Host.Outcome State Fault Refusal :=
  match s.pending with
  | none => .next s
  | some w =>
    match decodeWord w with
    | .error _ =>
      match execIllegal s with
      | .next t => .next (endRace t)
      | .fault f => .fault f
      | .refused r => .refused r
    | .ok i =>
      match exec i s with
      | .next t => .next (settle i s t)
      | .fault f => .fault f
      | .refused r => .refused r

/-- The next step is the Engine's turn: nothing stands before it. -/
def State.engineNext (s : State) : Bool :=
  match s.inputs with
  | [] => true
  | .engine :: _ => true
  | _ => false

/-- The state with its first input taken. -/
def State.takeInput (s : State) : State := { s with inputs := s.inputs.tail }

end Sys2Proof.Machine
end

