-- ==== Sys2Proof/Machine/Step.lean ====
section
/-! DEFINITION. One step of the machine: the Engine's turn (spec/60_exceptions.md R237), or the next thing from outside
(spec/00_scope.md R5). -/

namespace Sys2Proof.Machine

/-- One step: the first input happens; with none left it is the Engine's turn (log entry 4). -/
def step (s : State) : Host.Outcome State Fault Refusal :=
  match s.inputs with
  | [] => engineStep s.takeInput
  | .engine :: _ => engineStep s.takeInput
  | .load width addr :: _ => hostLoad width addr s.takeInput
  | .store width addr value :: _ => hostStore width addr value s.takeInput
  | .poll :: _ => .next (hostPoll s.takeInput)
  | .memLoad addr :: _ => hostMemLoad addr s.takeInput
  | .memStore addr value :: _ => hostMemStore addr value s.takeInput
  | .reset :: _ => .next (platformReset s.takeInput)

/-- The state in which a write of the word to CMD has just been accepted (R23) and the Engine's turn comes next: the
very next step decodes and performs it. It stands for the Host's store, which is how a command comes to run (log
entry 4). -/
def State.withFetchWord (s : State) (nbits w : Nat) : State :=
  { acceptCommand (BitVec.ofNat 32 (w % 2 ^ nbits)) s with inputs := .engine :: s.inputs }

end Sys2Proof.Machine
end

