-- ==== Sys2Proof/Safety.lean ====
section
/-! DEFINITION. What counts as a good state, the duties of the Host, and the spec's own vocabulary (bits of a region, a
code, a stream, a plane), in the terms the statements use. -/

namespace Sys2Proof.Machine

/-! ### The invariant -/

/-- The cursor invariants of R36, and a region that does not wrap (R62). -/
def cursorOk (c : Cursor) : Prop :=
  (c.exh = true → c.rem = 0#32) ∧ (c.rem = 0#32 → c.bit = 0#3) ∧ c.addr.toNat + c.rem.toNat ≤ Config.addressCount

/-- The invariant of the machine: what every step keeps, on every platform. -/
structure State.Inv (s : State) : Prop where
  /-- BUSY is 1 exactly while a command is pending (R23, R238). -/
  busy_pending : s.status.busy = s.pending.isSome
  /-- The pending command is the word in CMD (R23, R237). -/
  pending_cmd : ∀ w, s.pending = some w → w = s.cmd
  /-- CODE is Pending exactly while BUSY = 1 (R24). -/
  code_pending : s.status.code = .pending ↔ s.status.busy = true
  /-- DONE is 0 while BUSY = 1 (R23, R238). -/
  done_idle : s.status.busy = true → s.status.done = false
  /-- EXH = 1 only with CUR_REM = 0; CUR_REM = 0 only with BIT = 0 (R36); the cursor's region does not wrap. -/
  cursor : cursorOk s.cur
  /-- VALID = 1: Scratch holds a whole intermediate buffer that could be allocated (R37, R140). -/
  scratch_valid : s.scrValid = true →
    s.scratch.length = s.unrleLen.toNat ∧ 0 < s.unrleLen.toNat ∧ s.unrleLen.toNat ≤ s.platform.unrleCap
  /-- VALID = 0: no byte of Scratch is determined (R38). -/
  scratch_released : s.scrValid = false → s.scratch = []
  /-- Host memory keeps its canonical form (the model's own, log entry 1). -/
  mem_wf : Memory.wf s.mem = true
  /-- A race is about the command in progress (R71 item 3; the model's own, log entry 7). -/
  raced_idle : s.status.busy = false → s.raced = []

/-! ### Duties and backed regions -/

/-- No byte of `[base, base + len)` is one of the listed addresses. -/
def avoids (l : List Nat) (base : Word) (len : Nat) : Prop := ∀ i < len, (addrAt base i).toNat ∉ l

/-- The Host has kept its duty towards the bytes the cursor has left: it wrote none of them during the command in
progress, and none between two cursor commands (R272, R274). What it wrote elsewhere is its own affair. -/
def State.dutyKept (s : State) : Prop := avoids (s.raced ++ s.unstable) s.cur.addr s.cur.rem.toNat

/-- The byte is one the cursor has not finished, at a time between two cursor commands (R75, log entry 8). -/
def State.unfinished (s : State) (a : Nat) : Prop :=
  s.latched = true ∧ s.cur.addr.toNat ≤ a ∧ a < s.cur.addr.toNat + s.cur.rem.toNat

/-- The platform backs every byte of `[base, base + len)` (R9, R61). -/
def backedRegion (p : Platform) (base : Word) (len : Nat) : Prop := ∀ i < len, backs p (addrAt base i).toNat = true

/-- What is left of the cursor's region is backed. -/
def cursorBacked (s : State) : Prop := backedRegion s.platform s.cur.addr s.cur.rem.toNat

/-- The command region is backed. -/
def cmdBacked (s : State) : Prop := backedRegion s.platform s.args.cmdAddr s.args.cmdLen.toNat

/-- The data region is backed. -/
def dataBacked (s : State) : Prop := backedRegion s.platform s.args.dataAddr s.args.dataLen.toNat

/-- `[OUT_ADDR, OUT_ADDR + UNRLE_LEN)` is backed. -/
def outBacked (s : State) : Prop := backedRegion s.platform s.args.outAddr s.unrleLen.toNat

/-- The host bytes a command may access (R63) are backed. -/
def regionsBacked (i : Instr) (s : State) : Prop :=
  match i with
  | .nop | .curInit | .scratchRead | .unpackValue | .tableRead => True
  | .getBit | .getGamma => cursorBacked s
  | .unrle => cmdBacked s ∧ dataBacked s
  | .regroup | .hdelta | .vdelta | .undeltafilter => outBacked s
  | .decode => cmdBacked s ∧ dataBacked s ∧ backedRegion s.platform s.args.outAddr s.args.outCap.toNat

/-- A read of the cursor gives exactly the bit that stands there: the Host kept its duty, the region is backed, and R36
holds. -/
structure cursorReady (s : State) : Prop where
  duty : s.dutyKept
  backed : cursorBacked s
  ok : cursorOk s.cur

/-- An access of the command in progress to `[base, base + len)` is exact: the Host wrote no byte of it meanwhile (R71
item 3), and it is backed. -/
structure regionReady (s : State) (base : Word) (len : Nat) : Prop where
  settled : avoids s.raced base len
  backed : backedRegion s.platform base len

/-- The command region is ready. -/
def cmdReady (s : State) : Prop := regionReady s s.args.cmdAddr s.args.cmdLen.toNat

/-- The first `n` data bytes are ready. -/
def dataReady (s : State) (n : Nat) : Prop := regionReady s s.args.dataAddr n

/-- An access to OUT below UNRLE_LEN is exact, and host memory is in its form. -/
structure outReady (s : State) : Prop where
  ready : regionReady s s.args.outAddr s.unrleLen.toNat
  wf : Memory.wf s.mem = true

/-! ### Host memory -/

/-- The byte of host memory at an address. -/
def State.byteAt (s : State) (a : Word) : Byte := Memory.read s.mem a.toNat

/-- Byte `i` of OUT (R67). -/
def State.outByte (s : State) (i : Nat) : Byte := s.byteAt (addrAt s.args.outAddr i)

/-- Byte `i` of the data region (R90). -/
def State.dataByte (s : State) (i : Nat) : Byte := s.byteAt (addrAt s.args.dataAddr i)

/-- Every byte of host memory outside `[base, base + len)` reads the same in both states. -/
def sameOutside (base : Word) (len : Nat) (s t : State) : Prop :=
  ∀ a : Word, (∀ i < len, a ≠ addrAt base i) → t.byteAt a = s.byteAt a

/-- The host address of a register of this instance (R22). -/
def State.regAddr (s : State) (r : RegName) : Word := registerAddr s.platform.blockBase r

/-! ### The conditions the commands test -/

/-- None of the checks of R174 raises. -/
structure outputAllowed (s : State) : Prop where
  outAddr : s.args.outAddr ≠ 0#32
  outCap : s.args.outCap.toNat ≤ Config.maxRgbaLength
  width : s.args.width ≠ 0#32
  height : s.args.height ≠ 0#32
  depth : 1 ≤ s.args.depth.toNat ∧ s.args.depth.toNat ≤ 4
  range : s.args.outAddr.toNat + s.args.outCap.toNat ≤ Config.addressCount
  valid : s.scrValid = true
  capacity : s.unrleLen.toNat ≤ s.args.outCap.toNat
  length : s.unrleLen.toNat % 4 = 0

/-- None of the checks UNRLE makes before UnrleCore raises (R141). -/
structure unrleAllowed (s : State) : Prop where
  dataAddr : s.args.dataAddr ≠ 0#32
  cmdAddr : s.args.cmdAddr ≠ 0#32
  dataRange : s.args.dataAddr.toNat + s.args.dataLen.toNat ≤ Config.addressCount
  cmdRange : s.args.cmdAddr.toNat + s.args.cmdLen.toNat ≤ Config.addressCount

/-- None of the checks DECODE makes before UnrleCore raises (R210). -/
structure decodeAllowed (s : State) : Prop where
  unrle : unrleAllowed s
  outAddr : s.args.outAddr ≠ 0#32
  outCap : s.args.outCap.toNat ≤ Config.maxRgbaLength
  width : s.args.width ≠ 0#32
  height : s.args.height ≠ 0#32
  depth : 1 ≤ s.args.depth.toNat ∧ s.args.depth.toNat ≤ 4
  outRange : s.args.outAddr.toNat + s.args.outCap.toNat ≤ Config.addressCount

/-- The codes a command can complete with (R231, R235). -/
def codesOf : Instr → List Code
  | .nop | .getBit | .getGamma | .unpackValue | .tableRead => [.success]
  | .curInit => [.success, .cmdBufferIsNull, .addressRange]
  | .unrle => [.success, .dataBufferIsNull, .cmdBufferIsNull, .addressRange, .corruptStream, .allocationFailed]
  | .scratchRead => [.success, .scratchInvalid, .operandRange]
  | .regroup | .hdelta | .vdelta | .undeltafilter =>
    [.success, .rgbaBufferIsNull, .dimensionsTooLarge, .invalidDimensions, .invalidDepthBytes, .addressRange,
     .scratchInvalid, .rgbaBufferTooSmall, .invalidUnrleLength]
  | .decode =>
    [.success, .dataBufferIsNull, .cmdBufferIsNull, .rgbaBufferIsNull, .dimensionsTooLarge, .invalidDimensions,
     .invalidDepthBytes, .addressRange, .corruptStream, .allocationFailed, .rgbaBufferTooSmall, .invalidUnrleLength]

/-! ### The cursor and the command stream -/

/-- Bit `n` of the cursor's region, counted from bit 0 of the byte at CUR_ADDR (R66). -/
def State.streamBit (s : State) (n : Nat) : Bool := (s.byteAt (addrAt s.cur.addr (n / 8))).getLsbD (n % 8)

/-- The `bits` stand in the cursor's region from the cursor's position on. -/
def State.bitsAhead (s : State) (bits : List Bool) : Prop :=
  bits.length ≤ bitsLeft s.cur ∧ ∀ i (h : i < bits.length), bits[i] = s.streamBit (s.cur.bit.toNat + i)

/-- The cursor `n` genuine bits further on (R36, R110). -/
def cursorAfter (c : Cursor) (n : Nat) : Cursor :=
  ⟨addrAt c.addr ((c.bit.toNat + n) / 8), BitVec.ofNat 32 (c.rem.toNat - (c.bit.toNat + n) / 8),
   BitVec.ofNat 3 ((c.bit.toNat + n) % 8), c.exh⟩

/-- The Elias-gamma code of a positive integer, in stream order (R85). -/
def gammaCode (v : Nat) : List Bool :=
  List.replicate (Nat.log2 v) false ++ [true] ++ (List.range (Nat.log2 v)).map fun k => v.testBit (Nat.log2 v - 1 - k)

/-- Bit `n` of the command region (R66). -/
def State.commandBit (s : State) (n : Nat) : Bool := (s.byteAt (addrAt s.args.cmdAddr (n / 8))).getLsbD (n % 8)

/-- The command region begins with the `bits` (R87). -/
def State.commandBits (s : State) (bits : List Bool) : Prop :=
  bits.length ≤ 8 * s.args.cmdLen.toNat ∧ ∀ i (h : i < bits.length), bits[i] = s.commandBit i

/-- The command stream of a flag, a total and runs: `flag total run_1 … run_k` (R84). -/
def commandStream (flag : Bool) (total : Nat) (runs : List Nat) : List Bool :=
  flag :: (gammaCode total ++ runs.flatMap gammaCode)

/-- A whole code that is INVALID: the code of 0xFFFFFFFF, or a prefix of 32 or more zeros (R86, R111, R117). -/
def invalidCode (code : List Bool) : Prop :=
  code = gammaCode 0xFFFFFFFF ∨ ∃ bits : List Bool, 32 ≤ bits.length ∧
    code = List.replicate bits.length false ++ true :: bits

/-- A fresh cursor over the command region that reads the bits `ahead` and then a code finds it INVALID and stands at
`c` after it: the code is whole and INVALID, or the region ends before the code does (R86, R111). -/
def State.invalidAfter (s : State) (ahead : List Bool) (c : Cursor) : Prop :=
  (∃ code, invalidCode code ∧ s.commandBits (ahead ++ code) ∧
    c = cursorAfter ⟨s.args.cmdAddr, s.args.cmdLen, 0#3, false⟩ (ahead ++ code).length) ∨
  (∃ v, 1 ≤ v ∧ 8 * s.args.cmdLen.toNat < (ahead ++ gammaCode v).length ∧
    s.commandBits ((ahead ++ gammaCode v).take (8 * s.args.cmdLen.toNat)) ∧
    c = ⟨addrAt s.args.cmdAddr s.args.cmdLen.toNat, 0#32, 0#3, true⟩)

/-- The content of the intermediate buffer that runs give, copy and zero-fill in turn, `pos` data bytes already taken
(R144). -/
def expansion (data : Nat → Byte) : (copy : Bool) → (pos : Nat) → (runs : List Nat) → List Byte
  | _, _, [] => []
  | true, pos, r :: rs => ((List.range r).map fun i => data (pos + i)) ++ expansion data false (pos + r) rs
  | false, pos, r :: rs => List.replicate r 0#8 ++ expansion data true pos rs

/-- The sum of the copy runs (R144). -/
def copiedLength : (copy : Bool) → (runs : List Nat) → Nat
  | _, [] => 0
  | true, r :: rs => r + copiedLength false rs
  | false, _ :: rs => copiedLength true rs

/-- Whether the run after `runs` is a copy run: the flag toggles after every run (R84, R144). -/
def flagAfter : (flag : Bool) → (runs : List Nat) → Bool
  | flag, [] => flag
  | flag, _ :: rs => flagAfter (!flag) rs

/-- The command performed `n` times in a row. -/
def repeatCommand (i : Instr) : Nat → State → Host.Outcome State Fault Refusal
  | 0, s => .next s
  | n + 1, s =>
    match exec i s with
    | .next t => repeatCommand i n t
    | .fault f => .fault f
    | .refused r => .refused r

/-! ### Planes -/

/-- Byte `i` of the output of Step 1 over an intermediate buffer of `len` bytes: bit pair `i mod 4` of one byte of each
of the four sections, section 1 most significant, then UnpackValue (R91, R92). -/
def regroupedByte (buffer : Nat → Byte) (len i : Nat) : Byte :=
  let q := len / 4
  let j := i / 4
  let k := i % 4
  unpackValue ((buffer j).extractLsb' (2 * k) 2 ++ (buffer (q + j)).extractLsb' (2 * k) 2 ++
    (buffer (2 * q + j)).extractLsb' (2 * k) 2 ++ (buffer (3 * q + j)).extractLsb' (2 * k) 2)

/-- The inverse of UnpackValue (R170). -/
def packValue (v : Byte) : Byte := if v.toNat < 0x80 then v <<< 1 else ((v ^^^ 0xFF#8) <<< 1) ||| 1#8

/-- The forward filter of R182: horizontal differences on row 0, vertical differences on every later row. -/
def forwardFilter (depth : Nat) (plane : Nat → Nat → Byte) : Nat → Nat → Byte
  | 0, x => if x < depth then plane 0 x else plane 0 x - plane 0 (x - depth)
  | y + 1, x => plane (y + 1) x - plane y x

end Sys2Proof.Machine
end

