-- ==== Sys2Proof/Certificates/Slice0/Obligations.lean ====
section
/-! DEFINITION. The statements for the provers. Each docstring names the rule of spec/ it formalises. An expected state is
written as the state before with the fields that change: what is not named is unchanged. The fields inputs, observed, draws,
scratchEpoch, raced, unstable and latched are the model's own (log entries 4 to 8): what a statement says of them is the
model's choice, not a rule of the spec. -/

open Sys2Proof Sys2Proof.Machine

/-! ### The command word (spec/30_encoding.md) -/

/-- R81: the thirteen words. -/
def Obligations.OpcodeMapDecodes : Prop :=
  decodeWord 0x00000000#32 = .ok .nop ∧ decodeWord 0x00000001#32 = .ok .curInit ∧
  decodeWord 0x00000002#32 = .ok .getBit ∧ decodeWord 0x00000003#32 = .ok .getGamma ∧
  decodeWord 0x00000010#32 = .ok .unrle ∧ decodeWord 0x00000011#32 = .ok .scratchRead ∧
  decodeWord 0x00000020#32 = .ok .unpackValue ∧ decodeWord 0x00000021#32 = .ok .tableRead ∧
  decodeWord 0x00000022#32 = .ok .regroup ∧ decodeWord 0x00000023#32 = .ok .hdelta ∧
  decodeWord 0x00000024#32 = .ok .vdelta ∧ decodeWord 0x00000025#32 = .ok .undeltafilter ∧
  decodeWord 0x00000030#32 = .ok .decode

/-- R80, R81: every encoded command has RSV = 0 and decodes to itself. -/
def Obligations.EncodedCommandsDecode : Prop :=
  ∀ i : Instr, rsvField (encode i) = 0#24 ∧ decodeWord (encode i) = .ok i

/-- R82: the decoder accepts a word only as the one encoding of its command, and is total: every other word is illegal,
exactly where RSV is not 0 or OP is not listed. -/
def Obligations.DecodeAcceptsOnlyEncodings : Prop :=
  ∀ w : Word,
    (∀ i : Instr, decodeWord w = .ok i ↔ w = encode i) ∧
    ((∃ e, decodeWord w = .error e) ↔ legalCommandWord w = false) ∧
    (legalCommandWord w = false ↔ rsvField w ≠ 0#24 ∨ opField w ∉ definedOpcodes)

/-- R82: a word decodes to `command(OP)` where RSV = 0 and OP is in R81, and to no command elsewhere; the illegal words are
those with RSV ≠ 0 or OP in the listed ranges; an accepted illegal word completes with IllegalCommand and changes no other
state. -/
def Obligations.IllegalWordCompletes : Prop :=
  ∀ w : Word,
    (∀ i, decodeWord w = .ok i ↔ rsvField w = 0#24 ∧ opField w = opcode i) ∧
    ((∃ i, decodeWord w = .ok i) ↔ legalCommandWord w = true) ∧
    (legalCommandWord w = false ↔ rsvField w ≠ 0#24 ∨
      0x04 ≤ (opField w).toNat ∧ (opField w).toNat ≤ 0x0F ∨ 0x12 ≤ (opField w).toNat ∧ (opField w).toNat ≤ 0x1F ∨
      0x26 ≤ (opField w).toNat ∧ (opField w).toNat ≤ 0x2F ∨ 0x31 ≤ (opField w).toNat) ∧
    ∀ s : State, s.engineNext = true → s.pending = some w → legalCommandWord w = false →
      ∃ l, step s = .next { s with status := ⟨false, true, .illegalCommand⟩, pending := none, raced := [],
                                   unstable := l, inputs := s.inputs.tail } ∧
        ∀ b, b ∈ l ↔ b ∈ s.unstable ∨ b ∈ s.raced ∧ s.unfinished b

/-! ### Steps -/

/-- R237: at the Engine's turn the pending word is decoded and its command performed and completed; what the Host raced
with it is settled. With no race the step is the command's, and so it is if what the Host wrote meanwhile are bytes the command
neither reads nor writes and the cursor has not ahead of it, but for the emptied list. (When the Engine's turn comes is the
model's choice, log entry 4; how a race is settled, log entry 7.) -/
def Obligations.StepRunsDecodedCommand : Prop :=
  ∀ (s : State) (w : Word) (i : Instr), s.engineNext = true → s.pending = some w → decodeWord w = .ok i →
    (∀ t, exec i s.takeInput = .next t → step s = .next (settle i s.takeInput t)) ∧
    (∀ f, exec i s.takeInput = .fault f → step s = .fault f) ∧
    (s.raced = [] → step s = exec i s.takeInput) ∧
    (∀ t, exec i s.takeInput = .next t →
      (∀ a ∈ s.raced, touches i s.takeInput t a = false ∧ ¬ t.unfinished a) → step s = .next { t with raced := [] })

/-- R249: with no command pending the Engine's turn changes nothing (but takes the turn: the model's choice, log entry
4). -/
def Obligations.IdleEngineKeepsState : Prop :=
  ∀ s : State, s.engineNext = true → s.pending = none → step s = .next s.takeInput

/-- R71 item 3, R63, R212: at the completion of a command only the bytes of OUT it may write, UNRLE_LEN of them if it
writes OUT and succeeds, can take another value than it left there, and none does if the Host wrote no byte the command
may read or write. Of the bytes the Host wrote meanwhile those the cursor has not finished become unstable, if it may
be latched (R75). (The model's reading of R71 and R75, log entries 7 and 8.) -/
def Obligations.RaceSettlesAtCompletion : Prop :=
  ∀ (s t : State) (i : Instr), s.engineNext = true → s.pending = some (encode i) → exec i s.takeInput = .next t →
    ∃ u, step s = .next u ∧
      u = { t with mem := u.mem, draws := u.draws, raced := [], unstable := u.unstable } ∧
      (∀ b, b ∈ u.unstable ↔ b ∈ t.unstable ∨ b ∈ s.raced ∧ t.unfinished b) ∧
      sameOutside s.args.outAddr (outReach i s.takeInput).1 t u ∧
      (outReach i s.takeInput).1 = (if i ∈ [Instr.regroup, .hdelta, .vdelta, .undeltafilter, .decode] ∧
        t.status.code = .success then t.unrleLen.toNat else 0) ∧
      ((∀ a ∈ s.raced, touches i s.takeInput t a = false) → u.mem = t.mem)

/-! ### The Host's side (spec/10_state.md) -/

/-- R23: an accepted write to CMD; one while busy is ignored; a read gives the last accepted word. -/
def Obligations.CommandWriteAccepted : Prop :=
  ∀ (s : State) (w : Word) (rest : List Input), s.platform.wf = true →
    (s.status.busy = false → s.inputs = .store 4 (s.regAddr .cmd) w :: rest →
      step s = .next { s with cmd := w, status := ⟨true, false, .pending⟩, pending := some w, raced := [],
                              inputs := rest }) ∧
    (s.status.busy = true → s.inputs = .store 4 (s.regAddr .cmd) w :: rest →
      step s = .next { s with inputs := rest }) ∧
    (s.inputs = .load 4 (s.regAddr .cmd) :: rest →
      step s = .next { s with observed := s.observed ++ [s.cmd], inputs := rest })

/-- R24, R231: the fields of STATUS as read, CODE as the number R231 gives it, and a write to it: bit 1 clears DONE while
not busy, and nothing else. -/
def Obligations.StatusRegister : Prop :=
  ∀ (s : State) (w : Word) (rest : List Input), s.platform.wf = true →
    (s.inputs = .load 4 (s.regAddr .status) :: rest →
      ∃ v : Word, step s = .next { s with observed := s.observed ++ [v], inputs := rest } ∧
        v.getLsbD 0 = s.status.busy ∧ v.getLsbD 1 = s.status.done ∧ v.extractLsb' 2 6 = 0#6 ∧
        (s.status.code, v.extractLsb' 8 8) ∈
          [(Code.success, 0x00#8), (.dataBufferIsNull, 0x01#8), (.cmdBufferIsNull, 0x02#8), (.rgbaBufferIsNull, 0x03#8),
           (.dimensionsTooLarge, 0x04#8), (.invalidDimensions, 0x05#8), (.invalidDepthBytes, 0x06#8),
           (.corruptStream, 0x07#8), (.rgbaBufferTooSmall, 0x08#8), (.invalidUnrleLength, 0x09#8),
           (.allocationFailed, 0x0A#8), (.addressRange, 0x20#8), (.illegalCommand, 0x21#8), (.scratchInvalid, 0x22#8),
           (.operandRange, 0x23#8), (.pending, 0xFF#8)] ∧
        v.extractLsb' 16 16 = 0#16) ∧
    (s.inputs = .store 4 (s.regAddr .status) w :: rest → s.status.busy = false →
      step s = .next { s with status := ⟨false, s.status.done && !w.getLsbD 1, s.status.code⟩, inputs := rest }) ∧
    (s.inputs = .store 4 (s.regAddr .status) w :: rest → s.status.busy = true →
      step s = .next { s with inputs := rest })

/-- R45: while not busy a write to an RW register other than CMD stores all 32 bits, whatever they are, and changes
nothing else. -/
def Obligations.OperandRegistersStoreAllBits : Prop :=
  ∀ (s : State) (r : RegName) (w : Word) (rest : List Input), s.platform.wf = true → s.status.busy = false →
    r ∈ [RegName.operand, .dataAddr, .dataLen, .cmdAddr, .cmdLen, .outAddr, .outCap, .width, .height, .depth, .stride] →
    s.inputs = .store 4 (s.regAddr r) w :: rest →
    ∃ t, step s = .next t ∧ t = { s with args := t.args, inputs := rest } ∧ registerWord r t = w ∧
      ∀ q, q ≠ r → registerWord q t = registerWord q s

/-- R39: reserved offsets read as 0 and ignore writes, RO registers and the RO fields of STATUS ignore writes, and an
access that is not an aligned 32-bit access within the block is refused. -/
def Obligations.ReservedAndReadOnlyOffsets : Prop :=
  ∀ (s : State) (w : Word) (rest : List Input), s.platform.wf = true →
    (∀ k, k < 44 → s.inputs = .load 4 (addrAt s.platform.blockBase (0x50 + 4 * k)) :: rest →
      step s = .next { s with observed := s.observed ++ [0#32], inputs := rest }) ∧
    (∀ k, k < 44 → s.inputs = .store 4 (addrAt s.platform.blockBase (0x50 + 4 * k)) w :: rest →
      step s = .next { s with inputs := rest }) ∧
    (∀ r, r ∈ [RegName.result, .unrleLen, .dataPos, .curAddr, .curRem, .curState, .scrState] →
      s.inputs = .store 4 (s.regAddr r) w :: rest → step s = .next { s with inputs := rest }) ∧
    (s.inputs = .store 4 (s.regAddr .status) w :: rest →
      ∃ d : Bool, step s = .next { s with status := ⟨s.status.busy, d, s.status.code⟩, inputs := rest }) ∧
    (∀ (n : Nat) (a : Word), n ≠ 4 ∨ a.toNat % 4 ≠ 0 ∨ 256 ≤ (a - s.platform.blockBase).toNat →
      (s.inputs = .load n a :: rest → step s = .refused .unsupportedRegisterAccess) ∧
      (s.inputs = .store n a w :: rest → step s = .refused .unsupportedRegisterAccess))

/-- R44: while BUSY = 1 every write to any register of the block is ignored. -/
def Obligations.BusyWritesIgnored : Prop :=
  ∀ (s : State) (a w : Word) (rest : List Input), s.platform.wf = true → s.status.busy = true →
    a.toNat % 4 = 0 → (a - s.platform.blockBase).toNat < 256 → s.inputs = .store 4 a w :: rest →
    step s = .next { s with inputs := rest }

/-- R22, R24 to R37, R43: the offset of each register and the word it holds. A load returns that word, but while BUSY = 1 a
load of RESULT, UNRLE_LEN, DATA_POS, CUR_ADDR, CUR_REM, CUR_STATE or SCR_STATE returns some word that nothing fixes. No
load has another effect (R68). -/
def Obligations.RegisterLoads : Prop :=
  ∀ (s : State) (offset : Nat) (r : RegName) (w : Word), s.platform.wf = true →
    (offset, r, w) ∈
      [(0x00, RegName.cmd, s.cmd),
       (0x04, .status, 0#16 ++ codeNumber s.status.code ++ 0#6 ++ BitVec.ofBool s.status.done ++
         BitVec.ofBool s.status.busy),
       (0x08, .result, s.result), (0x0C, .operand, s.args.operand), (0x10, .dataAddr, s.args.dataAddr),
       (0x14, .dataLen, s.args.dataLen), (0x18, .cmdAddr, s.args.cmdAddr), (0x1C, .cmdLen, s.args.cmdLen),
       (0x20, .outAddr, s.args.outAddr), (0x24, .outCap, s.args.outCap), (0x28, .width, s.args.width),
       (0x2C, .height, s.args.height), (0x30, .depth, s.args.depth), (0x34, .stride, s.args.stride),
       (0x38, .unrleLen, s.unrleLen), (0x3C, .dataPos, s.dataPos), (0x40, .curAddr, s.cur.addr),
       (0x44, .curRem, s.cur.rem), (0x48, .curState, 0#23 ++ BitVec.ofBool s.cur.exh ++ 0#5 ++ s.cur.bit),
       (0x4C, .scrState, 0#31 ++ BitVec.ofBool s.scrValid)] →
    s.regAddr r = addrAt s.platform.blockBase offset ∧ registerWord r s = w ∧
    ∀ rest, s.inputs = .load 4 (addrAt s.platform.blockBase offset) :: rest →
      (s.status.busy = false ∨ offset ∉ [0x08, 0x38, 0x3C, 0x40, 0x44, 0x48, 0x4C] →
        step s = .next { s with observed := s.observed ++ [w], inputs := rest }) ∧
      (s.status.busy = true → offset ∈ [0x08, 0x38, 0x3C, 0x40, 0x44, 0x48, 0x4C] →
        ∃ v : Word, step s = .next { s with observed := s.observed ++ [v], draws := s.draws + 1, inputs := rest })

/-- R94, R95: WAIT is a load loop on STATUS: one load while not busy; while busy the loop goes on. That the Engine has its
turn between two loads is the model's choice (log entry 4). -/
def Obligations.WaitPollsStatus : Prop :=
  ∀ (s : State) (rest : List Input), s.inputs = .poll :: rest →
    (s.status.busy = false →
      step s = .next { s with observed := s.observed ++ [statusWord s.status], inputs := rest }) ∧
    (s.status.busy = true →
      step s = .next { s with observed := s.observed ++ [statusWord s.status],
                              inputs := .engine :: .poll :: rest })

/-- R94, R95, R22, R81: a host program encodes as its bus operations in program order, each register at its offset and each
command as its word; WAIT's load loop is the model's input poll (log entry 4). -/
def Obligations.HostProgramEncoding : Prop :=
  ∀ (base v : Word) (p q : List HostInstr),
    encodeProgram base (p ++ q) = encodeProgram base p ++ encodeProgram base q ∧
    (∀ (r : RegName) (offset : Word), (r, offset) ∈
        [(RegName.cmd, 0x00#32), (.status, 0x04#32), (.result, 0x08#32), (.operand, 0x0C#32), (.dataAddr, 0x10#32),
         (.dataLen, 0x14#32), (.cmdAddr, 0x18#32), (.cmdLen, 0x1C#32), (.outAddr, 0x20#32), (.outCap, 0x24#32),
         (.width, 0x28#32), (.height, 0x2C#32), (.depth, 0x30#32), (.stride, 0x34#32), (.unrleLen, 0x38#32),
         (.dataPos, 0x3C#32), (.curAddr, 0x40#32), (.curRem, 0x44#32), (.curState, 0x48#32), (.scrState, 0x4C#32)] →
      encodeProgram base [.wr r v] = [.store 4 (base + offset) v] ∧
      encodeProgram base [.rd r] = [.load 4 (base + offset)]) ∧
    (∀ (i : Instr) (w : Word), (i, w) ∈
        [(Instr.nop, 0x00#32), (.curInit, 0x01#32), (.getBit, 0x02#32), (.getGamma, 0x03#32), (.unrle, 0x10#32),
         (.scratchRead, 0x11#32), (.unpackValue, 0x20#32), (.tableRead, 0x21#32), (.regroup, 0x22#32),
         (.hdelta, 0x23#32), (.vdelta, 0x24#32), (.undeltafilter, 0x25#32), (.decode, 0x30#32)] →
      encodeProgram base [.cmd i] = [.store 4 (base + 0x00#32) w]) ∧
    encodeProgram base [.clr] = [.store 4 (base + 0x04#32) 0x00000002#32] ∧
    encodeProgram base [.wait] = [.poll]

/-- R71, R75: a byte the Host stores to backed memory outside the block reads back, and every other byte is as before; while
not busy no race is noted, and the byte becomes unstable exactly if the cursor has not finished it and may be latched.
(That the Host accesses single bytes, and which bytes become unstable for the cursor, are the model's choices, log
entries 8 and 12.) -/
def Obligations.HostByteStoreThenLoad : Prop :=
  ∀ (s : State) (a : Word) (v : Byte) (rest : List Input), Memory.wf s.mem = true → s.status.busy = false →
    backs s.platform a.toNat = true → 256 ≤ (a - s.platform.blockBase).toNat →
    s.inputs = .memStore a v :: .memLoad a :: rest →
    ∃ t u, step s = .next t ∧ step t = .next u ∧ u.observed = s.observed ++ [v.zeroExtend 32] ∧ u.inputs = rest ∧
      u.byteAt a = v ∧ (∀ b, b ≠ a → u.byteAt b = s.byteAt b) ∧
      u = { s with mem := u.mem, unstable := u.unstable, inputs := u.inputs, observed := u.observed } ∧
      ∀ b, b ∈ u.unstable ↔ b ∈ s.unstable ∨ b = a.toNat ∧ s.unfinished b

/-- R71 item 3: Host byte accesses while BUSY = 1. A store writes the byte and is noted as a race; a load of a byte outside
what the pending command may write returns it, and a load of a byte the command may write returns some byte that nothing
fixes. (The list of raced bytes and the counter of free values are the model's own, log entries 6 and 7; what becomes of
the cursor's bytes is settled at completion, log entry 8; single bytes: log entry 12.) -/
def Obligations.HostByteAccessWhileBusy : Prop :=
  ∀ (s : State) (a : Word) (rest : List Input), s.status.busy = true → backs s.platform a.toNat = true →
    256 ≤ (a - s.platform.blockBase).toNat →
    (∀ v : Byte, Memory.wf s.mem = true → s.inputs = .memStore a v :: rest →
      ∃ t, step s = .next t ∧ t = { s with mem := t.mem, raced := t.raced, inputs := rest } ∧
        t.byteAt a = v ∧ (∀ b, b ≠ a → t.byteAt b = s.byteAt b) ∧
        ∀ b, b ∈ t.raced ↔ b = a.toNat ∨ b ∈ s.raced) ∧
    (s.inputs = .memLoad a :: rest →
      ((∀ i, s.pending = some (encode i) → ∀ k < (outReach i s.takeInput).1, a ≠ addrAt s.args.outAddr k) →
        step s = .next { s with observed := s.observed ++ [(s.byteAt a).zeroExtend 32], inputs := rest }) ∧
      (∀ i k, s.pending = some (encode i) → k < (outReach i s.takeInput).1 → a = addrAt s.args.outAddr k →
        ∃ v : Byte, step s = .next { s with
          observed := s.observed ++ [v.zeroExtend 32], draws := s.draws + 1, inputs := rest }))

/-- R39, R68 and R9: a Host byte access to the register block is refused, and one outside HOST_MEMORY has no step (that it
is a fault of its own is the model's choice, log entry 12). -/
def Obligations.HostByteAccessStops : Prop :=
  ∀ (s : State) (a : Word) (v : Byte) (rest : List Input),
    s.inputs = .memLoad a :: rest ∨ s.inputs = .memStore a v :: rest →
    ((a - s.platform.blockBase).toNat < 256 → step s = .refused .unsupportedRegisterAccess) ∧
    (256 ≤ (a - s.platform.blockBase).toNat → backs s.platform a.toNat = false →
      step s = .fault .hostOutsideHostMemory)

/-! ### Reset (spec/70_reset_and_hazards.md) -/

/-- R47, R260: the reset event leaves every register 0, no command pending and Scratch any value; host memory is not
changed unless a busy command is discarded. (Scratch with no determined byte, `scratch = []`, is the model's form of "any
value", log entry 5; that the platform, the inputs and what was observed stay is the model's choice, log entry 10.) -/
def Obligations.ResetClearsInstance : Prop :=
  (∀ r, registerWord r State.reset = 0#32) ∧ State.reset.pending = none ∧ State.reset.scratch = [] ∧
  ∀ (s : State) (rest : List Input), s.inputs = .reset :: rest →
    ∃ t, step s = .next t ∧ (∀ r, registerWord r t = 0#32) ∧ t.pending = none ∧ t.scratch = [] ∧
      (s.status.busy = false → t.mem = s.mem) ∧ t.platform = s.platform ∧ t.inputs = rest ∧ t.observed = s.observed

/-- R261, R82: a reset while busy discards the pending command, and only a byte of OUT that command could write can change;
an illegal word could write none. (How "any value" is drawn is the model's choice, log entry 9.) -/
def Obligations.BusyResetDiscardsCommand : Prop :=
  ∀ (s : State) (rest : List Input), s.inputs = .reset :: rest → s.status.busy = true →
    ∃ t, step s = .next t ∧ t.pending = none ∧ statusWord t.status = 0#32 ∧
      (∀ i, s.pending = some (encode i) → sameOutside s.args.outAddr (outReach i s.takeInput).1 s t) ∧
      (∀ w, s.pending = some w → legalCommandWord w = false → t.mem = s.mem)

/-! ### Invariants -/

/-- The state after reset has the invariant. -/
def Obligations.ResetHasInvariant : Prop := State.reset.Inv

/-- R36, R37, R38, R23, R24, R238: every step keeps the invariant: BUSY, CODE and the pending command agree, the cursor's
fields agree, VALID tells a whole buffer. That host memory keeps its form and that no race is noted while idle are of the
model's own fields (log entries 1 and 7). -/
def Obligations.StepKeepsInvariant : Prop := ∀ s t : State, s.Inv → step s = .next t → t.Inv

/-- R9: no step changes the platform's parameters (held as data of the state: the model's choice, log entry 2). -/
def Obligations.StepKeepsPlatform : Prop := ∀ s t : State, step s = .next t → t.platform = s.platform

/-- R26 to R30: only the Host writes the operand registers, and CMD: a command leaves them, and everything that is not
the instance's, as they were. -/
def Obligations.CommandsKeepHostRegisters : Prop :=
  ∀ (i : Instr) (s t : State), exec i s = .next t →
    t.args = s.args ∧ t.cmd = s.cmd ∧ t.platform = s.platform ∧ t.inputs = s.inputs ∧ t.observed = s.observed ∧
      t.raced = s.raced

/-! ### Completion and failure (spec/60_exceptions.md) -/

/-- R231, R235, R238: a command that completes leaves BUSY = 0, DONE = 1, one of its own codes, and none pending. -/
def Obligations.CommandsCompleteWithTheirCodes : Prop :=
  ∀ (i : Instr) (s t : State), exec i s = .next t →
    t.pending = none ∧ t.status.busy = false ∧ t.status.done = true ∧ t.status.code ∈ codesOf i

/-- R25: RESULT is written by five commands only, and only when they complete with Success. -/
def Obligations.ResultWrittenOnSuccessOnly : Prop :=
  ∀ (i : Instr) (s t : State), exec i s = .next t →
    (i ∉ [Instr.getBit, .getGamma, .unpackValue, .tableRead, .scratchRead] → t.result = s.result) ∧
    (t.status.code ≠ .success → t.result = s.result)

/-- R145, R177 to R180, R212: a command that fails has written no host byte. -/
def Obligations.FailureWritesNoHostByte : Prop :=
  ∀ (i : Instr) (s t : State), exec i s = .next t → t.status.code ≠ .success → t.mem = s.mem

/-- R63, R183: no command writes a host byte outside `[OUT_ADDR, OUT_ADDR + UNRLE_LEN)`, and eight write none. -/
def Obligations.HostBytesWrittenAreOut : Prop :=
  ∀ (i : Instr) (s t : State), exec i s = .next t →
    sameOutside s.args.outAddr t.unrleLen.toNat s t ∧
    (i ∉ [Instr.regroup, .hdelta, .vdelta, .undeltafilter, .decode] → t.mem = s.mem)

/-- R237, R63: a command whose regions are backed completes, whatever the registers, the bytes and the races are. -/
def Obligations.BackedCommandsComplete : Prop :=
  ∀ (i : Instr) (s : State), regionsBacked i s → ∃ t, exec i s = .next t

/-- R61: what stops a command is an access outside HOST_MEMORY and nothing else; no command is refused. (That "no step" is a
fault is the model's choice, log entry 3.) -/
def Obligations.OnlyUnbackedAccessesStop : Prop :=
  ∀ (i : Instr) (s : State),
    (∀ r, exec i s ≠ .refused r) ∧
    (∀ f, exec i s = .fault f → f = .engineOutsideHostMemory ∧ ¬ regionsBacked i s)

/-- R61: a command that reaches an address outside HOST_MEMORY has no step: GET_BIT and GET_GAMMA whose first byte, UNRLE and
DECODE whose first command byte, UNRLE one of whose copy runs reaches a data byte, REGROUP and UNDELTAFILTER and DECODE
one of whose bytes of OUT below L, HDELTA and VDELTA one of whose updated or added bytes is not backed. (That "no step"
is a fault is the model's choice, log entry 3.) -/
def Obligations.UnbackedAccessHasNoStep : Prop :=
  ∀ s : State,
    (s.cur.rem ≠ 0#32 → backs s.platform s.cur.addr.toNat = false →
      exec .getBit s = .fault .engineOutsideHostMemory ∧ exec .getGamma s = .fault .engineOutsideHostMemory) ∧
    (unrleAllowed s → s.args.cmdLen ≠ 0#32 → backs s.platform s.args.cmdAddr.toNat = false →
      exec .unrle s = .fault .engineOutsideHostMemory ∧
      (decodeAllowed s → exec .decode s = .fault .engineOutsideHostMemory)) ∧
    (∀ (flag : Bool) (total : Nat) (runs : List Nat) (r : Nat), unrleAllowed s → cmdReady s →
      dataReady s (copiedLength flag runs) → (∀ q ∈ runs, 0 < q) → 0 < r → runs.sum + r ≤ total → total < 0xFFFFFFFF →
      total ≤ s.platform.unrleCap → copiedLength flag runs + r ≤ s.args.dataLen.toNat →
      s.commandBits (commandStream flag total (runs ++ [r])) → flagAfter flag runs = true →
      (∃ i < r, backs s.platform (addrAt s.args.dataAddr (copiedLength flag runs + i)).toNat = false) →
      exec .unrle s = .fault .engineOutsideHostMemory) ∧
    (outputAllowed s → ¬ outBacked s →
      exec .regroup s = .fault .engineOutsideHostMemory ∧ exec .undeltafilter s = .fault .engineOutsideHostMemory) ∧
    (outputAllowed s →
      (∃ x, s.args.depth.toNat ≤ x ∧ x < min s.args.stride.toNat s.unrleLen.toNat ∧
        (backs s.platform (addrAt s.args.outAddr x).toNat = false ∨
          backs s.platform (addrAt s.args.outAddr (x - s.args.depth.toNat)).toNat = false)) →
      exec .hdelta s = .fault .engineOutsideHostMemory) ∧
    (outputAllowed s →
      (∃ x, s.args.stride.toNat ≤ x ∧ x < min (s.args.height.toNat * s.args.stride.toNat) s.unrleLen.toNat ∧
        (backs s.platform (addrAt s.args.outAddr x).toNat = false ∨
          backs s.platform (addrAt s.args.outAddr (x - s.args.stride.toNat)).toNat = false)) →
      exec .vdelta s = .fault .engineOutsideHostMemory) ∧
    (∀ u, decodeAllowed s → exec .unrle s = .next u → u.status.code = .success → outputAllowed u → ¬ outBacked u →
      exec .decode s = .fault .engineOutsideHostMemory)

/-! ### BitReader and Elias-gamma decoder (spec/40_bitreader.md) -/

/-- R112: NOP completes with Success and changes nothing else. -/
def Obligations.NopCompletes : Prop :=
  encode .nop = 0x00000000#32 ∧
  ∀ s : State, exec .nop s = .next { s with status := ⟨false, true, .success⟩, pending := none }

/-- R113: CUR_INIT. -/
def Obligations.CurInitStartsCursor : Prop :=
  encode .curInit = 0x00000001#32 ∧
  ∀ s : State,
    (s.args.cmdAddr = 0#32 →
      exec .curInit s = .next { s with
        latched := true, status := ⟨false, true, .cmdBufferIsNull⟩, pending := none }) ∧
    (s.args.cmdAddr ≠ 0#32 → 4294967296 < s.args.cmdAddr.toNat + s.args.cmdLen.toNat →
      exec .curInit s = .next { s with
        latched := true, status := ⟨false, true, .addressRange⟩, pending := none }) ∧
    (s.args.cmdAddr ≠ 0#32 → s.args.cmdAddr.toNat + s.args.cmdLen.toNat ≤ 4294967296 →
      exec .curInit s = .next { s with
        cur := ⟨s.args.cmdAddr, s.args.cmdLen, 0#3, false⟩, unstable := [], latched := true,
        status := ⟨false, true, .success⟩, pending := none })

/-- R110, R114: GET_BIT: the terminal 1 of an empty cursor; else the bit at the cursor, which moves on one bit; and some
bit where the Host wrote that byte when it must not (R71 item 3, R75). -/
def Obligations.GetBitReadsCursor : Prop :=
  encode .getBit = 0x00000002#32 ∧
  ∀ s : State,
    (s.cur.rem = 0#32 →
      exec .getBit s = .next { s with
        result := 1#32, cur := { s.cur with exh := true }, latched := true, status := ⟨false, true, .success⟩,
        pending := none }) ∧
    (s.cur.rem ≠ 0#32 → backs s.platform s.cur.addr.toNat = true →
      ∃ (b : Bool) (d : Nat), exec .getBit s = .next { s with
          result := if b then 1#32 else 0#32
          cur := if s.cur.bit = 7#3 then ⟨s.cur.addr + 1#32, s.cur.rem - 1#32, 0#3, s.cur.exh⟩
                 else { s.cur with bit := s.cur.bit + 1#3 }
          latched := true, draws := d, status := ⟨false, true, .success⟩, pending := none } ∧
        (s.cur.addr.toNat ∉ s.raced ++ s.unstable →
          d = s.draws ∧ b = (s.byteAt s.cur.addr).getLsbD s.cur.bit.toNat))

/-- R116 (a): a cursor over N bytes delivers its 8N bits in order with EXH = 0, and then 1 with EXH = 1 on every later
call. -/
def Obligations.CursorDeliversRegion : Prop :=
  ∀ (s : State) (n : Nat), cursorReady s → s.cur.bit = 0#3 → s.cur.exh = false →
    ∃ t, repeatCommand .getBit (n + 1) s = .next t ∧
      (n < 8 * s.cur.rem.toNat →
        t.result = (if s.streamBit n then 1#32 else 0#32) ∧ t.cur = cursorAfter s.cur (n + 1)) ∧
      (8 * s.cur.rem.toNat ≤ n →
        t.result = 1#32 ∧ t.cur = { cursorAfter s.cur (8 * s.cur.rem.toNat) with exh := true })

/-- R117: the code of every v from 1 to 0xFFFFFFFE, all of it ahead of the cursor, decodes to v, and the cursor then
stands 2d + 1 bits further on; the code of 0xFFFFFFFF gives that word too. -/
def Obligations.GammaCodeRoundTrip : Prop :=
  ∀ (s : State) (v : Nat), 1 ≤ v → v ≤ 0xFFFFFFFF → cursorReady s → s.cur.exh = false → s.bitsAhead (gammaCode v) →
    exec .getGamma s = .next { s with
      result := BitVec.ofNat 32 v, cur := cursorAfter s.cur (2 * Nat.log2 v + 1), latched := true,
      status := ⟨false, true, .success⟩, pending := none }

/-- R116 (c): a region that ends before the last bit of a code gives INVALID, with EXH = 1 and CUR_REM = 0, the cursor at
the region's end. -/
def Obligations.TruncatedCodeIsInvalid : Prop :=
  ∀ (s : State) (v : Nat), 1 ≤ v → cursorReady s → bitsLeft s.cur < (gammaCode v).length →
    s.bitsAhead ((gammaCode v).take (bitsLeft s.cur)) →
    exec .getGamma s = .next { s with
      result := 0xFFFFFFFF#32, cur := ⟨addrAt s.cur.addr s.cur.rem.toNat, 0#32, 0#3, true⟩, latched := true,
      status := ⟨false, true, .success⟩, pending := none }

/-- R86, R111 (b), R118: a prefix of 32 or more zeros gives INVALID, and the whole code is still consumed. -/
def Obligations.LongPrefixIsInvalid : Prop :=
  ∀ (s : State) (bits : List Bool), 32 ≤ bits.length → cursorReady s →
    s.bitsAhead (List.replicate bits.length false ++ true :: bits) →
    exec .getGamma s = .next { s with
      result := 0xFFFFFFFF#32, cur := cursorAfter s.cur (2 * bits.length + 1), latched := true,
      status := ⟨false, true, .success⟩, pending := none }

/-- R115, R233: GET_GAMMA completes with Success on every stream; it moves the cursor only, and the result is INVALID
whenever the cursor is exhausted at the end, and never 0. -/
def Obligations.GetGammaCompletes : Prop :=
  ∀ s : State, cursorBacked s →
    ∃ (w : Word) (c : Cursor) (d : Nat), exec .getGamma s = .next { s with
        result := w, cur := c, latched := true, draws := d, status := ⟨false, true, .success⟩, pending := none } ∧
      (c.exh = true → w = 0xFFFFFFFF#32) ∧ w ≠ 0#32

/-! ### RunLengthExpander (spec/41_unrle.md) -/

/-- R141: the checks UNRLE makes before UnrleCore, in their order; a failure changes no register but STATUS. -/
def Obligations.UnrleChecksInOrder : Prop :=
  ∀ s : State, ¬ unrleAllowed s →
    exec .unrle s = .next { s with pending := none, status := ⟨false, true,
      if s.args.dataAddr = 0#32 then .dataBufferIsNull
      else if s.args.cmdAddr = 0#32 then .cmdBufferIsNull else .addressRange⟩ }

/-- R84, R140, R144: UNRLE on a stream whose runs sum to its total builds the buffer R144 describes; DATA_POS is the sum
of the copy runs, and the cursor stands after the last run. -/
def Obligations.UnrleExpandsStream : Prop :=
  ∀ (s : State) (flag : Bool) (runs : List Nat), unrleAllowed s → cmdReady s →
    dataReady s (copiedLength flag runs) → (∀ r ∈ runs, 0 < r) → 0 < runs.sum → runs.sum < 0xFFFFFFFF →
    runs.sum ≤ s.platform.unrleCap → copiedLength flag runs ≤ s.args.dataLen.toNat → s.commandBits (commandStream flag runs.sum runs) →
    exec .unrle s = .next { s with
      unrleLen := BitVec.ofNat 32 runs.sum, dataPos := BitVec.ofNat 32 (copiedLength flag runs),
      cur := cursorAfter ⟨s.args.cmdAddr, s.args.cmdLen, 0#3, false⟩ (commandStream flag runs.sum runs).length,
      unstable := [], latched := false, scratch := expansion s.dataByte flag 0 runs, scrValid := true,
      scratchEpoch := s.scratchEpoch + 1, status := ⟨false, true, .success⟩, pending := none }

/-- R143, R232: runs that pass the total are CorruptStream at the run that would overshoot, copy or zero-fill; a copy run
longer than the data that remains is CorruptStream too. No intermediate buffer is left, UNRLE_LEN and DATA_POS are what
had been reached. -/
def Obligations.BadRunIsCorruptStream : Prop :=
  ∀ (s : State) (flag : Bool) (total : Nat) (runs : List Nat) (r : Nat), unrleAllowed s → cmdReady s →
    dataReady s (copiedLength flag runs) → (∀ q ∈ runs, 0 < q) → runs.sum < total → total < 0xFFFFFFFF →
    total ≤ s.platform.unrleCap → 0 < r → r < 0xFFFFFFFF → copiedLength flag runs ≤ s.args.dataLen.toNat →
    s.commandBits (commandStream flag total (runs ++ [r])) →
    (total < runs.sum + r ∨
      flagAfter flag runs = true ∧ s.args.dataLen.toNat < copiedLength flag runs + r) →
    exec .unrle s = .next { s with
      unrleLen := BitVec.ofNat 32 total, dataPos := BitVec.ofNat 32 (copiedLength flag runs),
      cur := cursorAfter ⟨s.args.cmdAddr, s.args.cmdLen, 0#3, false⟩ (commandStream flag total (runs ++ [r])).length,
      unstable := [], latched := false, scratch := [], scrValid := false, scratchEpoch := s.scratchEpoch + 1,
      status := ⟨false, true, .corruptStream⟩, pending := none }

/-- R140, R141, R232, R86, R111: a total or a run that is INVALID is CorruptStream: the code of 0xFFFFFFFF, a prefix of 32 or
more zeros, or a code the command region ends before, an empty region among them. With an INVALID total UNRLE_LEN is 0; with
an INVALID run UNRLE_LEN is the total and DATA_POS what the runs before it had copied. No intermediate buffer is left. -/
def Obligations.InvalidCodeIsCorruptStream : Prop :=
  ∀ (s : State) (flag : Bool) (c : Cursor), unrleAllowed s → cmdReady s →
    (s.invalidAfter [flag] c →
      exec .unrle s = .next { s with
        unrleLen := 0#32, dataPos := 0#32, cur := c, unstable := [], latched := false, scratch := [], scrValid := false,
        scratchEpoch := s.scratchEpoch + 1, status := ⟨false, true, .corruptStream⟩, pending := none }) ∧
    ∀ (total : Nat) (runs : List Nat), dataReady s (copiedLength flag runs) → (∀ q ∈ runs, 0 < q) →
      runs.sum < total → total < 0xFFFFFFFF → total ≤ s.platform.unrleCap →
      copiedLength flag runs ≤ s.args.dataLen.toNat →
      (commandStream flag total runs).length ≤ 8 * s.args.cmdLen.toNat →
      s.invalidAfter (commandStream flag total runs) c →
      exec .unrle s = .next { s with
        unrleLen := BitVec.ofNat 32 total, dataPos := BitVec.ofNat 32 (copiedLength flag runs), cur := c,
        unstable := [], latched := false, scratch := [], scrValid := false, scratchEpoch := s.scratchEpoch + 1,
        status := ⟨false, true, .corruptStream⟩, pending := none }

/-- R140, R250: a total above UNRLE_CAP is AllocationFailed; UNRLE_LEN holds the total and the runs are not read. -/
def Obligations.TotalAboveCapacityFails : Prop :=
  ∀ (s : State) (flag : Bool) (total : Nat), unrleAllowed s → cmdReady s →
    s.platform.unrleCap < total → total < 0xFFFFFFFF → s.commandBits (flag :: gammaCode total) →
    exec .unrle s = .next { s with
      unrleLen := BitVec.ofNat 32 total, dataPos := 0#32,
      cur := cursorAfter ⟨s.args.cmdAddr, s.args.cmdLen, 0#3, false⟩ (1 + (gammaCode total).length),
      unstable := [], latched := false, scratch := [], scrValid := false, scratchEpoch := s.scratchEpoch + 1,
      status := ⟨false, true, .allocationFailed⟩, pending := none }

/-- R140, R141, R143, R145: on every stream UNRLE completes; with Success it leaves a whole intermediate buffer that fits,
with CorruptStream or AllocationFailed none; it changes no host byte and no other register. -/
def Obligations.UnrleLeavesWholeBufferOrNone : Prop :=
  ∀ s : State, unrleAllowed s → cmdBacked s → dataBacked s →
    ∃ t, exec .unrle s = .next t ∧ t.mem = s.mem ∧ t.result = s.result ∧ t.args = s.args ∧
      ((t.status.code = .success ∧ t.scrValid = true ∧ t.scratch.length = t.unrleLen.toNat ∧ 0 < t.unrleLen.toNat ∧
          t.unrleLen.toNat ≤ s.platform.unrleCap ∧ t.dataPos.toNat ≤ s.args.dataLen.toNat) ∨
        ((t.status.code = .corruptStream ∨ t.status.code = .allocationFailed) ∧ t.scrValid = false ∧ t.scratch = []))

/-- R142: SCRATCH_READ. -/
def Obligations.ScratchReadReturnsByte : Prop :=
  encode .scratchRead = 0x00000011#32 ∧
  ∀ s : State,
    (s.scrValid = false →
      exec .scratchRead s = .next { s with status := ⟨false, true, .scratchInvalid⟩, pending := none }) ∧
    (s.scrValid = true → s.unrleLen.toNat ≤ s.args.operand.toNat →
      exec .scratchRead s = .next { s with status := ⟨false, true, .operandRange⟩, pending := none }) ∧
    (∀ b : Byte, s.scrValid = true → s.args.operand.toNat < s.unrleLen.toNat →
      s.scratch[s.args.operand.toNat]? = some b →
      exec .scratchRead s = .next { s with
        result := b.zeroExtend 32, status := ⟨false, true, .success⟩, pending := none })

/-! ### PlaneDeinterleaver (spec/42_deinterleave.md) -/

/-- R175, R170: UNPACK_VALUE: an even c gives c / 2, an odd c gives 0xFF − (c − 1) / 2; OPERAND[31:8] is ignored. -/
def Obligations.UnpackValueResult : Prop :=
  encode .unpackValue = 0x00000020#32 ∧
  ∀ s : State, exec .unpackValue s = .next { s with
    result := BitVec.ofNat 32 (if s.args.operand.toNat % 2 = 0 then s.args.operand.toNat % 256 / 2
                               else 0xFF - (s.args.operand.toNat % 256 - 1) / 2)
    status := ⟨false, true, .success⟩, pending := none }

/-- R170, R182 (a): UnpackValue by its low bit and as a number, and Pack, its inverse. -/
def Obligations.UnpackPackInverse : Prop :=
  ∀ c : Byte,
    unpackValue c = (if c.getLsbD 0 then (c >>> 1) ^^^ 0xFF#8 else c >>> 1) ∧
    (unpackValue c).toNat = (if c.toNat % 2 = 0 then c.toNat / 2 else 0xFF - (c.toNat - 1) / 2) ∧
    packValue c = (if c.toNat < 0x80 then c <<< 1 else ((c ^^^ 0xFF#8) <<< 1) ||| 1#8) ∧
    packValue (unpackValue c) = c ∧ unpackValue (packValue c) = c

/-- R176, R40: TABLE_READ: byte k of the word holds bit pair k of the index, shifted up by 6, 4, 2 or 0 for T1 to T4;
OPERAND[31:10] is ignored. -/
def Obligations.TableReadResult : Prop :=
  encode .tableRead = 0x00000021#32 ∧
  ∀ s : State, ∃ w : Word, exec .tableRead s = .next { s with
      result := w, status := ⟨false, true, .success⟩, pending := none } ∧
    ∀ k, k < 4 → (w.extractLsb' (8 * k) 8).toNat =
      ((s.args.operand.extractLsb' 0 8).extractLsb' (2 * k) 2).toNat *
        2 ^ (6 - 2 * (s.args.operand.extractLsb' 8 2).toNat)

/-- R174, R177 to R180: the checks of REGROUP, HDELTA, VDELTA and UNDELTAFILTER, in their order; a failure changes STATUS
only. -/
def Obligations.OutputChecksInOrder : Prop :=
  ∀ (s : State) (i : Instr), i ∈ [Instr.regroup, .hdelta, .vdelta, .undeltafilter] → ¬ outputAllowed s →
    exec i s = .next { s with pending := none, status := ⟨false, true,
      if s.args.outAddr = 0#32 then .rgbaBufferIsNull
      else if Config.maxRgbaLength < s.args.outCap.toNat then .dimensionsTooLarge
      else if s.args.width = 0#32 ∨ s.args.height = 0#32 then .invalidDimensions
      else if s.args.depth.toNat < 1 ∨ 4 < s.args.depth.toNat then .invalidDepthBytes
      else if 4294967296 < s.args.outAddr.toNat + s.args.outCap.toNat then .addressRange
      else if s.scrValid = false then .scratchInvalid
      else if s.args.outCap.toNat < s.unrleLen.toNat then .rgbaBufferTooSmall else .invalidUnrleLength⟩ }

/-- R171, R177, R92, R91: REGROUP writes every byte of OUT below L from bit pairs of the four sections, and no other host
byte. -/
def Obligations.RegroupResult : Prop :=
  ∀ s : State, outputAllowed s → outReady s →
    ∃ t, exec .regroup s = .next t ∧
      t = { s with mem := t.mem, status := ⟨false, true, .success⟩, pending := none } ∧
      (∀ i, i < s.unrleLen.toNat → t.outByte i = regroupedByte (scratchAt s) s.unrleLen.toNat i) ∧
      sameOutside s.args.outAddr s.unrleLen.toNat s t

/-- R172, R178: HDELTA adds to each byte of row 0 the already reconstructed byte one pixel to its left, below L only; no
other host byte changes. -/
def Obligations.HdeltaResult : Prop :=
  ∀ s : State, outputAllowed s → outReady s →
    ∃ t, exec .hdelta s = .next t ∧
      t = { s with mem := t.mem, status := ⟨false, true, .success⟩, pending := none } ∧
      (∀ x, s.args.depth.toNat ≤ x → x < min s.args.stride.toNat s.unrleLen.toNat →
        t.outByte x = s.outByte x + t.outByte (x - s.args.depth.toNat)) ∧
      ∀ a : Word, (∀ x, s.args.depth.toNat ≤ x → x < min s.args.stride.toNat s.unrleLen.toNat →
        a ≠ addrAt s.args.outAddr x) → t.byteAt a = s.byteAt a

/-- R173, R179: VDELTA adds to each byte from the second row on the already reconstructed byte above it, below L only; no
other host byte changes. -/
def Obligations.VdeltaResult : Prop :=
  ∀ s : State, outputAllowed s → outReady s →
    ∃ t, exec .vdelta s = .next t ∧
      t = { s with mem := t.mem, status := ⟨false, true, .success⟩, pending := none } ∧
      (∀ i, s.args.stride.toNat ≤ i → i < min (s.args.height.toNat * s.args.stride.toNat) s.unrleLen.toNat →
        t.outByte i = s.outByte i + t.outByte (i - s.args.stride.toNat)) ∧
      ∀ a : Word, (∀ i, s.args.stride.toNat ≤ i →
        i < min (s.args.height.toNat * s.args.stride.toNat) s.unrleLen.toNat →
        a ≠ addrAt s.args.outAddr i) → t.byteAt a = s.byteAt a

/-- R180: UNDELTAFILTER completes, and its state is that of REGROUP, then HDELTA, then VDELTA; only OUT below L changes. -/
def Obligations.UndeltafilterIsThreeCommands : Prop :=
  ∀ s : State, outputAllowed s → outBacked s →
    ∃ a b t, exec .regroup s = .next a ∧ exec .hdelta a = .next b ∧ exec .vdelta b = .next t ∧
      exec .undeltafilter s = .next t ∧
      t = { s with mem := t.mem, draws := t.draws, status := ⟨false, true, .success⟩, pending := none } ∧
      sameOutside s.args.outAddr s.unrleLen.toNat s t

/-- R251: the bytes UNDELTAFILTER leaves in OUT below L do not depend on what host memory held before. -/
def Obligations.OutputNeedsNoZeroing : Prop :=
  ∀ (s : State) (m : Memory), outputAllowed s → outReady s → Memory.wf m = true →
    ∃ t u, exec .undeltafilter s = .next t ∧ exec .undeltafilter { s with mem := m } = .next u ∧
      ∀ i, i < s.unrleLen.toNat → u.outByte i = t.outByte i

/-- R182 (b): on the forward-filtered plane, HDELTA followed by VDELTA gives the plane back. -/
def Obligations.DeltaUndoInvertsForwardFilter : Prop :=
  ∀ (s : State) (plane : Nat → Nat → Byte), outputAllowed s → outReady s →
    s.args.height.toNat * s.args.stride.toNat ≤ s.unrleLen.toNat →
    (∀ y x, y < s.args.height.toNat → x < s.args.stride.toNat →
      s.outByte (y * s.args.stride.toNat + x) = forwardFilter s.args.depth.toNat plane y x) →
    ∃ a t, exec .hdelta s = .next a ∧ exec .vdelta a = .next t ∧
      (∀ y x, y < s.args.height.toNat → x < s.args.stride.toNat →
        t.outByte (y * s.args.stride.toNat + x) = plane y x) ∧
      sameOutside s.args.outAddr (s.args.height.toNat * s.args.stride.toNat) s t

/-! ### ImageDecoder (spec/43_decode.md) -/

/-- R210: DECODE's validation, in the source's order and then the ranges; a failure changes STATUS and releases Scratch. -/
def Obligations.DecodeValidationOrder : Prop :=
  ∀ s : State, ¬ decodeAllowed s →
    exec .decode s = .next { s with
      pending := none, scrValid := false, scratch := [], scratchEpoch := s.scratchEpoch + 1, status := ⟨false, true,
      if s.args.dataAddr = 0#32 then .dataBufferIsNull
      else if s.args.cmdAddr = 0#32 then .cmdBufferIsNull
      else if s.args.outAddr = 0#32 then .rgbaBufferIsNull
      else if Config.maxRgbaLength < s.args.outCap.toNat then .dimensionsTooLarge
      else if s.args.width = 0#32 ∨ s.args.height = 0#32 then .invalidDimensions
      else if s.args.depth.toNat < 1 ∨ 4 < s.args.depth.toNat then .invalidDepthBytes else .addressRange⟩ }

/-- R210, R77, R250: DECODE releases Scratch on every exit path. -/
def Obligations.DecodeReleasesScratch : Prop :=
  ∀ s t : State, exec .decode s = .next t → t.scrValid = false ∧ t.scratch = []

/-- R213, R210, R61: a DECODE whose validation passes is UNRLE and, if that succeeds, UNDELTAFILTER, and then the release;
where the sequence has no step it has none. (R213 speaks of host bytes and STATUS.CODE; that "no step" is a fault is the
model's choice, log entry 3, and so is the count of Scratch's releases, log entry 5.) -/
def Obligations.DecodeIsUnrleThenUndeltafilter : Prop :=
  ∀ s : State, decodeAllowed s →
    (∀ f, exec .unrle s = .fault f → exec .decode s = .fault f) ∧
    ∀ u, exec .unrle s = .next u →
      (u.status.code ≠ .success →
        exec .decode s = .next { u with scrValid := false, scratch := [], scratchEpoch := u.scratchEpoch + 1 }) ∧
      (u.status.code = .success →
        (∀ v, exec .undeltafilter u = .next v →
          exec .decode s = .next { v with scrValid := false, scratch := [], scratchEpoch := v.scratchEpoch + 1 }) ∧
        (∀ f, exec .undeltafilter u = .fault f → exec .decode s = .fault f))

/-- R210, R211: DECODE on a well-formed stream whose total fits: Success, OUT below L holds the decoded pixels (regroup,
then the running sum of row 0, then each later row added to the one above), every other host byte is as before, and
UNRLE_LEN tells how many were written. -/
def Obligations.DecodeProducesPixels : Prop :=
  ∀ (s : State) (flag : Bool) (runs : List Nat), decodeAllowed s → cmdReady s →
    dataReady s (copiedLength flag runs) → regionReady s s.args.outAddr runs.sum → Memory.wf s.mem = true →
    (∀ r ∈ runs, 0 < r) → 0 < runs.sum → runs.sum ≤ s.args.outCap.toNat → runs.sum ≤ s.platform.unrleCap →
    runs.sum % 4 = 0 → copiedLength flag runs ≤ s.args.dataLen.toNat →
    s.commandBits (commandStream flag runs.sum runs) →
    ∃ (t : State) (row0 : Nat → Byte), exec .decode s = .next t ∧
      t = { s with
        mem := t.mem, unrleLen := BitVec.ofNat 32 runs.sum, dataPos := BitVec.ofNat 32 (copiedLength flag runs),
        cur := cursorAfter ⟨s.args.cmdAddr, s.args.cmdLen, 0#3, false⟩ (commandStream flag runs.sum runs).length,
        unstable := [], latched := false, scrValid := false, scratch := [], scratchEpoch := s.scratchEpoch + 2,
        status := ⟨false, true, .success⟩, pending := none } ∧
      sameOutside s.args.outAddr runs.sum s t ∧
      (∀ i, i < runs.sum → row0 i =
        regroupedByte (fun k => ((expansion s.dataByte flag 0 runs)[k]?).getD 0#8) runs.sum i +
          if s.args.depth.toNat ≤ i ∧ i < s.args.stride.toNat then row0 (i - s.args.depth.toNat) else 0#8) ∧
      (∀ i, i < runs.sum → t.outByte i =
        row0 i + if s.args.stride.toNat ≤ i ∧ i < s.args.height.toNat * s.args.stride.toNat then
          t.outByte (i - s.args.stride.toNat) else 0#8)
end

