-- ==== Sys2Proof/Laws/Memory.lean ====
section
/-! SUPPORT. Host memory: a read after a write, the canonical form and what it gives, and the address arithmetic. -/

namespace Sys2Proof.Machine

@[simp] theorem Memory.read_nil (a : Nat) : Memory.read [] a = 0#8 := rfl

theorem Memory.read_write_ne {a b : Nat} (h : b ≠ a) (v : Byte) :
    ∀ m : Memory, Memory.read (Memory.write m a v) b = Memory.read m b
  | [] => by
    by_cases hv : v = 0#8 <;> simp [Memory.write, Memory.read, hv, h]
  | (c, w) :: m => by
    have ih := Memory.read_write_ne h v m
    simp only [Memory.write]
    split
    · split
      · rfl
      · simp [Memory.read, h]
    · split
      · split
        · rename_i hac _; subst hac; simp [Memory.read, h]
        · rename_i hac _; subst hac; simp [Memory.read, h]
      · simp only [Memory.read, ih]

theorem Memory.wfFrom_mono {low low' : Nat} (h : low' ≤ low) :
    ∀ {m : Memory}, Memory.wfFrom low m = true → Memory.wfFrom low' m = true
  | [], _ => rfl
  | (a, v) :: m, hm => by
    simp only [Memory.wfFrom, Bool.and_eq_true, decide_eq_true_eq] at hm ⊢
    exact ⟨⟨⟨by omega, hm.1.1.2⟩, hm.1.2⟩, hm.2⟩

/-- An address below every listed one reads as unlisted. -/
theorem Memory.read_below {low : Nat} :
    ∀ {m : Memory}, Memory.wfFrom low m = true → ∀ {a : Nat}, a < low → Memory.read m a = 0#8
  | [], _, _, _ => rfl
  | (b, v) :: m, hm, a, ha => by
    simp only [Memory.wfFrom, Bool.and_eq_true, decide_eq_true_eq] at hm
    rw [Memory.read, if_neg (by omega)]
    exact Memory.read_below hm.2 (by omega)

theorem Memory.read_write_eq_from {low : Nat} (a : Nat) (v : Byte) :
    ∀ {m : Memory}, Memory.wfFrom low m = true → Memory.read (Memory.write m a v) a = v
  | [], _ => by by_cases hv : v = 0#8 <;> simp [Memory.write, Memory.read, hv]
  | (b, w) :: m, hm => by
    have hm' := hm
    simp only [Memory.wfFrom, Bool.and_eq_true, decide_eq_true_eq] at hm
    simp only [Memory.write]
    split
    · split
      · rename_i hv; rw [hv]
        rw [Memory.read, if_neg (by omega)]
        exact Memory.read_below hm.2 (by omega)
      · simp [Memory.read]
    · split
      · split
        · rename_i hab hv; rw [hv]; exact Memory.read_below hm.2 (by omega)
        · simp [Memory.read]
      · rename_i hab; rw [Memory.read, if_neg hab]; exact Memory.read_write_eq_from a v hm.2

/-- A read after a write to the same place gives the value written. -/
theorem Memory.read_write_eq {m : Memory} (hm : Memory.wf m = true) (a : Nat) (v : Byte) :
    Memory.read (Memory.write m a v) a = v := Memory.read_write_eq_from a v hm

/-- A read after a write, both cases at once. -/
theorem Memory.read_write {m : Memory} (hm : Memory.wf m = true) (a b : Nat) (v : Byte) :
    Memory.read (Memory.write m a v) b = if b = a then v else Memory.read m b := by
  split
  · rename_i h; subst h; exact Memory.read_write_eq hm b v
  · rename_i h; exact Memory.read_write_ne h v m

theorem Memory.wfFrom_write {a : Nat} (ha : a < Config.addressCount) (v : Byte) :
    ∀ {m : Memory} {low : Nat}, low ≤ a → Memory.wfFrom low m = true → Memory.wfFrom low (Memory.write m a v) = true
  | [], low, hl, _ => by
    by_cases hv : v = 0#8 <;> simp [Memory.write, Memory.wfFrom, hv, hl, ha]
  | (b, w) :: m, low, hl, hm => by
    have hm' := hm
    simp only [Memory.wfFrom, Bool.and_eq_true, decide_eq_true_eq] at hm
    simp only [Memory.write]
    split
    · split
      · exact hm'
      · rename_i hv
        simp only [Memory.wfFrom, Bool.and_eq_true, decide_eq_true_eq]
        exact ⟨⟨⟨hl, ha⟩, hv⟩, ⟨⟨by omega, hm.1.1.2⟩, hm.1.2⟩, hm.2⟩
    · split
      · split
        · exact Memory.wfFrom_mono (by omega) hm.2
        · rename_i hab hv
          simp only [Memory.wfFrom, Bool.and_eq_true, decide_eq_true_eq]
          exact ⟨⟨⟨hl, ha⟩, hv⟩, by rw [hab]; exact hm.2⟩
      · simp only [Memory.wfFrom, Bool.and_eq_true, decide_eq_true_eq]
        exact ⟨hm.1, Memory.wfFrom_write ha v (by omega) hm.2⟩

/-- Every write keeps the canonical form. -/
theorem Memory.wf_write {m : Memory} (hm : Memory.wf m = true) (a : Word) (v : Byte) :
    Memory.wf (Memory.write m a.toNat v) = true :=
  Memory.wfFrom_write a.isLt v (Nat.zero_le _) hm

/-- Equal reads make equal memories: the canonical form is one form. -/
theorem Memory.eq_of_read_eq :
    ∀ {m n : Memory} {low : Nat}, Memory.wfFrom low m = true → Memory.wfFrom low n = true →
      (∀ a, Memory.read m a = Memory.read n a) → m = n
  | [], [], _, _, _, _ => rfl
  | [], (b, w) :: n, _, _, hn, h => by
    simp only [Memory.wfFrom, Bool.and_eq_true, decide_eq_true_eq] at hn
    exact absurd (by simpa [Memory.read] using (h b).symm) hn.1.2
  | (a, v) :: m, [], _, hm, _, h => by
    simp only [Memory.wfFrom, Bool.and_eq_true, decide_eq_true_eq] at hm
    exact absurd (by simpa [Memory.read] using h a) hm.1.2
  | (a, v) :: m, (b, w) :: n, low, hm, hn, h => by
    simp only [Memory.wfFrom, Bool.and_eq_true, decide_eq_true_eq] at hm hn
    have hab : a = b := by
      by_contra hne
      rcases Nat.lt_or_gt_of_ne hne with hlt | hlt
      · have h1 := h a
        rw [Memory.read, if_pos rfl, Memory.read, if_neg hne, Memory.read_below hn.2 (by omega)] at h1
        exact hm.1.2 h1
      · have h1 := h b
        rw [Memory.read, if_neg (Ne.symm hne), Memory.read, if_pos rfl, Memory.read_below hm.2 (by omega)] at h1
        exact hn.1.2 h1.symm
    subst hab
    have hvw : v = w := by have h1 := h a; simpa [Memory.read] using h1
    subst hvw
    have hmn : m = n := by
      refine Memory.eq_of_read_eq hm.2 hn.2 fun c => ?_
      by_cases hc : c = a
      · subst hc
        rw [Memory.read_below hm.2 (by omega), Memory.read_below hn.2 (by omega)]
      · have h1 := h c
        rwa [Memory.read, if_neg hc, Memory.read, if_neg hc] at h1
    rw [hmn]

/-! ### Addresses -/

theorem addrAt_toNat (base : Word) (i : Nat) : (addrAt base i).toNat = (base.toNat + i) % 4294967296 := by
  simp [addrAt, BitVec.toNat_add]

@[simp] theorem addrAt_zero (base : Word) : addrAt base 0 = base := by simp [addrAt]

theorem addrAt_add (base : Word) (i j : Nat) : addrAt (addrAt base i) j = addrAt base (i + j) := by
  simp [addrAt, BitVec.ofNat_add, BitVec.add_assoc]

theorem addrAt_one (base : Word) : addrAt base 1 = base + 1#32 := rfl

/-- Two indices below 2^32 give the same address only if they are the same. -/
theorem addrAt_inj {base : Word} {i j : Nat} (hi : i < 4294967296) (hj : j < 4294967296)
    (h : addrAt base i = addrAt base j) : i = j := by
  have h1 := congrArg BitVec.toNat h
  rw [addrAt_toNat, addrAt_toNat] at h1
  have := base.isLt
  omega

end Sys2Proof.Machine
end

