-- ==== Sys2Proof/Laws/State.lean ====
section
/-! SUPPORT. What each named update of the state does to each field: one lemma per field per update, true by `rfl`. -/

namespace Sys2Proof.Machine

variable (s : State)

/-! ### drawOne -/

@[simp] theorem drawOne_cmd : (drawOne s).cmd = s.cmd := rfl
@[simp] theorem drawOne_status : (drawOne s).status = s.status := rfl
@[simp] theorem drawOne_result : (drawOne s).result = s.result := rfl
@[simp] theorem drawOne_args : (drawOne s).args = s.args := rfl
@[simp] theorem drawOne_unrleLen : (drawOne s).unrleLen = s.unrleLen := rfl
@[simp] theorem drawOne_dataPos : (drawOne s).dataPos = s.dataPos := rfl
@[simp] theorem drawOne_cur : (drawOne s).cur = s.cur := rfl
@[simp] theorem drawOne_scrValid : (drawOne s).scrValid = s.scrValid := rfl
@[simp] theorem drawOne_scratch : (drawOne s).scratch = s.scratch := rfl
@[simp] theorem drawOne_pending : (drawOne s).pending = s.pending := rfl
@[simp] theorem drawOne_mem : (drawOne s).mem = s.mem := rfl
@[simp] theorem drawOne_platform : (drawOne s).platform = s.platform := rfl
@[simp] theorem drawOne_draws : (drawOne s).draws = s.draws + 1 := rfl
@[simp] theorem drawOne_scratchEpoch : (drawOne s).scratchEpoch = s.scratchEpoch := rfl
@[simp] theorem drawOne_raced : (drawOne s).raced = s.raced := rfl
@[simp] theorem drawOne_unstable : (drawOne s).unstable = s.unstable := rfl
@[simp] theorem drawOne_latched : (drawOne s).latched = s.latched := rfl
@[simp] theorem drawOne_inputs : (drawOne s).inputs = s.inputs := rfl
@[simp] theorem drawOne_observed : (drawOne s).observed = s.observed := rfl

/-! ### setResult -/

@[simp] theorem setResult_cmd (w : Word) : (setResult w s).cmd = s.cmd := rfl
@[simp] theorem setResult_status (w : Word) : (setResult w s).status = s.status := rfl
@[simp] theorem setResult_result (w : Word) : (setResult w s).result = w := rfl
@[simp] theorem setResult_args (w : Word) : (setResult w s).args = s.args := rfl
@[simp] theorem setResult_unrleLen (w : Word) : (setResult w s).unrleLen = s.unrleLen := rfl
@[simp] theorem setResult_dataPos (w : Word) : (setResult w s).dataPos = s.dataPos := rfl
@[simp] theorem setResult_cur (w : Word) : (setResult w s).cur = s.cur := rfl
@[simp] theorem setResult_scrValid (w : Word) : (setResult w s).scrValid = s.scrValid := rfl
@[simp] theorem setResult_scratch (w : Word) : (setResult w s).scratch = s.scratch := rfl
@[simp] theorem setResult_pending (w : Word) : (setResult w s).pending = s.pending := rfl
@[simp] theorem setResult_mem (w : Word) : (setResult w s).mem = s.mem := rfl
@[simp] theorem setResult_platform (w : Word) : (setResult w s).platform = s.platform := rfl
@[simp] theorem setResult_draws (w : Word) : (setResult w s).draws = s.draws := rfl
@[simp] theorem setResult_scratchEpoch (w : Word) : (setResult w s).scratchEpoch = s.scratchEpoch := rfl
@[simp] theorem setResult_raced (w : Word) : (setResult w s).raced = s.raced := rfl
@[simp] theorem setResult_unstable (w : Word) : (setResult w s).unstable = s.unstable := rfl
@[simp] theorem setResult_latched (w : Word) : (setResult w s).latched = s.latched := rfl
@[simp] theorem setResult_inputs (w : Word) : (setResult w s).inputs = s.inputs := rfl
@[simp] theorem setResult_observed (w : Word) : (setResult w s).observed = s.observed := rfl

/-! ### setUnrleLen -/

@[simp] theorem setUnrleLen_cmd (w : Word) : (setUnrleLen w s).cmd = s.cmd := rfl
@[simp] theorem setUnrleLen_status (w : Word) : (setUnrleLen w s).status = s.status := rfl
@[simp] theorem setUnrleLen_result (w : Word) : (setUnrleLen w s).result = s.result := rfl
@[simp] theorem setUnrleLen_args (w : Word) : (setUnrleLen w s).args = s.args := rfl
@[simp] theorem setUnrleLen_unrleLen (w : Word) : (setUnrleLen w s).unrleLen = w := rfl
@[simp] theorem setUnrleLen_dataPos (w : Word) : (setUnrleLen w s).dataPos = s.dataPos := rfl
@[simp] theorem setUnrleLen_cur (w : Word) : (setUnrleLen w s).cur = s.cur := rfl
@[simp] theorem setUnrleLen_scrValid (w : Word) : (setUnrleLen w s).scrValid = s.scrValid := rfl
@[simp] theorem setUnrleLen_scratch (w : Word) : (setUnrleLen w s).scratch = s.scratch := rfl
@[simp] theorem setUnrleLen_pending (w : Word) : (setUnrleLen w s).pending = s.pending := rfl
@[simp] theorem setUnrleLen_mem (w : Word) : (setUnrleLen w s).mem = s.mem := rfl
@[simp] theorem setUnrleLen_platform (w : Word) : (setUnrleLen w s).platform = s.platform := rfl
@[simp] theorem setUnrleLen_draws (w : Word) : (setUnrleLen w s).draws = s.draws := rfl
@[simp] theorem setUnrleLen_scratchEpoch (w : Word) : (setUnrleLen w s).scratchEpoch = s.scratchEpoch := rfl
@[simp] theorem setUnrleLen_raced (w : Word) : (setUnrleLen w s).raced = s.raced := rfl
@[simp] theorem setUnrleLen_unstable (w : Word) : (setUnrleLen w s).unstable = s.unstable := rfl
@[simp] theorem setUnrleLen_latched (w : Word) : (setUnrleLen w s).latched = s.latched := rfl
@[simp] theorem setUnrleLen_inputs (w : Word) : (setUnrleLen w s).inputs = s.inputs := rfl
@[simp] theorem setUnrleLen_observed (w : Word) : (setUnrleLen w s).observed = s.observed := rfl

/-! ### setDataPos -/

@[simp] theorem setDataPos_cmd (w : Word) : (setDataPos w s).cmd = s.cmd := rfl
@[simp] theorem setDataPos_status (w : Word) : (setDataPos w s).status = s.status := rfl
@[simp] theorem setDataPos_result (w : Word) : (setDataPos w s).result = s.result := rfl
@[simp] theorem setDataPos_args (w : Word) : (setDataPos w s).args = s.args := rfl
@[simp] theorem setDataPos_unrleLen (w : Word) : (setDataPos w s).unrleLen = s.unrleLen := rfl
@[simp] theorem setDataPos_dataPos (w : Word) : (setDataPos w s).dataPos = w := rfl
@[simp] theorem setDataPos_cur (w : Word) : (setDataPos w s).cur = s.cur := rfl
@[simp] theorem setDataPos_scrValid (w : Word) : (setDataPos w s).scrValid = s.scrValid := rfl
@[simp] theorem setDataPos_scratch (w : Word) : (setDataPos w s).scratch = s.scratch := rfl
@[simp] theorem setDataPos_pending (w : Word) : (setDataPos w s).pending = s.pending := rfl
@[simp] theorem setDataPos_mem (w : Word) : (setDataPos w s).mem = s.mem := rfl
@[simp] theorem setDataPos_platform (w : Word) : (setDataPos w s).platform = s.platform := rfl
@[simp] theorem setDataPos_draws (w : Word) : (setDataPos w s).draws = s.draws := rfl
@[simp] theorem setDataPos_scratchEpoch (w : Word) : (setDataPos w s).scratchEpoch = s.scratchEpoch := rfl
@[simp] theorem setDataPos_raced (w : Word) : (setDataPos w s).raced = s.raced := rfl
@[simp] theorem setDataPos_unstable (w : Word) : (setDataPos w s).unstable = s.unstable := rfl
@[simp] theorem setDataPos_latched (w : Word) : (setDataPos w s).latched = s.latched := rfl
@[simp] theorem setDataPos_inputs (w : Word) : (setDataPos w s).inputs = s.inputs := rfl
@[simp] theorem setDataPos_observed (w : Word) : (setDataPos w s).observed = s.observed := rfl

/-! ### setCursor -/

@[simp] theorem setCursor_cmd (c : Cursor) : (setCursor c s).cmd = s.cmd := rfl
@[simp] theorem setCursor_status (c : Cursor) : (setCursor c s).status = s.status := rfl
@[simp] theorem setCursor_result (c : Cursor) : (setCursor c s).result = s.result := rfl
@[simp] theorem setCursor_args (c : Cursor) : (setCursor c s).args = s.args := rfl
@[simp] theorem setCursor_unrleLen (c : Cursor) : (setCursor c s).unrleLen = s.unrleLen := rfl
@[simp] theorem setCursor_dataPos (c : Cursor) : (setCursor c s).dataPos = s.dataPos := rfl
@[simp] theorem setCursor_cur (c : Cursor) : (setCursor c s).cur = c := rfl
@[simp] theorem setCursor_scrValid (c : Cursor) : (setCursor c s).scrValid = s.scrValid := rfl
@[simp] theorem setCursor_scratch (c : Cursor) : (setCursor c s).scratch = s.scratch := rfl
@[simp] theorem setCursor_pending (c : Cursor) : (setCursor c s).pending = s.pending := rfl
@[simp] theorem setCursor_mem (c : Cursor) : (setCursor c s).mem = s.mem := rfl
@[simp] theorem setCursor_platform (c : Cursor) : (setCursor c s).platform = s.platform := rfl
@[simp] theorem setCursor_draws (c : Cursor) : (setCursor c s).draws = s.draws := rfl
@[simp] theorem setCursor_scratchEpoch (c : Cursor) : (setCursor c s).scratchEpoch = s.scratchEpoch := rfl
@[simp] theorem setCursor_raced (c : Cursor) : (setCursor c s).raced = s.raced := rfl
@[simp] theorem setCursor_unstable (c : Cursor) : (setCursor c s).unstable = s.unstable := rfl
@[simp] theorem setCursor_latched (c : Cursor) : (setCursor c s).latched = s.latched := rfl
@[simp] theorem setCursor_inputs (c : Cursor) : (setCursor c s).inputs = s.inputs := rfl
@[simp] theorem setCursor_observed (c : Cursor) : (setCursor c s).observed = s.observed := rfl

/-! ### setMem -/

@[simp] theorem setMem_cmd (m : Memory) : (setMem m s).cmd = s.cmd := rfl
@[simp] theorem setMem_status (m : Memory) : (setMem m s).status = s.status := rfl
@[simp] theorem setMem_result (m : Memory) : (setMem m s).result = s.result := rfl
@[simp] theorem setMem_args (m : Memory) : (setMem m s).args = s.args := rfl
@[simp] theorem setMem_unrleLen (m : Memory) : (setMem m s).unrleLen = s.unrleLen := rfl
@[simp] theorem setMem_dataPos (m : Memory) : (setMem m s).dataPos = s.dataPos := rfl
@[simp] theorem setMem_cur (m : Memory) : (setMem m s).cur = s.cur := rfl
@[simp] theorem setMem_scrValid (m : Memory) : (setMem m s).scrValid = s.scrValid := rfl
@[simp] theorem setMem_scratch (m : Memory) : (setMem m s).scratch = s.scratch := rfl
@[simp] theorem setMem_pending (m : Memory) : (setMem m s).pending = s.pending := rfl
@[simp] theorem setMem_mem (m : Memory) : (setMem m s).mem = m := rfl
@[simp] theorem setMem_platform (m : Memory) : (setMem m s).platform = s.platform := rfl
@[simp] theorem setMem_draws (m : Memory) : (setMem m s).draws = s.draws := rfl
@[simp] theorem setMem_scratchEpoch (m : Memory) : (setMem m s).scratchEpoch = s.scratchEpoch := rfl
@[simp] theorem setMem_raced (m : Memory) : (setMem m s).raced = s.raced := rfl
@[simp] theorem setMem_unstable (m : Memory) : (setMem m s).unstable = s.unstable := rfl
@[simp] theorem setMem_latched (m : Memory) : (setMem m s).latched = s.latched := rfl
@[simp] theorem setMem_inputs (m : Memory) : (setMem m s).inputs = s.inputs := rfl
@[simp] theorem setMem_observed (m : Memory) : (setMem m s).observed = s.observed := rfl

/-! ### release -/

@[simp] theorem release_cmd : (release s).cmd = s.cmd := rfl
@[simp] theorem release_status : (release s).status = s.status := rfl
@[simp] theorem release_result : (release s).result = s.result := rfl
@[simp] theorem release_args : (release s).args = s.args := rfl
@[simp] theorem release_unrleLen : (release s).unrleLen = s.unrleLen := rfl
@[simp] theorem release_dataPos : (release s).dataPos = s.dataPos := rfl
@[simp] theorem release_cur : (release s).cur = s.cur := rfl
@[simp] theorem release_scrValid : (release s).scrValid = false := rfl
@[simp] theorem release_scratch : (release s).scratch = [] := rfl
@[simp] theorem release_pending : (release s).pending = s.pending := rfl
@[simp] theorem release_mem : (release s).mem = s.mem := rfl
@[simp] theorem release_platform : (release s).platform = s.platform := rfl
@[simp] theorem release_draws : (release s).draws = s.draws := rfl
@[simp] theorem release_scratchEpoch : (release s).scratchEpoch = s.scratchEpoch + 1 := rfl
@[simp] theorem release_raced : (release s).raced = s.raced := rfl
@[simp] theorem release_unstable : (release s).unstable = s.unstable := rfl
@[simp] theorem release_latched : (release s).latched = s.latched := rfl
@[simp] theorem release_inputs : (release s).inputs = s.inputs := rfl
@[simp] theorem release_observed : (release s).observed = s.observed := rfl

/-! ### keepScratch -/

@[simp] theorem keepScratch_cmd (buf : List Byte) : (keepScratch buf s).cmd = s.cmd := rfl
@[simp] theorem keepScratch_status (buf : List Byte) : (keepScratch buf s).status = s.status := rfl
@[simp] theorem keepScratch_result (buf : List Byte) : (keepScratch buf s).result = s.result := rfl
@[simp] theorem keepScratch_args (buf : List Byte) : (keepScratch buf s).args = s.args := rfl
@[simp] theorem keepScratch_unrleLen (buf : List Byte) : (keepScratch buf s).unrleLen = s.unrleLen := rfl
@[simp] theorem keepScratch_dataPos (buf : List Byte) : (keepScratch buf s).dataPos = s.dataPos := rfl
@[simp] theorem keepScratch_cur (buf : List Byte) : (keepScratch buf s).cur = s.cur := rfl
@[simp] theorem keepScratch_scrValid (buf : List Byte) : (keepScratch buf s).scrValid = true := rfl
@[simp] theorem keepScratch_scratch (buf : List Byte) : (keepScratch buf s).scratch = buf := rfl
@[simp] theorem keepScratch_pending (buf : List Byte) : (keepScratch buf s).pending = s.pending := rfl
@[simp] theorem keepScratch_mem (buf : List Byte) : (keepScratch buf s).mem = s.mem := rfl
@[simp] theorem keepScratch_platform (buf : List Byte) : (keepScratch buf s).platform = s.platform := rfl
@[simp] theorem keepScratch_draws (buf : List Byte) : (keepScratch buf s).draws = s.draws := rfl
@[simp] theorem keepScratch_scratchEpoch (buf : List Byte) : (keepScratch buf s).scratchEpoch = s.scratchEpoch := rfl
@[simp] theorem keepScratch_raced (buf : List Byte) : (keepScratch buf s).raced = s.raced := rfl
@[simp] theorem keepScratch_unstable (buf : List Byte) : (keepScratch buf s).unstable = s.unstable := rfl
@[simp] theorem keepScratch_latched (buf : List Byte) : (keepScratch buf s).latched = s.latched := rfl
@[simp] theorem keepScratch_inputs (buf : List Byte) : (keepScratch buf s).inputs = s.inputs := rfl
@[simp] theorem keepScratch_observed (buf : List Byte) : (keepScratch buf s).observed = s.observed := rfl

/-! ### startCursor -/

@[simp] theorem startCursor_cmd : (startCursor s).cmd = s.cmd := rfl
@[simp] theorem startCursor_status : (startCursor s).status = s.status := rfl
@[simp] theorem startCursor_result : (startCursor s).result = s.result := rfl
@[simp] theorem startCursor_args : (startCursor s).args = s.args := rfl
@[simp] theorem startCursor_unrleLen : (startCursor s).unrleLen = s.unrleLen := rfl
@[simp] theorem startCursor_dataPos : (startCursor s).dataPos = s.dataPos := rfl
@[simp] theorem startCursor_cur : (startCursor s).cur = freshCursor s.args.cmdAddr s.args.cmdLen := rfl
@[simp] theorem startCursor_scrValid : (startCursor s).scrValid = s.scrValid := rfl
@[simp] theorem startCursor_scratch : (startCursor s).scratch = s.scratch := rfl
@[simp] theorem startCursor_pending : (startCursor s).pending = s.pending := rfl
@[simp] theorem startCursor_mem : (startCursor s).mem = s.mem := rfl
@[simp] theorem startCursor_platform : (startCursor s).platform = s.platform := rfl
@[simp] theorem startCursor_draws : (startCursor s).draws = s.draws := rfl
@[simp] theorem startCursor_scratchEpoch : (startCursor s).scratchEpoch = s.scratchEpoch := rfl
@[simp] theorem startCursor_raced : (startCursor s).raced = s.raced := rfl
@[simp] theorem startCursor_unstable : (startCursor s).unstable = [] := rfl
@[simp] theorem startCursor_latched : (startCursor s).latched = false := rfl
@[simp] theorem startCursor_inputs : (startCursor s).inputs = s.inputs := rfl
@[simp] theorem startCursor_observed : (startCursor s).observed = s.observed := rfl

/-! ### latchCursor -/

@[simp] theorem latchCursor_cmd : (latchCursor s).cmd = s.cmd := rfl
@[simp] theorem latchCursor_status : (latchCursor s).status = s.status := rfl
@[simp] theorem latchCursor_result : (latchCursor s).result = s.result := rfl
@[simp] theorem latchCursor_args : (latchCursor s).args = s.args := rfl
@[simp] theorem latchCursor_unrleLen : (latchCursor s).unrleLen = s.unrleLen := rfl
@[simp] theorem latchCursor_dataPos : (latchCursor s).dataPos = s.dataPos := rfl
@[simp] theorem latchCursor_cur : (latchCursor s).cur = s.cur := rfl
@[simp] theorem latchCursor_scrValid : (latchCursor s).scrValid = s.scrValid := rfl
@[simp] theorem latchCursor_scratch : (latchCursor s).scratch = s.scratch := rfl
@[simp] theorem latchCursor_pending : (latchCursor s).pending = s.pending := rfl
@[simp] theorem latchCursor_mem : (latchCursor s).mem = s.mem := rfl
@[simp] theorem latchCursor_platform : (latchCursor s).platform = s.platform := rfl
@[simp] theorem latchCursor_draws : (latchCursor s).draws = s.draws := rfl
@[simp] theorem latchCursor_scratchEpoch : (latchCursor s).scratchEpoch = s.scratchEpoch := rfl
@[simp] theorem latchCursor_raced : (latchCursor s).raced = s.raced := rfl
@[simp] theorem latchCursor_unstable : (latchCursor s).unstable = s.unstable := rfl
@[simp] theorem latchCursor_latched : (latchCursor s).latched = true := rfl
@[simp] theorem latchCursor_inputs : (latchCursor s).inputs = s.inputs := rfl
@[simp] theorem latchCursor_observed : (latchCursor s).observed = s.observed := rfl

/-! ### latchWrites -/

@[simp] theorem latchWrites_cmd (l : List Nat) : (latchWrites l s).cmd = s.cmd := rfl
@[simp] theorem latchWrites_status (l : List Nat) : (latchWrites l s).status = s.status := rfl
@[simp] theorem latchWrites_result (l : List Nat) : (latchWrites l s).result = s.result := rfl
@[simp] theorem latchWrites_args (l : List Nat) : (latchWrites l s).args = s.args := rfl
@[simp] theorem latchWrites_unrleLen (l : List Nat) : (latchWrites l s).unrleLen = s.unrleLen := rfl
@[simp] theorem latchWrites_dataPos (l : List Nat) : (latchWrites l s).dataPos = s.dataPos := rfl
@[simp] theorem latchWrites_cur (l : List Nat) : (latchWrites l s).cur = s.cur := rfl
@[simp] theorem latchWrites_scrValid (l : List Nat) : (latchWrites l s).scrValid = s.scrValid := rfl
@[simp] theorem latchWrites_scratch (l : List Nat) : (latchWrites l s).scratch = s.scratch := rfl
@[simp] theorem latchWrites_pending (l : List Nat) : (latchWrites l s).pending = s.pending := rfl
@[simp] theorem latchWrites_mem (l : List Nat) : (latchWrites l s).mem = s.mem := rfl
@[simp] theorem latchWrites_platform (l : List Nat) : (latchWrites l s).platform = s.platform := rfl
@[simp] theorem latchWrites_draws (l : List Nat) : (latchWrites l s).draws = s.draws := rfl
@[simp] theorem latchWrites_scratchEpoch (l : List Nat) : (latchWrites l s).scratchEpoch = s.scratchEpoch := rfl
@[simp] theorem latchWrites_raced (l : List Nat) : (latchWrites l s).raced = s.raced := rfl
@[simp] theorem latchWrites_unstable (l : List Nat) : (latchWrites l s).unstable = (l.filter (mayBeLatched s)).foldr addOnce s.unstable := rfl
@[simp] theorem latchWrites_latched (l : List Nat) : (latchWrites l s).latched = s.latched := rfl
@[simp] theorem latchWrites_inputs (l : List Nat) : (latchWrites l s).inputs = s.inputs := rfl
@[simp] theorem latchWrites_observed (l : List Nat) : (latchWrites l s).observed = s.observed := rfl

/-! ### endRace -/

@[simp] theorem endRace_cmd : (endRace s).cmd = s.cmd := rfl
@[simp] theorem endRace_status : (endRace s).status = s.status := rfl
@[simp] theorem endRace_result : (endRace s).result = s.result := rfl
@[simp] theorem endRace_args : (endRace s).args = s.args := rfl
@[simp] theorem endRace_unrleLen : (endRace s).unrleLen = s.unrleLen := rfl
@[simp] theorem endRace_dataPos : (endRace s).dataPos = s.dataPos := rfl
@[simp] theorem endRace_cur : (endRace s).cur = s.cur := rfl
@[simp] theorem endRace_scrValid : (endRace s).scrValid = s.scrValid := rfl
@[simp] theorem endRace_scratch : (endRace s).scratch = s.scratch := rfl
@[simp] theorem endRace_pending : (endRace s).pending = s.pending := rfl
@[simp] theorem endRace_mem : (endRace s).mem = s.mem := rfl
@[simp] theorem endRace_platform : (endRace s).platform = s.platform := rfl
@[simp] theorem endRace_draws : (endRace s).draws = s.draws := rfl
@[simp] theorem endRace_scratchEpoch : (endRace s).scratchEpoch = s.scratchEpoch := rfl
@[simp] theorem endRace_raced : (endRace s).raced = [] := rfl
@[simp] theorem endRace_unstable : (endRace s).unstable = (s.raced.filter (mayBeLatched s)).foldr addOnce s.unstable := rfl
@[simp] theorem endRace_latched : (endRace s).latched = s.latched := rfl
@[simp] theorem endRace_inputs : (endRace s).inputs = s.inputs := rfl
@[simp] theorem endRace_observed : (endRace s).observed = s.observed := rfl

/-! ### acceptCommand -/

@[simp] theorem acceptCommand_cmd (w : Word) : (acceptCommand w s).cmd = w := rfl
@[simp] theorem acceptCommand_status (w : Word) : (acceptCommand w s).status = acceptedStatus := rfl
@[simp] theorem acceptCommand_result (w : Word) : (acceptCommand w s).result = s.result := rfl
@[simp] theorem acceptCommand_args (w : Word) : (acceptCommand w s).args = s.args := rfl
@[simp] theorem acceptCommand_unrleLen (w : Word) : (acceptCommand w s).unrleLen = s.unrleLen := rfl
@[simp] theorem acceptCommand_dataPos (w : Word) : (acceptCommand w s).dataPos = s.dataPos := rfl
@[simp] theorem acceptCommand_cur (w : Word) : (acceptCommand w s).cur = s.cur := rfl
@[simp] theorem acceptCommand_scrValid (w : Word) : (acceptCommand w s).scrValid = s.scrValid := rfl
@[simp] theorem acceptCommand_scratch (w : Word) : (acceptCommand w s).scratch = s.scratch := rfl
@[simp] theorem acceptCommand_pending (w : Word) : (acceptCommand w s).pending = some w := rfl
@[simp] theorem acceptCommand_mem (w : Word) : (acceptCommand w s).mem = s.mem := rfl
@[simp] theorem acceptCommand_platform (w : Word) : (acceptCommand w s).platform = s.platform := rfl
@[simp] theorem acceptCommand_draws (w : Word) : (acceptCommand w s).draws = s.draws := rfl
@[simp] theorem acceptCommand_scratchEpoch (w : Word) : (acceptCommand w s).scratchEpoch = s.scratchEpoch := rfl
@[simp] theorem acceptCommand_raced (w : Word) : (acceptCommand w s).raced = [] := rfl
@[simp] theorem acceptCommand_unstable (w : Word) : (acceptCommand w s).unstable = s.unstable := rfl
@[simp] theorem acceptCommand_latched (w : Word) : (acceptCommand w s).latched = s.latched := rfl
@[simp] theorem acceptCommand_inputs (w : Word) : (acceptCommand w s).inputs = s.inputs := rfl
@[simp] theorem acceptCommand_observed (w : Word) : (acceptCommand w s).observed = s.observed := rfl

/-! ### complete -/

@[simp] theorem complete_cmd (c : Code) : (complete c s).cmd = s.cmd := rfl
@[simp] theorem complete_status (c : Code) : (complete c s).status = completedStatus c := rfl
@[simp] theorem complete_result (c : Code) : (complete c s).result = s.result := rfl
@[simp] theorem complete_args (c : Code) : (complete c s).args = s.args := rfl
@[simp] theorem complete_unrleLen (c : Code) : (complete c s).unrleLen = s.unrleLen := rfl
@[simp] theorem complete_dataPos (c : Code) : (complete c s).dataPos = s.dataPos := rfl
@[simp] theorem complete_cur (c : Code) : (complete c s).cur = s.cur := rfl
@[simp] theorem complete_scrValid (c : Code) : (complete c s).scrValid = s.scrValid := rfl
@[simp] theorem complete_scratch (c : Code) : (complete c s).scratch = s.scratch := rfl
@[simp] theorem complete_pending (c : Code) : (complete c s).pending = none := rfl
@[simp] theorem complete_mem (c : Code) : (complete c s).mem = s.mem := rfl
@[simp] theorem complete_platform (c : Code) : (complete c s).platform = s.platform := rfl
@[simp] theorem complete_draws (c : Code) : (complete c s).draws = s.draws := rfl
@[simp] theorem complete_scratchEpoch (c : Code) : (complete c s).scratchEpoch = s.scratchEpoch := rfl
@[simp] theorem complete_raced (c : Code) : (complete c s).raced = s.raced := rfl
@[simp] theorem complete_unstable (c : Code) : (complete c s).unstable = s.unstable := rfl
@[simp] theorem complete_latched (c : Code) : (complete c s).latched = s.latched := rfl
@[simp] theorem complete_inputs (c : Code) : (complete c s).inputs = s.inputs := rfl
@[simp] theorem complete_observed (c : Code) : (complete c s).observed = s.observed := rfl

/-! ### observe -/

@[simp] theorem observe_cmd (w : Word) : (observe w s).cmd = s.cmd := rfl
@[simp] theorem observe_status (w : Word) : (observe w s).status = s.status := rfl
@[simp] theorem observe_result (w : Word) : (observe w s).result = s.result := rfl
@[simp] theorem observe_args (w : Word) : (observe w s).args = s.args := rfl
@[simp] theorem observe_unrleLen (w : Word) : (observe w s).unrleLen = s.unrleLen := rfl
@[simp] theorem observe_dataPos (w : Word) : (observe w s).dataPos = s.dataPos := rfl
@[simp] theorem observe_cur (w : Word) : (observe w s).cur = s.cur := rfl
@[simp] theorem observe_scrValid (w : Word) : (observe w s).scrValid = s.scrValid := rfl
@[simp] theorem observe_scratch (w : Word) : (observe w s).scratch = s.scratch := rfl
@[simp] theorem observe_pending (w : Word) : (observe w s).pending = s.pending := rfl
@[simp] theorem observe_mem (w : Word) : (observe w s).mem = s.mem := rfl
@[simp] theorem observe_platform (w : Word) : (observe w s).platform = s.platform := rfl
@[simp] theorem observe_draws (w : Word) : (observe w s).draws = s.draws := rfl
@[simp] theorem observe_scratchEpoch (w : Word) : (observe w s).scratchEpoch = s.scratchEpoch := rfl
@[simp] theorem observe_raced (w : Word) : (observe w s).raced = s.raced := rfl
@[simp] theorem observe_unstable (w : Word) : (observe w s).unstable = s.unstable := rfl
@[simp] theorem observe_latched (w : Word) : (observe w s).latched = s.latched := rfl
@[simp] theorem observe_inputs (w : Word) : (observe w s).inputs = s.inputs := rfl
@[simp] theorem observe_observed (w : Word) : (observe w s).observed = s.observed ++ [w] := rfl

/-! ### startUnrle -/

@[simp] theorem startUnrle_cmd : (startUnrle s).cmd = s.cmd := rfl
@[simp] theorem startUnrle_status : (startUnrle s).status = s.status := rfl
@[simp] theorem startUnrle_result : (startUnrle s).result = s.result := rfl
@[simp] theorem startUnrle_args : (startUnrle s).args = s.args := rfl
@[simp] theorem startUnrle_unrleLen : (startUnrle s).unrleLen = 0#32 := rfl
@[simp] theorem startUnrle_dataPos : (startUnrle s).dataPos = 0#32 := rfl
@[simp] theorem startUnrle_cur : (startUnrle s).cur = freshCursor s.args.cmdAddr s.args.cmdLen := rfl
@[simp] theorem startUnrle_scrValid : (startUnrle s).scrValid = false := rfl
@[simp] theorem startUnrle_scratch : (startUnrle s).scratch = [] := rfl
@[simp] theorem startUnrle_pending : (startUnrle s).pending = s.pending := rfl
@[simp] theorem startUnrle_mem : (startUnrle s).mem = s.mem := rfl
@[simp] theorem startUnrle_platform : (startUnrle s).platform = s.platform := rfl
@[simp] theorem startUnrle_draws : (startUnrle s).draws = s.draws := rfl
@[simp] theorem startUnrle_scratchEpoch : (startUnrle s).scratchEpoch = s.scratchEpoch + 1 := rfl
@[simp] theorem startUnrle_raced : (startUnrle s).raced = s.raced := rfl
@[simp] theorem startUnrle_unstable : (startUnrle s).unstable = [] := rfl
@[simp] theorem startUnrle_latched : (startUnrle s).latched = false := rfl
@[simp] theorem startUnrle_inputs : (startUnrle s).inputs = s.inputs := rfl
@[simp] theorem startUnrle_observed : (startUnrle s).observed = s.observed := rfl

/-! ### takeInput -/

@[simp] theorem takeInput_cmd : s.takeInput.cmd = s.cmd := rfl
@[simp] theorem takeInput_status : s.takeInput.status = s.status := rfl
@[simp] theorem takeInput_result : s.takeInput.result = s.result := rfl
@[simp] theorem takeInput_args : s.takeInput.args = s.args := rfl
@[simp] theorem takeInput_unrleLen : s.takeInput.unrleLen = s.unrleLen := rfl
@[simp] theorem takeInput_dataPos : s.takeInput.dataPos = s.dataPos := rfl
@[simp] theorem takeInput_cur : s.takeInput.cur = s.cur := rfl
@[simp] theorem takeInput_scrValid : s.takeInput.scrValid = s.scrValid := rfl
@[simp] theorem takeInput_scratch : s.takeInput.scratch = s.scratch := rfl
@[simp] theorem takeInput_pending : s.takeInput.pending = s.pending := rfl
@[simp] theorem takeInput_mem : s.takeInput.mem = s.mem := rfl
@[simp] theorem takeInput_platform : s.takeInput.platform = s.platform := rfl
@[simp] theorem takeInput_draws : s.takeInput.draws = s.draws := rfl
@[simp] theorem takeInput_scratchEpoch : s.takeInput.scratchEpoch = s.scratchEpoch := rfl
@[simp] theorem takeInput_raced : s.takeInput.raced = s.raced := rfl
@[simp] theorem takeInput_unstable : s.takeInput.unstable = s.unstable := rfl
@[simp] theorem takeInput_latched : s.takeInput.latched = s.latched := rfl
@[simp] theorem takeInput_inputs : s.takeInput.inputs = s.inputs.tail := rfl
@[simp] theorem takeInput_observed : s.takeInput.observed = s.observed := rfl

/-! ### The flag records -/

@[simp] theorem completedStatus_busy (c : Code) : (completedStatus c).busy = false := rfl
@[simp] theorem completedStatus_done (c : Code) : (completedStatus c).done = true := rfl
@[simp] theorem completedStatus_code (c : Code) : (completedStatus c).code = c := rfl
@[simp] theorem acceptedStatus_busy : acceptedStatus.busy = true := rfl
@[simp] theorem acceptedStatus_done : acceptedStatus.done = false := rfl
@[simp] theorem acceptedStatus_code : acceptedStatus.code = .pending := rfl
@[simp] theorem freshCursor_addr (a n : Word) : (freshCursor a n).addr = a := rfl
@[simp] theorem freshCursor_rem (a n : Word) : (freshCursor a n).rem = n := rfl
@[simp] theorem freshCursor_bit (a n : Word) : (freshCursor a n).bit = 0#3 := rfl
@[simp] theorem freshCursor_exh (a n : Word) : (freshCursor a n).exh = false := rfl
@[simp] theorem exhaustedCursor_addr (c : Cursor) : (exhaustedCursor c).addr = c.addr := rfl
@[simp] theorem exhaustedCursor_rem (c : Cursor) : (exhaustedCursor c).rem = c.rem := rfl
@[simp] theorem exhaustedCursor_bit (c : Cursor) : (exhaustedCursor c).bit = c.bit := rfl
@[simp] theorem exhaustedCursor_exh (c : Cursor) : (exhaustedCursor c).exh = true := rfl
@[simp] theorem advancedCursor_exh (c : Cursor) : (advancedCursor c).exh = c.exh := by
  unfold advancedCursor; split <;> rfl

/-! ### Idempotence -/

@[simp] theorem complete_complete (c d : Code) : complete c (complete d s) = complete c s := rfl
@[simp] theorem setCursor_setCursor (c d : Cursor) : setCursor c (setCursor d s) = setCursor c s := rfl
@[simp] theorem setMem_setMem (m n : Memory) : setMem m (setMem n s) = setMem m s := rfl
@[simp] theorem setCursor_self : setCursor s.cur s = s := rfl
@[simp] theorem setMem_self : setMem s.mem s = s := rfl

end Sys2Proof.Machine
end

