-- ==== Sys2Proof/Laws/Ops.lean ====
section
/-! SUPPORT. The shared operations: what a piece of pseudocode can do, said once for each (`Res.Sat`), and the two frames
they have: the cursor's and host memory's. -/

namespace Sys2Proof.Machine

/-! ### How pseudocode goes on -/

variable {α β : Type}

@[simp] theorem andThen_ok (a : α) (s : State) (k : α → State → Res β) : (Res.ok a s).andThen k = k a s := rfl
@[simp] theorem andThen_fail (c : Code) (s : State) (k : α → State → Res β) : (Res.fail c s).andThen k = .fail c s := rfl
@[simp] theorem andThen_stop (f : Fault) (k : α → State → Res β) : (Res.stop f).andThen k = .stop f := rfl

theorem andThen_assoc {γ : Type} (r : Res α) (k : α → State → Res β) (l : β → State → Res γ) :
    (r.andThen k).andThen l = r.andThen fun a s => (k a s).andThen l := by cases r <;> rfl

@[simp] theorem finish_ok (s : State) : finish (.ok () s) = .next (complete .success s) := rfl
@[simp] theorem finish_fail (c : Code) (s : State) : finish (.fail c s) = .next (complete c s) := rfl
@[simp] theorem finish_stop (f : Fault) : finish (.stop f) = .fault f := rfl
@[simp] theorem releasing_ok (s : State) : releasing (.ok () s) = .ok () (release s) := rfl
@[simp] theorem releasing_fail (c : Code) (s : State) : releasing (.fail c s) = .fail c (release s) := rfl
@[simp] theorem releasing_stop (f : Fault) : releasing (.stop f) = .stop f := rfl
@[simp] theorem latching_ok (s : State) : latching (.ok () s) = .ok () (latchCursor s) := rfl
@[simp] theorem latching_fail (c : Code) (s : State) : latching (.fail c s) = .fail c (latchCursor s) := rfl
@[simp] theorem latching_stop (f : Fault) : latching (.stop f) = .stop f := rfl

theorem checked_none {tests : List (Bool × Code)} (h : firstFailure tests = none) (k : State → Res Unit) (s : State) :
    checked tests k s = k s := by simp [checked, h]

theorem checked_some {tests : List (Bool × Code)} {c : Code} (h : firstFailure tests = some c)
    (k : State → Res Unit) (s : State) : checked tests k s = .fail c s := by simp [checked, h]

@[simp] theorem firstFailure_nil : firstFailure [] = none := rfl

@[simp] theorem firstFailure_cons (b : Bool) (c : Code) (rest : List (Bool × Code)) :
    firstFailure ((b, c) :: rest) = if b then some c else firstFailure rest := by cases b <;> rfl

theorem firstFailure_append (l m : List (Bool × Code)) :
    firstFailure (l ++ m) = match firstFailure l with | some c => some c | none => firstFailure m := by
  induction l with
  | nil => rfl
  | cons p l ih =>
    obtain ⟨b, c⟩ := p
    rw [List.cons_append, firstFailure_cons, firstFailure_cons, ih]
    cases b <;> simp

/-! ### Saying once what a piece of pseudocode can do -/

/-- Whatever the end of a piece of pseudocode, it is one of those described: a value and a state (`Q`), a failure with
its state (`F`), an access without a step (`X`). -/
def Res.Sat (r : Res α) (Q : α → State → Prop) (F : Code → State → Prop) (X : Fault → Prop) : Prop :=
  match r with
  | .ok a s => Q a s
  | .fail c s => F c s
  | .stop f => X f

section Sat
variable {Q Q' : α → State → Prop} {F F' : Code → State → Prop} {X X' : Fault → Prop}

@[simp] theorem sat_ok (a : α) (s : State) : (Res.ok a s).Sat Q F X ↔ Q a s := Iff.rfl
@[simp] theorem sat_fail (c : Code) (s : State) : (Res.fail c s : Res α).Sat Q F X ↔ F c s := Iff.rfl
@[simp] theorem sat_stop (f : Fault) : (Res.stop f : Res α).Sat Q F X ↔ X f := Iff.rfl

theorem Res.Sat.mono {r : Res α} (h : r.Sat Q F X) (hQ : ∀ a s, Q a s → Q' a s) (hF : ∀ c s, F c s → F' c s)
    (hX : ∀ f, X f → X' f) : r.Sat Q' F' X' := by
  cases r with
  | ok a s => exact hQ a s h
  | fail c s => exact hF c s h
  | stop f => exact hX f h

/-- One piece after another: what the first can end in, the second starts from. -/
theorem Res.Sat.andThen {R : β → State → Prop} {r : Res α} {k : α → State → Res β} (h : r.Sat Q F X)
    (hk : ∀ a s, Q a s → (k a s).Sat R F X) : (r.andThen k).Sat R F X := by
  cases r with
  | ok a s => exact hk a s h
  | fail c s => exact h
  | stop f => exact h

theorem Res.Sat.of_ok {r : Res α} {a : α} {s : State} (h : r.Sat Q F X) (he : r = .ok a s) : Q a s := by
  subst he; exact h

theorem Res.Sat.of_fail {r : Res α} {c : Code} {s : State} (h : r.Sat Q F X) (he : r = .fail c s) : F c s := by
  subst he; exact h

theorem Res.Sat.of_stop {r : Res α} {f : Fault} (h : r.Sat Q F X) (he : r = .stop f) : X f := by subst he; exact h

/-- A loop keeps what every turn of it keeps. -/
theorem forUp_sat {P : Nat → State → Prop} {body : Nat → State → Res Unit}
    (hbody : ∀ i s, P i s → (body i s).Sat (fun _ t => P (i + 1) t) F X) :
    ∀ (n i : Nat) (s : State), P i s → (forUp n i body s).Sat (fun _ t => P (i + n) t) F X
  | 0, _, _, h => h
  | n + 1, i, s, h => by
    refine (hbody i s h).andThen fun _ t ht => ?_
    have := forUp_sat hbody n (i + 1) t ht
    rwa [show i + 1 + n = i + (n + 1) by omega] at this

/-- The same, for a loop whose turns need to know that their index is in range. -/
theorem forUp_sat_range {P : Nat → State → Prop} {body : Nat → State → Res Unit} {last : Nat}
    (hbody : ∀ i s, i < last → P i s → (body i s).Sat (fun _ t => P (i + 1) t) F X) :
    ∀ (n i : Nat) (s : State), i + n ≤ last → P i s → (forUp n i body s).Sat (fun _ t => P (i + n) t) F X
  | 0, _, _, _, h => h
  | n + 1, i, s, hn, h => by
    refine (hbody i s (by omega) h).andThen fun _ t ht => ?_
    have := forUp_sat_range hbody n (i + 1) t (by omega) ht
    rwa [show i + 1 + n = i + (n + 1) by omega] at this

end Sat

theorem forUp_zero (i : Nat) (body : Nat → State → Res Unit) (s : State) : forUp 0 i body s = .ok () s := rfl

theorem forUp_succ (n i : Nat) (body : Nat → State → Res Unit) (s : State) :
    forUp (n + 1) i body s = (body i s).andThen fun _ t => forUp n (i + 1) body t := rfl

/-- A loop is its first turns and then the others. -/
theorem forUp_add (body : Nat → State → Res Unit) :
    ∀ (m n i : Nat) (s : State),
      forUp (m + n) i body s = (forUp m i body s).andThen fun _ t => forUp n (i + m) body t
  | 0, n, i, s => by simp [forUp]
  | m + 1, n, i, s => by
    rw [show m + 1 + n = m + n + 1 by omega, forUp_succ, forUp_succ, andThen_assoc]
    congr 1
    funext _ t
    rw [forUp_add body m n (i + 1) t, show i + 1 + m = i + (m + 1) by omega]

/-! ### The two frames -/

/-- Only host memory and the counter of free values differ. -/
def memFrame (s t : State) : Prop := t = { s with mem := t.mem, draws := t.draws }

/-- Only the cursor and the counter of free values differ. -/
def cursorFrame (s t : State) : Prop := t = { s with cur := t.cur, draws := t.draws }

theorem memFrame.refl (s : State) : memFrame s s := rfl
theorem cursorFrame.refl (s : State) : cursorFrame s s := rfl

theorem memFrame.trans {s t u : State} (h : memFrame s t) (k : memFrame t u) : memFrame s u := by
  unfold memFrame at *; rw [k, h]

theorem cursorFrame.trans {s t u : State} (h : cursorFrame s t) (k : cursorFrame t u) : cursorFrame s u := by
  unfold cursorFrame at *; rw [k, h]

theorem memFrame_setMem (m : Memory) (s : State) : memFrame s (setMem m s) := rfl
theorem memFrame_drawOne (s : State) : memFrame s (drawOne s) := rfl
theorem cursorFrame_setCursor (c : Cursor) (s : State) : cursorFrame s (setCursor c s) := rfl
theorem cursorFrame_drawOne (s : State) : cursorFrame s (drawOne s) := rfl

section Frames
variable {s t : State}

theorem memFrame.cmd (h : memFrame s t) : t.cmd = s.cmd := by rw [h]
theorem memFrame.status (h : memFrame s t) : t.status = s.status := by rw [h]
theorem memFrame.result (h : memFrame s t) : t.result = s.result := by rw [h]
theorem memFrame.args (h : memFrame s t) : t.args = s.args := by rw [h]
theorem memFrame.unrleLen (h : memFrame s t) : t.unrleLen = s.unrleLen := by rw [h]
theorem memFrame.dataPos (h : memFrame s t) : t.dataPos = s.dataPos := by rw [h]
theorem memFrame.cur (h : memFrame s t) : t.cur = s.cur := by rw [h]
theorem memFrame.scrValid (h : memFrame s t) : t.scrValid = s.scrValid := by rw [h]
theorem memFrame.scratch (h : memFrame s t) : t.scratch = s.scratch := by rw [h]
theorem memFrame.scratchEpoch (h : memFrame s t) : t.scratchEpoch = s.scratchEpoch := by rw [h]
theorem memFrame.pending (h : memFrame s t) : t.pending = s.pending := by rw [h]
theorem memFrame.platform (h : memFrame s t) : t.platform = s.platform := by rw [h]
theorem memFrame.raced (h : memFrame s t) : t.raced = s.raced := by rw [h]
theorem memFrame.unstable (h : memFrame s t) : t.unstable = s.unstable := by rw [h]
theorem memFrame.latched (h : memFrame s t) : t.latched = s.latched := by rw [h]
theorem memFrame.inputs (h : memFrame s t) : t.inputs = s.inputs := by rw [h]
theorem memFrame.observed (h : memFrame s t) : t.observed = s.observed := by rw [h]

theorem cursorFrame.cmd (h : cursorFrame s t) : t.cmd = s.cmd := by rw [h]
theorem cursorFrame.status (h : cursorFrame s t) : t.status = s.status := by rw [h]
theorem cursorFrame.result (h : cursorFrame s t) : t.result = s.result := by rw [h]
theorem cursorFrame.args (h : cursorFrame s t) : t.args = s.args := by rw [h]
theorem cursorFrame.unrleLen (h : cursorFrame s t) : t.unrleLen = s.unrleLen := by rw [h]
theorem cursorFrame.dataPos (h : cursorFrame s t) : t.dataPos = s.dataPos := by rw [h]
theorem cursorFrame.mem (h : cursorFrame s t) : t.mem = s.mem := by rw [h]
theorem cursorFrame.scrValid (h : cursorFrame s t) : t.scrValid = s.scrValid := by rw [h]
theorem cursorFrame.scratch (h : cursorFrame s t) : t.scratch = s.scratch := by rw [h]
theorem cursorFrame.scratchEpoch (h : cursorFrame s t) : t.scratchEpoch = s.scratchEpoch := by rw [h]
theorem cursorFrame.pending (h : cursorFrame s t) : t.pending = s.pending := by rw [h]
theorem cursorFrame.platform (h : cursorFrame s t) : t.platform = s.platform := by rw [h]
theorem cursorFrame.raced (h : cursorFrame s t) : t.raced = s.raced := by rw [h]
theorem cursorFrame.unstable (h : cursorFrame s t) : t.unstable = s.unstable := by rw [h]
theorem cursorFrame.latched (h : cursorFrame s t) : t.latched = s.latched := by rw [h]
theorem cursorFrame.inputs (h : cursorFrame s t) : t.inputs = s.inputs := by rw [h]
theorem cursorFrame.observed (h : cursorFrame s t) : t.observed = s.observed := by rw [h]

end Frames

/-! ### Byte accesses -/

/-- A read of a byte: backed, it gives a value and may draw one; not backed, it has no step. It never fails. -/
theorem readByte_sat (u : List Nat) (a : Word) (s : State) :
    (readByte u a s).Sat (fun _ t => backs s.platform a.toNat = true ∧ (t = s ∨ t = drawOne s))
      (fun _ _ => False) (fun f => f = .engineOutsideHostMemory ∧ backs s.platform a.toNat = false) := by
  unfold readByte
  split
  · rename_i h
    split
    · exact ⟨h, .inr rfl⟩
    · exact ⟨h, .inl rfl⟩
  · rename_i h; exact ⟨rfl, by simpa using h⟩

/-- A read of a settled, backed byte is a read of host memory. -/
theorem readByte_settled {u : List Nat} {a : Word} {s : State} (hb : backs s.platform a.toNat = true)
    (hu : a.toNat ∉ u) : readByte u a s = .ok (Memory.read s.mem a.toNat) s := by
  simp [readByte, hb, hu]

theorem memRead_sat (a : Word) (s : State) :
    (memRead a s).Sat (fun _ t => backs s.platform a.toNat = true ∧ (t = s ∨ t = drawOne s))
      (fun _ _ => False) (fun f => f = .engineOutsideHostMemory ∧ backs s.platform a.toNat = false) :=
  readByte_sat _ a s

theorem memRead_settled {a : Word} {s : State} (hb : backs s.platform a.toNat = true) (hr : a.toNat ∉ s.raced) :
    memRead a s = .ok (Memory.read s.mem a.toNat) s := readByte_settled hb hr

/-- A write of a byte: backed, it writes exactly that byte; not backed, it has no step. It never fails. -/
theorem memWrite_sat (a : Word) (v : Byte) (s : State) :
    (memWrite a v s).Sat
      (fun _ t => backs s.platform a.toNat = true ∧ t = setMem (Memory.write s.mem a.toNat v) s)
      (fun _ _ => False) (fun f => f = .engineOutsideHostMemory ∧ backs s.platform a.toNat = false) := by
  unfold memWrite
  split
  · rename_i h; exact ⟨h, rfl⟩
  · rename_i h; exact ⟨rfl, by simpa using h⟩

theorem memWrite_backed {a : Word} {s : State} (hb : backs s.platform a.toNat = true) (v : Byte) :
    memWrite a v s = .ok () (setMem (Memory.write s.mem a.toNat v) s) := by simp [memWrite, hb]

/-! ### What the Host wrote -/

theorem mem_addOnce {a b : Nat} {l : List Nat} : b ∈ addOnce a l ↔ b = a ∨ b ∈ l := by
  unfold addOnce
  split
  · rename_i h
    have ha : a ∈ l := by simpa using h
    exact ⟨.inr, fun h => h.elim (fun hb => hb ▸ ha) id⟩
  · exact List.mem_cons

theorem mem_foldr_addOnce {b : Nat} {m : List Nat} : ∀ l : List Nat, b ∈ l.foldr addOnce m ↔ b ∈ m ∨ b ∈ l
  | [] => by simp
  | a :: l => by rw [List.foldr_cons, mem_addOnce, mem_foldr_addOnce l, List.mem_cons]; tauto

/-- Of the bytes the Host wrote, those that may be latched become unstable, and no others (R71 item 1, R75). -/
theorem mem_latchWrites {b : Nat} (l : List Nat) (s : State) :
    b ∈ (latchWrites l s).unstable ↔ b ∈ s.unstable ∨ b ∈ l ∧ mayBeLatched s b = true := by
  rw [latchWrites_unstable, mem_foldr_addOnce, List.mem_filter]

@[simp] theorem latchWrites_nil (s : State) : latchWrites [] s = s := rfl

theorem endRace_quiet {s : State} (h : s.raced = []) : endRace s = s := by
  unfold endRace
  rw [h, latchWrites_nil, ← h]

end Sys2Proof.Machine
end

