-- ==== Sys2Proof/Laws/BitReader.lean ====
section
/-! SUPPORT. The cursor: what `getBit` and `getGamma` can do (spec/40_bitreader.md R110, R111), that the fuel of the
unary count never runs out (R111), and what they read from bits that stand ahead (R85, R117). -/

namespace Sys2Proof.Machine

theorem cursorOk_fresh {a n : Word} (h : addrOK a n = true) : cursorOk (freshCursor a n) := by
  refine ⟨by simp, by simp, ?_⟩
  simpa [addrOK] using h

theorem word_ne_zero {w : Word} (h : w ≠ 0#32) : 0 < w.toNat := by
  have : w.toNat ≠ 0 := fun h0 => h (BitVec.eq_of_toNat_eq (by simpa using h0))
  omega

theorem sub_one_toNat {w : Word} (h : w ≠ 0#32) : (w - 1#32).toNat = w.toNat - 1 := by
  have := word_ne_zero h
  have := w.isLt
  rw [BitVec.toNat_sub]
  simp
  omega

theorem bit_le (b : BitVec 3) : b.toNat ≤ 7 := by have := b.isLt; omega

theorem bit_succ_toNat {b : BitVec 3} (h : b ≠ 7#3) : (b + 1#3).toNat = b.toNat + 1 := by
  have hb := bit_le b
  have : b.toNat ≠ 7 := fun h7 => h (BitVec.eq_of_toNat_eq (by simpa using h7))
  rw [BitVec.toNat_add]
  simp
  omega

theorem cursorOk_exhausted {c : Cursor} (h : cursorOk c) (h0 : c.rem = 0#32) : cursorOk (exhaustedCursor c) :=
  ⟨fun _ => h0, h.2.1, h.2.2⟩

theorem cursorOk_advanced {c : Cursor} (h : cursorOk c) (h0 : c.rem ≠ 0#32) : cursorOk (advancedCursor c) := by
  have hp := word_ne_zero h0
  obtain ⟨h1, _, h3⟩ := h
  unfold advancedCursor
  split
  · refine ⟨fun he => absurd (h1 he) h0, fun _ => rfl, ?_⟩
    simp only [sub_one_toNat h0, BitVec.toNat_add]
    simp only [Config.addressCount] at h3 ⊢
    simp
    omega
  · exact ⟨h1, fun he => absurd he h0, h3⟩

/-- One genuine bit is one bit fewer ahead. -/
theorem bitsLeft_advanced {c : Cursor} (h0 : c.rem ≠ 0#32) : bitsLeft (advancedCursor c) + 1 = bitsLeft c := by
  have hp := word_ne_zero h0
  have hb := bit_le c.bit
  unfold bitsLeft advancedCursor
  split
  · rename_i h7
    simp only [sub_one_toNat h0, h7]
    simp
    omega
  · rename_i h7
    have : c.bit.toNat ≠ 7 := fun h => h7 (BitVec.eq_of_toNat_eq (by simpa using h))
    simp only [bit_succ_toNat h7]
    omega

theorem bitsLeft_zero {c : Cursor} (h0 : c.rem = 0#32) : bitsLeft c = 0 := by simp [bitsLeft, h0]

theorem bitsLeft_pos {c : Cursor} (h0 : c.rem ≠ 0#32) : 0 < bitsLeft c := by
  have := bitsLeft_advanced h0; omega

theorem cursorBacked_addr {s : State} (h : cursorBacked s) (h0 : s.cur.rem ≠ 0#32) :
    backs s.platform s.cur.addr.toNat = true := by
  have := h 0 (word_ne_zero h0); simpa using this

/-- What holds of every byte the cursor has left holds of every byte it has left one bit further on. -/
theorem advanced_left {c : Cursor} {P : Word → Prop} (h : ∀ i < c.rem.toNat, P (addrAt c.addr i)) (h0 : c.rem ≠ 0#32) :
    ∀ i < (advancedCursor c).rem.toNat, P (addrAt (advancedCursor c).addr i) := by
  intro i hi
  have hr := word_ne_zero h0
  unfold advancedCursor at hi ⊢
  split
  · rename_i h7
    rw [if_pos h7] at hi
    simp only [sub_one_toNat h0] at hi
    rw [← addrAt_one, addrAt_add]
    exact h (1 + i) (by omega)
  · rename_i h7
    rw [if_neg h7] at hi
    exact h i hi

theorem cursorBacked_advanced {s t : State} (h : cursorBacked s) (h0 : s.cur.rem ≠ 0#32)
    (hp : t.platform = s.platform) (hc : t.cur = advancedCursor s.cur) : cursorBacked t := by
  unfold cursorBacked backedRegion
  rw [hp, hc]
  exact advanced_left (P := fun a => backs s.platform a.toNat = true) h h0

/-- What one bit read can do (R110). With no byte left it is the terminal 1 and marks exhaustion; with one left the
cursor advances by one genuine bit. It never fails, and has no step only at an address outside HOST_MEMORY. -/
theorem getBit_sat (s : State) :
    (getBit s).Sat
      (fun b t => cursorFrame s t ∧
        ((s.cur.rem = 0#32 ∧ b = true ∧ t.cur = exhaustedCursor s.cur) ∨
          (s.cur.rem ≠ 0#32 ∧ t.cur = advancedCursor s.cur)))
      (fun _ _ => False)
      (fun f => f = .engineOutsideHostMemory ∧ s.cur.rem ≠ 0#32 ∧ backs s.platform s.cur.addr.toNat = false) := by
  unfold getBit
  split
  · rename_i h; exact ⟨rfl, .inl ⟨h, rfl, rfl⟩⟩
  · rename_i h
    unfold cursorRead
    refine ((readByte_sat _ _ s).mono (fun _ _ h => h) (fun _ _ h => h) fun f hf => ⟨hf.1, h, hf.2⟩).andThen ?_
    rintro b t ⟨_, rfl | rfl⟩
    · exact ⟨rfl, .inr ⟨h, rfl⟩⟩
    · exact ⟨rfl, .inr ⟨h, rfl⟩⟩

/-- What is kept from one bit read to the next: the frame, R36, and a backed region. -/
def cursorKept (s t : State) : Prop :=
  cursorFrame s t ∧ (cursorOk s.cur → cursorOk t.cur) ∧ (cursorBacked s → cursorBacked t)

theorem cursorKept.refl (s : State) : cursorKept s s := ⟨.refl s, id, id⟩

theorem cursorKept.trans {s t u : State} (h : cursorKept s t) (k : cursorKept t u) : cursorKept s u :=
  ⟨h.1.trans k.1, k.2.1 ∘ h.2.1, k.2.2 ∘ h.2.2⟩

theorem getBit_kept (s : State) :
    (getBit s).Sat
      (fun b t => cursorKept s t ∧ (b = false → bitsLeft t.cur + 1 = bitsLeft s.cur))
      (fun _ _ => False)
      (fun f => f = .engineOutsideHostMemory ∧ ¬ cursorBacked s) := by
  refine (getBit_sat s).mono ?_ (fun _ _ h => h) ?_
  · rintro b t ⟨hf, ⟨h0, hb, hc⟩ | ⟨h0, hc⟩⟩
    · refine ⟨⟨hf, fun h => hc ▸ cursorOk_exhausted h h0, fun h => ?_⟩, fun hb' => by simp [hb] at hb'⟩
      intro i hi
      rw [hc, exhaustedCursor_rem, h0] at hi
      simp at hi
    · exact ⟨⟨hf, fun h => hc ▸ cursorOk_advanced h h0, fun h => cursorBacked_advanced h h0 hf.platform hc⟩,
        fun _ => hc ▸ bitsLeft_advanced h0⟩
  · rintro f ⟨hf, h0, hb⟩
    exact ⟨hf, fun h => by simp [cursorBacked_addr h h0] at hb⟩

theorem gammaZeros_kept :
    ∀ (fuel digits : Nat) (s : State),
      (gammaZeros fuel digits s).Sat (fun d t => cursorKept s t ∧ digits ≤ d) (fun _ _ => False)
        (fun f => f = .engineOutsideHostMemory ∧ ¬ cursorBacked s)
  | 0, digits, s => ⟨.refl s, Nat.le_refl _⟩
  | n + 1, digits, s => by
    refine (getBit_kept s).andThen ?_
    rintro b t ⟨hk, _⟩
    cases b with
    | true => exact ⟨hk, Nat.le_refl _⟩
    | false =>
      refine (gammaZeros_kept n (digits + 1) t).mono ?_ (fun _ _ h => h) ?_
      · rintro d u ⟨hk', hd⟩; exact ⟨hk.trans hk', by omega⟩
      · rintro f ⟨hf, hb⟩; exact ⟨hf, fun h => hb (hk.2.2 h)⟩

theorem gammaBits_kept :
    ∀ (n value : Nat) (s : State),
      (gammaBits n value s).Sat (fun v t => cursorKept s t ∧ value ≤ v) (fun _ _ => False)
        (fun f => f = .engineOutsideHostMemory ∧ ¬ cursorBacked s)
  | 0, value, s => ⟨.refl s, Nat.le_refl _⟩
  | n + 1, value, s => by
    refine (getBit_kept s).andThen ?_
    rintro b t ⟨hk, _⟩
    refine (gammaBits_kept n _ t).mono ?_ (fun _ _ h => h) ?_
    · rintro v u ⟨hk', hv⟩
      refine ⟨hk.trans hk', Nat.le_trans ?_ hv⟩
      cases b
      · exact Nat.le_refl _
      · exact Nat.left_le_or
    · rintro f ⟨hf, hb⟩; exact ⟨hf, fun h => hb (hk.2.2 h)⟩

/-- Whatever fuel above the genuine bits left, the unary count ends the same: it always ends at a 1, the terminal one at
the latest, so `getGamma`'s fuel is no limit (R111). -/
theorem gammaZeros_fuel :
    ∀ (fuel fuel' digits : Nat) (s : State), bitsLeft s.cur < fuel → bitsLeft s.cur < fuel' →
      gammaZeros fuel digits s = gammaZeros fuel' digits s
  | 0, _, _, _, h, _ => absurd h (Nat.not_lt_zero _)
  | _ + 1, 0, _, _, _, h => absurd h (Nat.not_lt_zero _)
  | n + 1, m + 1, digits, s, hn, hm => by
    unfold gammaZeros
    have hs := getBit_kept s
    cases hg : getBit s with
    | ok b t =>
      obtain ⟨_, hb⟩ := hs.of_ok hg
      cases b with
      | true => rfl
      | false =>
        have := hb rfl
        exact gammaZeros_fuel n m (digits + 1) t (by omega) (by omega)
    | fail c t => rfl
    | stop f => rfl

theorem bitsLeft_lt_fuel (c : Cursor) : bitsLeft c < 8 * c.rem.toNat + 1 := by unfold bitsLeft; omega

theorem gammaResult_cases (exh : Bool) (digits value : Nat) :
    gammaResult exh digits value = Config.gammaInvalid ∨
      (exh = false ∧ digits < 32 ∧ gammaResult exh digits value = BitVec.ofNat 32 value) := by
  unfold gammaResult Config.gammaWidth
  cases exh with
  | true => exact .inl rfl
  | false =>
    by_cases h : 32 ≤ digits
    · simp [h]
    · right; exact ⟨rfl, by omega, by simp [h]⟩

/-- The explicit bits stay below the next power of two. -/
theorem gammaBits_lt :
    ∀ (n value m : Nat) (s : State), value < 2 ^ m → n ≤ m →
      (gammaBits n value s).Sat (fun v _ => v < 2 ^ m) (fun _ _ => False) (fun _ => True)
  | 0, value, m, s, h, _ => h
  | n + 1, value, m, s, h, hn => by
    refine Res.Sat.andThen (Q := fun _ _ => True)
      ((getBit_sat s).mono (fun _ _ _ => trivial) (fun _ _ h => h) fun _ _ => trivial) ?_
    rintro b t -
    refine gammaBits_lt n _ m t ?_ (by omega)
    cases b
    · exact h
    · exact Nat.or_lt_two_pow h (Nat.pow_lt_pow_right (by omega) (by omega))

/-- What a gamma decode can do (R111): it moves the cursor only, never fails, has no step only outside HOST_MEMORY, and
its result is never 0. -/
theorem getGamma_kept (s : State) :
    (getGamma s).Sat (fun w t => cursorKept s t ∧ w ≠ 0#32) (fun _ _ => False)
      (fun f => f = .engineOutsideHostMemory ∧ ¬ cursorBacked s) := by
  unfold getGamma
  refine (gammaZeros_kept _ 0 s).andThen ?_
  rintro digits t ⟨hk, _⟩
  have hlt := gammaBits_lt digits (2 ^ digits) (digits + 1) t (Nat.pow_lt_pow_right (by omega) (by omega)) (by omega)
  have hks := gammaBits_kept digits (2 ^ digits) t
  cases hg : gammaBits digits (2 ^ digits) t with
  | fail c u => exact (hks.of_fail hg).elim
  | stop f =>
    obtain ⟨hf, hb⟩ := hks.of_stop hg
    exact ⟨hf, fun h => hb (hk.2.2 h)⟩
  | ok v u =>
    obtain ⟨hk', hv⟩ := hks.of_ok hg
    have hv' := hlt.of_ok hg
    refine ⟨hk.trans hk', ?_⟩
    rcases gammaResult_cases u.cur.exh digits v with h | ⟨_, hd, h⟩
    · rw [h]; decide
    · rw [h]
      intro h0
      have h1 := congrArg BitVec.toNat h0
      have h2 : (2 : Nat) ^ (digits + 1) ≤ 2 ^ 32 := Nat.pow_le_pow_right (by omega) (by omega)
      have h3 : 0 < 2 ^ digits := Nat.two_pow_pos _
      simp only [BitVec.toNat_ofNat, Nat.zero_mod] at h1
      rw [Nat.mod_eq_of_lt (by omega)] at h1
      omega

end Sys2Proof.Machine
end

