-- ==== Sys2Proof/Laws/Deinterleave.lean ====
section
/-! SUPPORT. The PlaneDeinterleaver: what its three steps can do (spec/42_deinterleave.md R183, spec/20_memory.md R63),
and the bytes each leaves when its accesses have a step (R171 to R173). -/

namespace Sys2Proof.Machine

/-! ### One byte of OUT -/

/-- What a piece that only writes OUT below UNRLE_LEN keeps: the frame, the canonical form, and every other host byte
(R63, R183). -/
def outKept (s t : State) : Prop :=
  memFrame s t ∧ (Memory.wf s.mem = true → Memory.wf t.mem = true) ∧
    sameOutside s.args.outAddr s.unrleLen.toNat s t

theorem outKept.refl (s : State) : outKept s s := ⟨.refl s, id, fun _ _ => rfl⟩

theorem outKept.trans {s t u : State} (h : outKept s t) (k : outKept t u) : outKept s u := by
  refine ⟨h.1.trans k.1, k.2.1 ∘ h.2.1, fun a ha => ?_⟩
  have hk := k.2.2
  rw [h.1.args, h.1.unrleLen] at hk
  rw [hk a ha, h.2.2 a ha]

theorem outKept.backed {s t : State} (h : outKept s t) : outBacked s → outBacked t := by
  unfold outBacked
  rw [h.1.platform, h.1.args, h.1.unrleLen]
  exact id

theorem byteAt_setMem {s : State} (hw : Memory.wf s.mem = true) (a b : Word) (v : Byte) :
    (setMem (Memory.write s.mem a.toNat v) s).byteAt b = if b = a then v else s.byteAt b := by
  unfold State.byteAt
  rw [setMem_mem, Memory.read_write hw]
  by_cases h : b = a
  · simp [h]
  · have : b.toNat ≠ a.toNat := fun hn => h (BitVec.eq_of_toNat_eq hn)
    simp [h, this]

theorem byteAt_setMem_ne {s : State} {a b : Word} (h : b ≠ a) (v : Byte) :
    (setMem (Memory.write s.mem a.toNat v) s).byteAt b = s.byteAt b :=
  Memory.read_write_ne (fun hn => h (BitVec.eq_of_toNat_eq hn)) v s.mem

theorem outByte_setMem {s : State} (hw : Memory.wf s.mem = true) {i k : Nat} (hi : i < 4294967296)
    (hk : k < 4294967296) (v : Byte) :
    (setMem (Memory.write s.mem (addrAt s.args.outAddr i).toNat v) s).outByte k = if k = i then v else s.outByte k := by
  unfold State.outByte
  rw [setMem_args, byteAt_setMem hw]
  by_cases h : k = i
  · simp [h]
  · rw [if_neg h, if_neg fun h' => h (addrAt_inj hk hi h')]

/-- A write of a byte of OUT below UNRLE_LEN. -/
theorem memWrite_outKept {s t : State} (h : outKept s t) {i : Nat} (hi : i < s.unrleLen.toNat) (v : Byte) :
    (memWrite (addrAt t.args.outAddr i) v t).Sat (fun _ u => outKept s u) (fun _ _ => False)
      (fun f => f = .engineOutsideHostMemory ∧ ¬ outBacked s) := by
  refine (memWrite_sat _ v t).mono ?_ (fun _ _ h => h) ?_
  · rintro _ u ⟨_, rfl⟩
    refine h.trans ⟨memFrame_setMem _ _, fun hw => Memory.wf_write hw _ v, fun a ha => ?_⟩
    refine byteAt_setMem_ne ?_ v
    rw [h.1.unrleLen] at ha
    exact ha i hi
  · rintro f ⟨hf, hb⟩
    refine ⟨hf, fun ho => ?_⟩
    have := h.backed ho i (by rw [h.1.unrleLen]; exact hi)
    rw [this] at hb
    exact Bool.noConfusion hb

/-- A read of a byte of OUT below UNRLE_LEN. -/
theorem memRead_outKept {s t : State} (h : outKept s t) {i : Nat} (hi : i < s.unrleLen.toNat) :
    (memRead (addrAt t.args.outAddr i) t).Sat (fun _ u => outKept s u) (fun _ _ => False)
      (fun f => f = .engineOutsideHostMemory ∧ ¬ outBacked s) := by
  refine (memRead_sat _ t).mono ?_ (fun _ _ h => h) ?_
  · rintro b u ⟨_, rfl | rfl⟩
    · exact h
    · exact h.trans ⟨rfl, id, fun _ _ => rfl⟩
  · rintro f ⟨hf, hb⟩
    refine ⟨hf, fun ho => ?_⟩
    have := h.backed ho i (by rw [h.1.unrleLen]; exact hi)
    rw [this] at hb
    exact Bool.noConfusion hb

/-- An update in place of a byte of OUT below UNRLE_LEN. -/
theorem addByte_outKept {s t : State} (h : outKept s t) {i j : Nat} (hi : i < s.unrleLen.toNat)
    (hj : j < s.unrleLen.toNat) :
    (addByte i j t).Sat (fun _ u => outKept s u) (fun _ _ => False)
      (fun f => f = .engineOutsideHostMemory ∧ ¬ outBacked s) := by
  unfold addByte
  refine (memRead_outKept h hi).andThen fun x u hu => ?_
  have hout : t.args.outAddr = u.args.outAddr := by rw [h.1.args, hu.1.args]
  rw [show u.args = t.args by rw [h.1.args, hu.1.args], hout]
  refine (memRead_outKept hu hj).andThen fun y v hv => ?_
  rw [show v.args = t.args by rw [h.1.args, hv.1.args], hout, show u.args = v.args by rw [hu.1.args, hv.1.args]]
  exact memWrite_outKept hv hi (x + y)

/-! ### The three steps: what they can do -/

theorem regroupGroup_outKept {s t : State} (h : outKept s t) {j : Nat} (hj : j < s.unrleLen.toNat / 4) :
    (regroupGroup j t).Sat (fun _ u => outKept s u) (fun _ _ => False)
      (fun f => f = .engineOutsideHostMemory ∧ ¬ outBacked s) :=
  forUp_sat_range (P := fun _ u => outKept s u) (last := 4)
    (fun _ _ hk hu => memWrite_outKept hu (by omega) _) 4 0 t (by omega) h

/-- Step 1 writes OUT below UNRLE_LEN only, never fails, and has no step only outside HOST_MEMORY (R171). -/
theorem regroupCore_outKept (s : State) :
    (regroupCore s).Sat (fun _ t => outKept s t) (fun _ _ => False)
      (fun f => f = .engineOutsideHostMemory ∧ ¬ outBacked s) :=
  forUp_sat_range (P := fun _ u => outKept s u) (last := s.unrleLen.toNat / 4)
    (fun _ _ hj hu => regroupGroup_outKept hu hj) _ 0 s (by omega) (.refl s)

/-- Step 2 likewise (R172). -/
theorem hdeltaCore_outKept {s t : State} (h : outKept s t) :
    (hdeltaCore t).Sat (fun _ u => outKept s u) (fun _ _ => False)
      (fun f => f = .engineOutsideHostMemory ∧ ¬ outBacked s) := by
  unfold hdeltaCore
  rw [show t.args = s.args from h.1.args, show t.unrleLen = s.unrleLen from h.1.unrleLen]
  by_cases hd : s.args.depth.toNat ≤ min s.args.stride.toNat s.unrleLen.toNat
  · refine forUp_sat_range (P := fun _ u => outKept s u)
      (last := min s.args.stride.toNat s.unrleLen.toNat) (fun x u hx hu => ?_) _ _ t (by omega) h
    rw [show u.args = s.args from hu.1.args]
    exact addByte_outKept hu (by omega) (by omega)
  · rw [show min s.args.stride.toNat s.unrleLen.toNat - s.args.depth.toNat = 0 by omega]
    exact h

theorem vdeltaByte_outKept {s t : State} (h : outKept s t) (y x : Nat) :
    (vdeltaByte y x t).Sat (fun _ u => outKept s u) (fun _ _ => False)
      (fun f => f = .engineOutsideHostMemory ∧ ¬ outBacked s) := by
  unfold vdeltaByte
  split
  · rename_i hi
    rw [h.1.unrleLen] at hi
    exact addByte_outKept h hi (by omega)
  · exact h

/-- Step 3 likewise (R173). -/
theorem vdeltaCore_outKept {s t : State} (h : outKept s t) :
    (vdeltaCore t).Sat (fun _ u => outKept s u) (fun _ _ => False)
      (fun f => f = .engineOutsideHostMemory ∧ ¬ outBacked s) :=
  forUp_sat (P := fun _ u => outKept s u)
    (fun y _ hu => forUp_sat (P := fun _ v => outKept s v) (fun x _ hv => vdeltaByte_outKept hv y x) _ 0 _ hu) _ 1 t h

/-- Steps 1 to 3 together (R180, R183). -/
theorem undeltaCore_outKept (s : State) :
    (undeltaCore s).Sat (fun _ t => outKept s t) (fun _ _ => False)
      (fun f => f = .engineOutsideHostMemory ∧ ¬ outBacked s) :=
  (regroupCore_outKept s).andThen fun _ _ ht =>
    (hdeltaCore_outKept ht).andThen fun _ _ hu => vdeltaCore_outKept hu

/-! ### The three steps: every byte they reach is backed -/

/-- The byte of OUT is backed. -/
def outByteBacked (s : State) (i : Nat) : Prop := backs s.platform (addrAt s.args.outAddr i).toNat = true

theorem outByteBacked_of {s t : State} (h : outKept s t) {i : Nat} :
    backs t.platform (addrAt t.args.outAddr i).toNat = true → outByteBacked s i := by
  unfold outByteBacked
  rw [h.1.platform, h.1.args]
  exact id

/-- A write of a byte of OUT that has a step. -/
theorem memWrite_reach {s t : State} (h : outKept s t) {i : Nat} (hi : i < s.unrleLen.toNat) (v : Byte) :
    (memWrite (addrAt t.args.outAddr i) v t).Sat (fun _ u => outKept s u ∧ outByteBacked s i) (fun _ _ => False)
      (fun f => f = .engineOutsideHostMemory) := by
  have hk := memWrite_outKept h hi v
  have hw := memWrite_sat (addrAt t.args.outAddr i) v t
  cases hr : memWrite (addrAt t.args.outAddr i) v t with
  | ok a u => exact ⟨hk.of_ok hr, outByteBacked_of h (hw.of_ok hr).1⟩
  | fail c u => exact (hk.of_fail hr).elim
  | stop f => exact (hk.of_stop hr).1

theorem memRead_reach {s t : State} (h : outKept s t) {i : Nat} (hi : i < s.unrleLen.toNat) :
    (memRead (addrAt t.args.outAddr i) t).Sat (fun _ u => outKept s u ∧ outByteBacked s i) (fun _ _ => False)
      (fun f => f = .engineOutsideHostMemory) := by
  have hk := memRead_outKept h hi
  have hw := memRead_sat (addrAt t.args.outAddr i) t
  cases hr : memRead (addrAt t.args.outAddr i) t with
  | ok a u => exact ⟨hk.of_ok hr, outByteBacked_of h (hw.of_ok hr).1⟩
  | fail c u => exact (hk.of_fail hr).elim
  | stop f => exact (hk.of_stop hr).1

/-- An update in place of a byte of OUT that has a step reached both bytes it adds (R172, R173). -/
theorem addByte_reach {s t : State} (h : outKept s t) {i j : Nat} (hi : i < s.unrleLen.toNat)
    (hj : j < s.unrleLen.toNat) :
    (addByte i j t).Sat (fun _ u => outKept s u ∧ outByteBacked s i ∧ outByteBacked s j) (fun _ _ => False)
      (fun f => f = .engineOutsideHostMemory) := by
  unfold addByte
  refine (memRead_reach h hi).andThen fun x u hu => ?_
  refine (memRead_reach hu.1 hj).andThen fun y v hv => ?_
  exact (memWrite_reach hv.1 hi (x + y)).mono (fun _ _ hw => ⟨hw.1, hw.2, hv.2⟩) (fun _ _ h => h) fun _ h => h

/-- Step 1 reaches every byte of OUT below UNRLE_LEN (R171). -/
theorem regroupCore_reach (s : State) (hq : s.unrleLen.toNat % 4 = 0) :
    (regroupCore s).Sat (fun _ _ => outBacked s) (fun _ _ => False) (fun f => f = .engineOutsideHostMemory) := by
  refine (forUp_sat_range (last := s.unrleLen.toNat / 4)
    (P := fun j t => outKept s t ∧ ∀ k < 4 * j, outByteBacked s k)
    (fun j t hj ht => forUp_sat_range (last := 4)
      (P := fun m u => outKept s u ∧ ∀ k < 4 * j + m, outByteBacked s k)
      (fun m u hm hu => (memWrite_reach hu.1 (by omega) _).mono (fun _ v hv => ⟨hv.1, fun k hk => ?_⟩)
        (fun _ _ h => h) fun _ h => h)
      4 0 t (by omega) ht)
    (s.unrleLen.toNat / 4) 0 s (by omega) ⟨.refl s, fun k hk => absurd hk (by omega)⟩).mono
    (fun _ t ht k hk => ht.2 k (by omega)) (fun _ _ h => h) fun _ h => h
  by_cases h : k = 4 * j + m
  · exact h ▸ hv.2
  · exact hu.2 k (by omega)

/-- Step 2 reaches each byte of row 0 it updates and the byte one pixel to its left (R172). -/
theorem hdeltaCore_reach (s : State) (hd : 0 < s.args.depth.toNat) :
    (hdeltaCore s).Sat
      (fun _ _ => ∀ x, s.args.depth.toNat ≤ x → x < min s.args.stride.toNat s.unrleLen.toNat →
        outByteBacked s x ∧ outByteBacked s (x - s.args.depth.toNat))
      (fun _ _ => False) (fun f => f = .engineOutsideHostMemory) := by
  unfold hdeltaCore
  by_cases hle : s.args.depth.toNat ≤ min s.args.stride.toNat s.unrleLen.toNat
  · refine (forUp_sat_range (last := min s.args.stride.toNat s.unrleLen.toNat)
      (P := fun n t => s.args.depth.toNat ≤ n ∧ outKept s t ∧ ∀ x, s.args.depth.toNat ≤ x → x < n →
        outByteBacked s x ∧ outByteBacked s (x - s.args.depth.toNat))
      (fun n t hn ⟨hdn, hk, ht⟩ => ?_) _ _ s (by omega) ⟨Nat.le_refl _, .refl s, fun x h1 h2 => absurd h2 (by omega)⟩).mono
      (fun _ t ht x h1 h2 => ht.2.2 x h1 (by omega)) (fun _ _ h => h) fun _ h => h
    rw [show t.args = s.args from hk.1.args]
    refine (addByte_reach hk (by omega) (by omega)).mono (fun _ u hu => ⟨by omega, hu.1, fun x h1 h2 => ?_⟩)
      (fun _ _ h => h) fun _ h => h
    by_cases h : x = n
    · exact h ▸ hu.2
    · exact ht x h1 (by omega)
  · rw [show min s.args.stride.toNat s.unrleLen.toNat - s.args.depth.toNat = 0 by omega]
    exact fun x h1 h2 => absurd h2 (by omega)

/-- Step 3 reaches each byte from the second row on and the byte above it (R173). -/
theorem vdeltaCore_reach (s : State) :
    (vdeltaCore s).Sat
      (fun _ _ => ∀ i, s.args.stride.toNat ≤ i →
        i < min (s.args.height.toNat * s.args.stride.toNat) s.unrleLen.toNat →
        outByteBacked s i ∧ outByteBacked s (i - s.args.stride.toNat))
      (fun _ _ => False) (fun f => f = .engineOutsideHostMemory) := by
  have hrow : ∀ y x t, 1 ≤ y → x < s.args.stride.toNat → (outKept s t ∧ ∀ i, s.args.stride.toNat ≤ i →
      i < y * s.args.stride.toNat + x → i < s.unrleLen.toNat →
      outByteBacked s i ∧ outByteBacked s (i - s.args.stride.toNat)) →
      (vdeltaByte y x t).Sat (fun _ u => outKept s u ∧ ∀ i, s.args.stride.toNat ≤ i →
        i < y * s.args.stride.toNat + (x + 1) → i < s.unrleLen.toNat →
        outByteBacked s i ∧ outByteBacked s (i - s.args.stride.toNat))
        (fun _ _ => False) (fun f => f = .engineOutsideHostMemory) := by
    intro y x t hy hx ⟨hk, ht⟩
    have hge : s.args.stride.toNat ≤ y * s.args.stride.toNat := Nat.le_mul_of_pos_left _ hy
    unfold vdeltaByte
    rw [show t.args = s.args from hk.1.args, show t.unrleLen = s.unrleLen from hk.1.unrleLen]
    split
    · rename_i hlt
      refine (addByte_reach hk hlt (by omega)).mono (fun _ u hu => ⟨hu.1, fun i h1 h2 h3 => ?_⟩)
        (fun _ _ h => h) fun _ h => h
      by_cases h : i = y * s.args.stride.toNat + x
      · exact h ▸ hu.2
      · exact ht i h1 (by omega) h3
    · rename_i hlt
      exact ⟨hk, fun i h1 h2 h3 => ht i h1 (by omega) h3⟩
  unfold vdeltaCore
  refine (forUp_sat_range (last := 1 + (s.args.height.toNat - 1)) (body := vdeltaRow)
    (P := fun y t => 1 ≤ y ∧ outKept s t ∧ ∀ i, s.args.stride.toNat ≤ i → i < y * s.args.stride.toNat →
      i < s.unrleLen.toNat → outByteBacked s i ∧ outByteBacked s (i - s.args.stride.toNat))
    (fun y t _ ht => ?_) _ 1 s (by omega)
    ⟨Nat.le_refl 1, .refl s, fun i h1 h2 => absurd h2 (by omega)⟩).mono
    (fun _ t ht i h1 h2 => ht.2.2 i h1 ?_ (by omega)) (fun _ _ h => h) fun _ h => h
  · unfold vdeltaRow
    rw [show t.args = s.args from ht.2.1.1.args]
    refine (forUp_sat_range (last := s.args.stride.toNat) (fun x u hx hu => hrow y x u ht.1 hx hu) _ 0 t (by omega)
      ⟨ht.2.1, ht.2.2⟩).mono (fun _ u hu => ⟨by omega, hu.1, ?_⟩) (fun _ _ h => h) fun _ h => h
    rw [Nat.succ_mul]
    simpa using hu.2
  · by_cases hh : s.args.height.toNat = 0
    · rw [hh, Nat.zero_mul] at h2; omega
    · rw [show 1 + (s.args.height.toNat - 1) = s.args.height.toNat by omega]; omega

/-! ### The three steps: what they leave -/

/-- A step that always ends well, by what it leaves. -/
def endsIn (r : Res Unit) (Q : State → Prop) : Prop := ∃ t, r = .ok () t ∧ Q t

theorem endsIn_of_sat {r : Res Unit} {Q : State → Prop} (h : r.Sat (fun _ t => Q t) (fun _ _ => False) fun _ => False) :
    endsIn r Q := by
  cases r with
  | ok a t => exact ⟨t, rfl, h⟩
  | fail c t => exact h.elim
  | stop f => exact h.elim

/-- Only host memory differs, it is canonical, and only below UNRLE_LEN in OUT. -/
def outOnly (s t : State) : Prop :=
  t = setMem t.mem s ∧ Memory.wf t.mem = true ∧ sameOutside s.args.outAddr s.unrleLen.toNat s t

theorem outOnly.refl {s : State} (h : outReady s) : outOnly s s := ⟨rfl, h.wf, fun _ _ => rfl⟩

theorem outOnly.ready {s t : State} (h : outOnly s t) (hr : outReady s) : outReady t := by
  refine ⟨?_, h.2.1⟩
  rw [h.1]
  exact ⟨hr.ready.settled, hr.ready.backed⟩

theorem outOnly.trans {s t u : State} (h : outOnly s t) (k : outOnly t u) : outOnly s u := by
  obtain ⟨h1, h2, h3⟩ := h
  obtain ⟨k1, k2, k3⟩ := k
  refine ⟨by rw [k1, h1]; rfl, k2, fun a ha => ?_⟩
  rw [k3 a (by rw [h1]; exact ha), h3 a ha]

theorem outOnly.args {s t : State} (h : outOnly s t) : t.args = s.args := by rw [h.1]; rfl
theorem outOnly.unrleLen {s t : State} (h : outOnly s t) : t.unrleLen = s.unrleLen := by rw [h.1]; rfl
theorem outOnly.scratchAt {s t : State} (h : outOnly s t) (i : Nat) : scratchAt t i = Machine.scratchAt s i := by
  rw [h.1]; rfl

/-- A settled write of a byte of OUT. -/
theorem memWrite_out {s t : State} (hr : outReady s) (h : outOnly s t) {i : Nat} (hi : i < s.unrleLen.toNat) (v : Byte) :
    ∃ u, memWrite (addrAt t.args.outAddr i) v t = .ok () u ∧ outOnly s u ∧
      ∀ k < 4294967296, u.outByte k = if k = i then v else t.outByte k := by
  have ht := h.ready hr
  have hlt := s.unrleLen.isLt
  refine ⟨_, memWrite_backed (ht.ready.backed i (by rw [h.unrleLen]; exact hi)) v, h.trans ⟨rfl, Memory.wf_write ht.wf _ v,
    fun a ha => byteAt_setMem_ne (ha i (by rw [h.unrleLen]; exact hi)) v⟩, fun k hk => ?_⟩
  exact outByte_setMem ht.wf (by omega) hk v

/-- A settled update in place of a byte of OUT. -/
theorem addByte_out {s t : State} (hr : outReady s) (h : outOnly s t) {i j : Nat} (hi : i < s.unrleLen.toNat)
    (hj : j < s.unrleLen.toNat) :
    ∃ u, addByte i j t = .ok () u ∧ outOnly s u ∧
      ∀ k < 4294967296, u.outByte k = if k = i then t.outByte i + t.outByte j else t.outByte k := by
  have ht := h.ready hr
  have hb := fun k (hk : k < s.unrleLen.toNat) => ht.ready.backed k (by rw [h.unrleLen]; exact hk)
  have hs := fun k (hk : k < s.unrleLen.toNat) => ht.ready.settled k (by rw [h.unrleLen]; exact hk)
  obtain ⟨u, hu, hou, hk⟩ := memWrite_out hr h hi (t.outByte i + t.outByte j)
  refine ⟨u, ?_, hou, hk⟩
  unfold addByte
  rw [memRead_settled (hb i hi) (hs i hi), andThen_ok, memRead_settled (hb j hj) (hs j hj), andThen_ok]
  exact hu

/-- Byte `4j + k` of Step 1's output (R171). -/
def regrouped (s : State) (i : Nat) : Byte := unpackValue (wordByte (groupWord (i / 4) s) (i % 4))

theorem groupWord_of_outOnly {s t : State} (h : outOnly s t) (j : Nat) : groupWord j t = groupWord j s := by
  unfold groupWord
  rw [h.unrleLen]
  simp only [h.scratchAt]

/-- What Step 1 leaves: every byte of OUT below UNRLE_LEN regrouped (R171, R92). -/
theorem regroupCore_out {s : State} (hr : outReady s) (hq : s.unrleLen.toNat % 4 = 0) :
    ∃ t, regroupCore s = .ok () t ∧ outOnly s t ∧
      ∀ k < 4294967296, t.outByte k = if k < s.unrleLen.toNat then regrouped s k else s.outByte k := by
  have hgroup : ∀ (j : Nat) (t : State), j < s.unrleLen.toNat / 4 →
      (outOnly s t ∧ ∀ k < 4294967296, t.outByte k = if k < 4 * j then regrouped s k else s.outByte k) →
      (regroupGroup j t).Sat
        (fun _ u => outOnly s u ∧ ∀ k < 4294967296, u.outByte k = if k < 4 * (j + 1) then regrouped s k else s.outByte k)
        (fun _ _ => False) (fun _ => False) := by
    intro j t hj ht
    have hloop := forUp_sat_range (F := fun _ _ => False) (X := fun _ => False) (last := 4)
      (P := fun m u => outOnly s u ∧
        ∀ k < 4294967296, u.outByte k = if k < 4 * j + m then regrouped s k else s.outByte k)
      (body := fun k u => memWrite (addrAt u.args.outAddr (4 * j + k)) (unpackValue (wordByte (groupWord j t) k)) u)
      (fun m u hm hu => by
        obtain ⟨v, hv, hov, hk⟩ := memWrite_out hr hu.1 (i := 4 * j + m) (by omega)
          (unpackValue (wordByte (groupWord j t) m))
        rw [hv]
        refine ⟨hov, fun k hk' => ?_⟩
        rw [hk k hk', hu.2 k hk']
        by_cases hki : k = 4 * j + m
        · rw [if_pos hki, if_pos (by omega), hki, regrouped, groupWord_of_outOnly ht.1,
            show (4 * j + m) / 4 = j by omega, show (4 * j + m) % 4 = m by omega]
        · rw [if_neg hki]
          by_cases hlt : k < 4 * j + m
          · rw [if_pos hlt, if_pos (by omega)]
          · rw [if_neg hlt, if_neg (by omega)])
      4 0 t (by omega) ht
    exact hloop
  have hloop := forUp_sat_range (F := fun _ _ => False) (X := fun _ => False) (last := s.unrleLen.toNat / 4)
    (P := fun j t => outOnly s t ∧ ∀ k < 4294967296, t.outByte k = if k < 4 * j then regrouped s k else s.outByte k)
    (fun j t hj ht => hgroup j t hj ht) (s.unrleLen.toNat / 4) 0 s (by omega)
    ⟨.refl hr, fun k _ => by simp⟩
  obtain ⟨t, ht, ho, hk⟩ := endsIn_of_sat hloop
  refine ⟨t, ht, ho, fun k hk' => ?_⟩
  rw [hk k hk', show 4 * (0 + s.unrleLen.toNat / 4) = s.unrleLen.toNat by omega]

/-- What Step 2 leaves: row 0 is a running sum, each byte added to the byte one pixel to its left (R172). -/
theorem hdeltaCore_out {s : State} (hr : outReady s) (hd : 0 < s.args.depth.toNat) :
    ∃ t, hdeltaCore s = .ok () t ∧ outOnly s t ∧
      ∀ k < 4294967296, t.outByte k =
        if s.args.depth.toNat ≤ k ∧ k < min s.args.stride.toNat s.unrleLen.toNat then
          s.outByte k + t.outByte (k - s.args.depth.toNat) else s.outByte k := by
  unfold hdeltaCore
  by_cases hle : s.args.depth.toNat ≤ min s.args.stride.toNat s.unrleLen.toNat
  · have hloop := forUp_sat_range (F := fun _ _ => False) (X := fun _ => False)
      (last := min s.args.stride.toNat s.unrleLen.toNat)
      (P := fun x t => s.args.depth.toNat ≤ x ∧ outOnly s t ∧ ∀ k < 4294967296, t.outByte k =
        if s.args.depth.toNat ≤ k ∧ k < x then s.outByte k + t.outByte (k - s.args.depth.toNat) else s.outByte k)
      (body := fun x s => addByte x (x - s.args.depth.toNat) s)
      (fun x t hx ⟨hdx, hot, ht⟩ => by
        obtain ⟨u, hu, hou, hk⟩ := addByte_out hr hot (i := x) (j := x - s.args.depth.toNat) (by omega) (by omega)
        rw [show t.args = s.args from hot.args, hu]
        have hlt := s.unrleLen.isLt
        refine ⟨by omega, hou, fun k hk' => ?_⟩
        rw [hk k hk', hk (k - s.args.depth.toNat) (by omega)]
        by_cases hkx : k = x
        · subst hkx
          rw [if_pos rfl, if_pos ⟨hdx, by omega⟩, if_neg (by omega), ht k hk', if_neg (by omega)]
        · rw [if_neg hkx, ht k hk']
          by_cases hkl : s.args.depth.toNat ≤ k ∧ k < x
          · rw [if_pos hkl, if_pos ⟨hkl.1, by omega⟩, if_neg (by omega)]
          · rw [if_neg hkl, if_neg (by omega)])
      (min s.args.stride.toNat s.unrleLen.toNat - s.args.depth.toNat) s.args.depth.toNat s (by omega)
      ⟨Nat.le_refl _, .refl hr, fun k _ => by rw [if_neg (by omega)]⟩
    obtain ⟨t, ht, _, ho, hk⟩ := endsIn_of_sat hloop
    refine ⟨t, ht, ho, fun k hk' => ?_⟩
    rw [hk k hk', show s.args.depth.toNat + (min s.args.stride.toNat s.unrleLen.toNat - s.args.depth.toNat) =
      min s.args.stride.toNat s.unrleLen.toNat by omega]
  · rw [show min s.args.stride.toNat s.unrleLen.toNat - s.args.depth.toNat = 0 by omega]
    exact ⟨s, rfl, .refl hr, fun k _ => by rw [if_neg (by omega)]⟩

/-- What Step 3 has left once index `bound` is reached: each byte from the second row on added to the byte above. -/
def columnSums (s : State) (bound : Nat) (t : State) : Prop :=
  outOnly s t ∧ ∀ k < 4294967296, t.outByte k =
    if s.args.stride.toNat ≤ k ∧ k < bound ∧ k < s.unrleLen.toNat then
      s.outByte k + t.outByte (k - s.args.stride.toNat) else s.outByte k

theorem vdeltaByte_out {s t : State} (hr : outReady s) (hs : 0 < s.args.stride.toNat) {y x : Nat} (hy : 1 ≤ y)
    (h : columnSums s (y * s.args.stride.toNat + x) t) :
    endsIn (vdeltaByte y x t) (columnSums s (y * s.args.stride.toNat + (x + 1))) := by
  obtain ⟨hot, ht⟩ := h
  have hge : s.args.stride.toNat ≤ y * s.args.stride.toNat := Nat.le_mul_of_pos_left _ hy
  unfold vdeltaByte
  rw [show t.args = s.args from hot.args, show t.unrleLen = s.unrleLen from hot.unrleLen]
  generalize y * s.args.stride.toNat = r at *
  by_cases hi : r + x < s.unrleLen.toNat
  · rw [if_pos hi]
    obtain ⟨u, hu, hou, hk⟩ := addByte_out hr hot (i := r + x) (j := r + x - s.args.stride.toNat) hi (by omega)
    refine ⟨u, hu, hou, fun k hk' => ?_⟩
    rw [hk k hk', hk (k - s.args.stride.toNat) (by omega)]
    by_cases hkx : k = r + x
    · subst hkx
      rw [if_pos rfl, if_pos ⟨by omega, by omega, hi⟩, if_neg (by omega), ht _ hk', if_neg (by omega)]
    · rw [if_neg hkx, ht k hk']
      by_cases hkl : s.args.stride.toNat ≤ k ∧ k < r + x ∧ k < s.unrleLen.toNat
      · rw [if_pos hkl, if_pos ⟨hkl.1, by omega, hkl.2.2⟩, if_neg (by omega)]
      · rw [if_neg hkl, if_neg (by omega)]
  · rw [if_neg hi]
    refine ⟨t, rfl, hot, fun k hk' => ?_⟩
    rw [ht k hk']
    by_cases hkl : s.args.stride.toNat ≤ k ∧ k < r + x ∧ k < s.unrleLen.toNat
    · rw [if_pos hkl, if_pos ⟨hkl.1, by omega, hkl.2.2⟩]
    · rw [if_neg hkl, if_neg (by omega)]

/-- A step that ends well, as something it can do. -/
theorem sat_of_endsIn {r : Res Unit} {Q : State → Prop} (h : endsIn r Q) :
    r.Sat (fun _ t => Q t) (fun _ _ => False) (fun _ => False) := by
  obtain ⟨t, rfl, ht⟩ := h
  exact ht

theorem vdeltaRow_out {s t : State} (hr : outReady s) (hs : 0 < s.args.stride.toNat) {y : Nat} (hy : 1 ≤ y)
    (h : columnSums s (y * s.args.stride.toNat) t) :
    endsIn (vdeltaRow y t) (columnSums s ((y + 1) * s.args.stride.toNat)) := by
  unfold vdeltaRow
  rw [show t.args = s.args from h.1.args]
  have hloop := forUp_sat (F := fun _ _ => False) (X := fun _ => False)
    (P := fun x u => columnSums s (y * s.args.stride.toNat + x) u) (body := vdeltaByte y)
    (fun x u hu => sat_of_endsIn (vdeltaByte_out hr hs hy hu)) s.args.stride.toNat 0 t h
  rw [Nat.zero_add, ← Nat.succ_mul] at hloop
  exact endsIn_of_sat hloop

/-- What Step 3 leaves (R173). -/
theorem vdeltaCore_out {s : State} (hr : outReady s) :
    endsIn (vdeltaCore s) (columnSums s (s.args.height.toNat * s.args.stride.toNat)) := by
  unfold vdeltaCore
  by_cases hs : 0 < s.args.stride.toNat
  · have hloop := forUp_sat_range (F := fun _ _ => False) (X := fun _ => False)
      (last := 1 + (s.args.height.toNat - 1))
      (P := fun y u => 1 ≤ y ∧ columnSums s (y * s.args.stride.toNat) u) (body := vdeltaRow)
      (fun y u _ hu => (sat_of_endsIn (vdeltaRow_out hr hs hu.1 hu.2)).mono (fun _ _ h => ⟨by omega, h⟩)
        (fun _ _ h => h) fun _ h => h)
      (s.args.height.toNat - 1) 1 s (by omega)
      ⟨Nat.le_refl 1, .refl hr, fun k _ => by rw [if_neg (by omega)]⟩
    obtain ⟨t, ht, _, hot, hk⟩ := endsIn_of_sat hloop
    refine ⟨t, ht, hot, fun k hk' => ?_⟩
    rw [hk k hk']
    by_cases hh : s.args.height.toNat = 0
    · simp only [hh, Nat.zero_sub, Nat.add_zero, Nat.one_mul, Nat.zero_mul]
      rw [if_neg (by omega), if_neg (by omega)]
    · rw [show 1 + (s.args.height.toNat - 1) = s.args.height.toNat by omega]
  · have hs0 : s.args.stride.toNat = 0 := by omega
    have hloop := forUp_sat (F := fun _ _ => False) (X := fun _ => False) (P := fun _ u => u = s) (body := vdeltaRow)
      (fun y u hu => by subst hu; unfold vdeltaRow; rw [hs0]; exact rfl) (s.args.height.toNat - 1) 1 s rfl
    obtain ⟨t, ht, rfl⟩ := endsIn_of_sat hloop
    exact ⟨t, ht, .refl hr, fun k _ => by rw [hs0, if_neg (by omega)]⟩

/-! ### The regroup word, byte by byte -/

/-- Each table puts bit pair k of the index into byte k, at its own two bits (R40). -/
theorem table1_byte : ∀ (a : Byte) (k : Fin 4),
    wordByte (romTable 0#2 a) k = (a.extractLsb' (2 * k) 2).zeroExtend 8 <<< 6 := by decide
theorem table2_byte : ∀ (a : Byte) (k : Fin 4),
    wordByte (romTable 1#2 a) k = (a.extractLsb' (2 * k) 2).zeroExtend 8 <<< 4 := by decide
theorem table3_byte : ∀ (a : Byte) (k : Fin 4),
    wordByte (romTable 2#2 a) k = (a.extractLsb' (2 * k) 2).zeroExtend 8 <<< 2 := by decide
theorem table4_byte : ∀ (a : Byte) (k : Fin 4),
    wordByte (romTable 3#2 a) k = (a.extractLsb' (2 * k) 2).zeroExtend 8 := by decide

theorem pairs_join : ∀ x y z w : BitVec 2,
    (x.zeroExtend 8 <<< 6 ||| y.zeroExtend 8 <<< 4 ||| z.zeroExtend 8 <<< 2 ||| w.zeroExtend 8 : Byte) =
      x ++ y ++ z ++ w := by decide

theorem wordByte_or (a b : Word) (k : Nat) : wordByte (a ||| b) k = wordByte a k ||| wordByte b k := by
  unfold wordByte; exact BitVec.extractLsb'_or ..

theorem regroupWord_byte (a b c d : Byte) (k : Fin 4) :
    wordByte (regroupWord a b c d) k =
      a.extractLsb' (2 * k) 2 ++ b.extractLsb' (2 * k) 2 ++ c.extractLsb' (2 * k) 2 ++ d.extractLsb' (2 * k) 2 := by
  unfold regroupWord
  rw [wordByte_or, wordByte_or, wordByte_or, table1_byte, table2_byte, table3_byte, table4_byte, pairs_join]

/-- Step 1 as the bit map of R92 gives it. -/
theorem regrouped_eq (s : State) (i : Nat) : regrouped s i = regroupedByte (scratchAt s) s.unrleLen.toNat i := by
  unfold regrouped regroupedByte groupWord
  have := regroupWord_byte (scratchAt s (i / 4)) (scratchAt s (s.unrleLen.toNat / 4 + i / 4))
    (scratchAt s (2 * (s.unrleLen.toNat / 4) + i / 4)) (scratchAt s (3 * (s.unrleLen.toNat / 4) + i / 4)) ⟨i % 4, by omega⟩
  simp only [] at this ⊢
  rw [this]

end Sys2Proof.Machine
end

