-- ==== Sys2Proof/Laws/GammaCode.lean ====
section
/-! SUPPORT. Reading bits that stand ahead of the cursor: one bit, a unary count, explicit bits, and a whole
Elias-gamma code (spec/30_encoding.md R85, spec/40_bitreader.md R117). -/

namespace Sys2Proof.Machine

/-! ### The cursor some genuine bits further on -/

theorem cursorAfter_zero (c : Cursor) : cursorAfter c 0 = c := by
  have hb := bit_le c.bit
  unfold cursorAfter
  simp [Nat.div_eq_of_lt (show c.bit.toNat < 8 by omega), Nat.mod_eq_of_lt (show c.bit.toNat < 8 by omega)]

theorem ofNat_toNat_sub {w : Word} {n : Nat} : (BitVec.ofNat 32 (w.toNat - n)).toNat = w.toNat - n := by
  have := w.isLt
  rw [BitVec.toNat_ofNat, Nat.mod_eq_of_lt (by omega)]

theorem cursorAfter_one {c : Cursor} (h0 : c.rem ≠ 0#32) : cursorAfter c 1 = advancedCursor c := by
  have hp := word_ne_zero h0
  have hb := bit_le c.bit
  unfold cursorAfter advancedCursor
  split
  · rename_i h7
    have hr : BitVec.ofNat 32 (c.rem.toNat - 1) = c.rem - 1#32 :=
      BitVec.eq_of_toNat_eq (by rw [ofNat_toNat_sub, sub_one_toNat h0])
    simp [h7, addrAt_one, hr]
  · rename_i h7
    have h7' : c.bit.toNat ≠ 7 := fun h => h7 (BitVec.eq_of_toNat_eq (by simpa using h))
    have hbit : BitVec.ofNat 3 (c.bit.toNat + 1) = c.bit + 1#3 :=
      BitVec.eq_of_toNat_eq (by rw [bit_succ_toNat h7, BitVec.toNat_ofNat, Nat.mod_eq_of_lt (by omega)])
    simp [Nat.div_eq_of_lt (show c.bit.toNat + 1 < 8 by omega), Nat.mod_eq_of_lt (show c.bit.toNat + 1 < 8 by omega),
      hbit]

theorem cursorAfter_add (c : Cursor) (m n : Nat) :
    cursorAfter (cursorAfter c m) n = cursorAfter c (m + n) := by
  have hb := bit_le c.bit
  have hm : ((BitVec.ofNat 3 ((c.bit.toNat + m) % 8)).toNat) = (c.bit.toNat + m) % 8 := by
    rw [BitVec.toNat_ofNat, Nat.mod_eq_of_lt (by omega)]
  unfold cursorAfter
  simp only [hm, ofNat_toNat_sub, addrAt_add]
  have h1 : (c.bit.toNat + m) / 8 + ((c.bit.toNat + m) % 8 + n) / 8 = (c.bit.toNat + (m + n)) / 8 := by omega
  have h2 : ((c.bit.toNat + m) % 8 + n) % 8 = (c.bit.toNat + (m + n)) % 8 := by omega
  have h3 : c.rem.toNat - (c.bit.toNat + m) / 8 - ((c.bit.toNat + m) % 8 + n) / 8 =
      c.rem.toNat - (c.bit.toNat + (m + n)) / 8 := by omega
  rw [h1, h2, h3]

theorem bitsLeft_cursorAfter (c : Cursor) (n : Nat) : bitsLeft (cursorAfter c n) = bitsLeft c - n := by
  have hb := bit_le c.bit
  have hr := ofNat_toNat_sub (w := c.rem) (n := (c.bit.toNat + n) / 8)
  unfold bitsLeft
  simp only [cursorAfter, hr, BitVec.toNat_ofNat]
  omega

@[simp] theorem cursorAfter_exh (c : Cursor) (n : Nat) : (cursorAfter c n).exh = c.exh := rfl

/-! ### What a cursor has ahead of it -/

/-- The cursor moved over some of the bits ahead. -/
def movedOn (s : State) (n : Nat) : State := setCursor (cursorAfter s.cur n) s

@[simp] theorem movedOn_cur (s : State) (n : Nat) : (movedOn s n).cur = cursorAfter s.cur n := rfl
@[simp] theorem movedOn_cmd (s : State) (n : Nat) : (movedOn s n).cmd = s.cmd := rfl
@[simp] theorem movedOn_status (s : State) (n : Nat) : (movedOn s n).status = s.status := rfl
@[simp] theorem movedOn_result (s : State) (n : Nat) : (movedOn s n).result = s.result := rfl
@[simp] theorem movedOn_args (s : State) (n : Nat) : (movedOn s n).args = s.args := rfl
@[simp] theorem movedOn_unrleLen (s : State) (n : Nat) : (movedOn s n).unrleLen = s.unrleLen := rfl
@[simp] theorem movedOn_dataPos (s : State) (n : Nat) : (movedOn s n).dataPos = s.dataPos := rfl
@[simp] theorem movedOn_scrValid (s : State) (n : Nat) : (movedOn s n).scrValid = s.scrValid := rfl
@[simp] theorem movedOn_scratch (s : State) (n : Nat) : (movedOn s n).scratch = s.scratch := rfl
@[simp] theorem movedOn_pending (s : State) (n : Nat) : (movedOn s n).pending = s.pending := rfl
@[simp] theorem movedOn_mem (s : State) (n : Nat) : (movedOn s n).mem = s.mem := rfl
@[simp] theorem movedOn_platform (s : State) (n : Nat) : (movedOn s n).platform = s.platform := rfl
@[simp] theorem movedOn_draws (s : State) (n : Nat) : (movedOn s n).draws = s.draws := rfl
@[simp] theorem movedOn_scratchEpoch (s : State) (n : Nat) : (movedOn s n).scratchEpoch = s.scratchEpoch := rfl
@[simp] theorem movedOn_raced (s : State) (n : Nat) : (movedOn s n).raced = s.raced := rfl
@[simp] theorem movedOn_unstable (s : State) (n : Nat) : (movedOn s n).unstable = s.unstable := rfl
@[simp] theorem movedOn_latched (s : State) (n : Nat) : (movedOn s n).latched = s.latched := rfl
@[simp] theorem movedOn_inputs (s : State) (n : Nat) : (movedOn s n).inputs = s.inputs := rfl
@[simp] theorem movedOn_observed (s : State) (n : Nat) : (movedOn s n).observed = s.observed := rfl

theorem movedOn_zero (s : State) : movedOn s 0 = s := by simp [movedOn, cursorAfter_zero]

theorem movedOn_add (s : State) (m n : Nat) : movedOn (movedOn s m) n = movedOn s (m + n) := by
  simp [movedOn, cursorAfter_add]

/-- Bit `i` ahead after moving over `n` bits is bit `n + i` ahead before. -/
theorem streamBit_movedOn (s : State) (n i : Nat) :
    (movedOn s n).streamBit ((movedOn s n).cur.bit.toNat + i) = s.streamBit (s.cur.bit.toNat + (n + i)) := by
  have hb := bit_le s.cur.bit
  have hm : ((BitVec.ofNat 3 ((s.cur.bit.toNat + n) % 8)).toNat) = (s.cur.bit.toNat + n) % 8 := by
    rw [BitVec.toNat_ofNat, Nat.mod_eq_of_lt (by omega)]
  have h1 : (s.cur.bit.toNat + n) / 8 + ((s.cur.bit.toNat + n) % 8 + i) / 8 = (s.cur.bit.toNat + (n + i)) / 8 := by
    omega
  have h2 : ((s.cur.bit.toNat + n) % 8 + i) % 8 = (s.cur.bit.toNat + (n + i)) % 8 := by omega
  simp only [State.streamBit, State.byteAt, movedOn, setCursor_cur, setCursor_mem, cursorAfter, hm, addrAt_add, h1, h2]

theorem bitsAhead_movedOn {s : State} {l m : List Bool} (h : s.bitsAhead (l ++ m)) :
    (movedOn s l.length).bitsAhead m := by
  obtain ⟨hlen, hbits⟩ := h
  rw [List.length_append] at hlen
  refine ⟨by rw [movedOn_cur, bitsLeft_cursorAfter]; omega, fun i hi => ?_⟩
  rw [streamBit_movedOn, ← hbits (l.length + i) (by rw [List.length_append]; omega)]
  simp

theorem bitsAhead_append_left {s : State} {l m : List Bool} (h : s.bitsAhead (l ++ m)) : s.bitsAhead l := by
  obtain ⟨hlen, hbits⟩ := h
  rw [List.length_append] at hlen
  refine ⟨by omega, fun i hi => ?_⟩
  rw [← hbits i (by rw [List.length_append]; omega), List.getElem_append_left hi]

theorem cursorReady_one {s : State} (h : cursorReady s) (h0 : s.cur.rem ≠ 0#32) : cursorReady (movedOn s 1) where
  duty := by
    unfold State.dutyKept avoids
    rw [movedOn_cur, cursorAfter_one h0]
    exact advanced_left (P := fun a => a.toNat ∉ s.raced ++ s.unstable) h.duty h0
  backed := cursorBacked_advanced h.backed h0 rfl (by rw [movedOn_cur, cursorAfter_one h0])
  ok := by rw [movedOn_cur, cursorAfter_one h0]; exact cursorOk_advanced h.ok h0

theorem cursorReady_movedOn {s : State} (h : cursorReady s) : ∀ {n : Nat}, n ≤ bitsLeft s.cur →
    cursorReady (movedOn s n)
  | 0, _ => by rwa [movedOn_zero]
  | n + 1, hn => by
    have ih := cursorReady_movedOn h (n := n) (by omega)
    have h0 : (movedOn s n).cur.rem ≠ 0#32 := fun h0 => by
      have := bitsLeft_zero h0
      rw [movedOn_cur, bitsLeft_cursorAfter] at this
      omega
    have := cursorReady_one ih h0
    rwa [movedOn_add] at this

/-! ### Reading -/

/-- One bit that stands ahead. -/
theorem getBit_ahead {s : State} (h : cursorReady s) {b : Bool} {l : List Bool} (ha : s.bitsAhead (b :: l)) :
    getBit s = .ok b (movedOn s 1) := by
  obtain ⟨hlen, hbits⟩ := ha
  have h0 : s.cur.rem ≠ 0#32 := fun h0 => by
    have := bitsLeft_zero h0
    rw [List.length_cons] at hlen
    omega
  have hb := hbits 0 (by simp)
  have hbit := bit_le s.cur.bit
  have hd : s.cur.addr.toNat ∉ s.raced ++ s.unstable := by simpa using h.duty 0 (word_ne_zero h0)
  unfold getBit cursorRead
  rw [if_neg h0, readByte_settled (cursorBacked_addr h.backed h0) hd]
  simp only [List.getElem_cons_zero, State.streamBit, Nat.add_zero,
    Nat.div_eq_of_lt (show s.cur.bit.toNat < 8 by omega), Nat.mod_eq_of_lt (show s.cur.bit.toNat < 8 by omega),
    addrAt_zero, State.byteAt] at hb
  rw [andThen_ok, ← hb, movedOn, cursorAfter_one h0]

/-- With no byte left, the terminal 1. -/
theorem getBit_empty {s : State} (h0 : s.cur.rem = 0#32) :
    getBit s = .ok true (setCursor (exhaustedCursor s.cur) s) := by simp [getBit, h0]

/-- Zeros and the 1 that ends them. -/
theorem gammaZeros_ahead {l : List Bool} (d : Nat) : ∀ {fuel digits : Nat} {s : State}, cursorReady s → d < fuel →
    s.bitsAhead (List.replicate d false ++ true :: l) →
    gammaZeros fuel digits s = .ok (digits + d) (movedOn s (d + 1)) := by
  induction d with
  | zero =>
    intro fuel digits s h hf ha
    obtain ⟨n, rfl⟩ : ∃ n, fuel = n + 1 := ⟨fuel - 1, by omega⟩
    rw [List.replicate_zero, List.nil_append] at ha
    simp [gammaZeros, getBit_ahead h ha]
  | succ d ih =>
    intro fuel digits s h hf ha
    obtain ⟨n, rfl⟩ : ∃ n, fuel = n + 1 := ⟨fuel - 1, by omega⟩
    rw [List.replicate_succ, List.cons_append] at ha
    have h1 : 1 ≤ bitsLeft s.cur := by have := ha.1; rw [List.length_cons] at this; omega
    have hn := ih (fuel := n) (digits := digits + 1) (cursorReady_movedOn h h1) (by omega)
      (bitsAhead_movedOn (l := [false]) ha)
    rw [movedOn_add] at hn
    rw [gammaZeros, getBit_ahead h ha, andThen_ok, if_neg Bool.false_ne_true, hn]
    rw [show digits + 1 + d = digits + (d + 1) by omega, show 1 + (d + 1) = d + 1 + 1 by omega]

/-- The value explicit bits give, the first one the most significant (R111). -/
def explicitValue (value : Nat) : List Bool → Nat
  | [] => value
  | b :: l => explicitValue (if b then value ||| 2 ^ l.length else value) l

/-- Explicit bits. -/
theorem gammaBits_ahead {m : List Bool} (l : List Bool) : ∀ {value : Nat} {s : State}, cursorReady s →
    s.bitsAhead (l ++ m) → gammaBits l.length value s = .ok (explicitValue value l) (movedOn s l.length) := by
  induction l with
  | nil => intro value s _ _; simp [gammaBits, explicitValue, movedOn_zero]
  | cons b l ih =>
    intro value s h ha
    rw [List.cons_append] at ha
    have h1 : 1 ≤ bitsLeft s.cur := by have := ha.1; rw [List.length_cons] at this; omega
    have hn := ih (value := if b then value ||| 2 ^ l.length else value) (cursorReady_movedOn h h1)
      (bitsAhead_movedOn (l := [b]) ha)
    rw [movedOn_add] at hn
    rw [List.length_cons, gammaBits, getBit_ahead h ha, andThen_ok, hn, explicitValue,
      show 1 + l.length = l.length + 1 by omega]

/-! ### A whole code -/

/-- The `n` low bits of `v`, most significant first, set into the rest of `v`, give `v`. -/
theorem explicitValue_lowBits (v : Nat) : ∀ n : Nat,
    explicitValue (v >>> n <<< n) ((List.range n).map fun k => v.testBit (n - 1 - k)) = v
  | 0 => by simp [explicitValue]
  | n + 1 => by
    rw [List.range_succ_eq_map, List.map_cons, explicitValue, List.map_map, List.length_map, List.length_range]
    have hl : (List.range n).map ((fun k => v.testBit (n + 1 - 1 - k)) ∘ Nat.succ) =
        (List.range n).map fun k => v.testBit (n - 1 - k) := by
      refine List.map_congr_left fun k _ => ?_
      simp only [Function.comp_apply]
      congr 1
      omega
    rw [hl]
    have hv : (if v.testBit (n + 1 - 1 - 0) then v >>> (n + 1) <<< (n + 1) ||| 2 ^ n else v >>> (n + 1) <<< (n + 1)) =
        v >>> n <<< n := by
      refine Nat.eq_of_testBit_eq fun i => ?_
      simp only [Nat.add_sub_cancel, Nat.sub_zero]
      rcases Nat.lt_trichotomy i n with hi | hi | hi
      · have h1 : ¬ n ≤ i := by omega
        have h2 : ¬ n + 1 ≤ i := by omega
        split <;> simp [Nat.testBit_shiftLeft, h1, h2, show ¬ n = i by omega]
      · subst hi
        have h2 : ¬ i + 1 ≤ i := by omega
        split <;> rename_i hb <;> simp [Nat.testBit_shiftLeft, h2, hb]
      · have h1 : n ≤ i := by omega
        have h2 : n + 1 ≤ i := by omega
        have h3 : n + 1 + (i - (n + 1)) = n + (i - n) := by omega
        split <;>
          simp [Nat.testBit_shiftLeft, Nat.testBit_shiftRight, h1, h2, h3, show ¬ n = i by omega]
    rw [hv]
    exact explicitValue_lowBits v n

theorem explicitValue_gammaCode {v : Nat} (hv : v ≠ 0) :
    explicitValue (2 ^ v.log2) ((List.range v.log2).map fun k => v.testBit (v.log2 - 1 - k)) = v := by
  have h := explicitValue_lowBits v v.log2
  have h1 : v >>> v.log2 = 1 := by
    rw [Nat.shiftRight_eq_div_pow]
    have ha := Nat.log2_self_le hv
    have hb := (Nat.log2_lt hv).1 (Nat.lt_succ_self v.log2)
    have hc : 0 < 2 ^ v.log2 := Nat.two_pow_pos _
    rw [Nat.pow_succ] at hb
    exact Nat.div_eq_of_lt_le (by omega) (by omega)
  rwa [h1, Nat.shiftLeft_eq, Nat.one_mul] at h

theorem gammaCode_length (v : Nat) : (gammaCode v).length = 2 * v.log2 + 1 := by
  simp [gammaCode]; omega

/-- A code of `d` zeros, a 1 and `d` explicit bits, all of them ahead: what `getGamma` gives, whatever `d` (R111,
R118). -/
theorem getGamma_ahead {s : State} (h : cursorReady s) {l m : List Bool}
    (ha : s.bitsAhead (List.replicate l.length false ++ true :: (l ++ m))) :
    getGamma s = .ok (gammaResult s.cur.exh l.length (explicitValue (2 ^ l.length) l)) (movedOn s (2 * l.length + 1)) := by
  have hlen := ha.1
  simp only [List.length_append, List.length_replicate, List.length_cons] at hlen
  have hfuel := bitsLeft_lt_fuel s.cur
  have hz := gammaZeros_ahead l.length (fuel := 8 * s.cur.rem.toNat + 1) (digits := 0) h (by omega) ha
  rw [Nat.zero_add] at hz
  have hmid : (movedOn s (l.length + 1)).bitsAhead (l ++ m) := by
    have := bitsAhead_movedOn (l := List.replicate l.length false ++ [true]) (m := l ++ m) (s := s)
      (by simpa using ha)
    simpa using this
  have hb := gammaBits_ahead l (value := 2 ^ l.length)
    (cursorReady_movedOn h (n := l.length + 1) (by omega)) hmid
  rw [movedOn_add, show l.length + 1 + l.length = 2 * l.length + 1 by omega] at hb
  unfold getGamma
  rw [hz, andThen_ok, hb, andThen_ok]
  rfl

/-- The code of `v`, all of it ahead of a cursor that is not exhausted, decodes to `v` (R117). -/
theorem getGamma_code {s : State} (h : cursorReady s) (hx : s.cur.exh = false) {v : Nat} (hv : v ≠ 0)
    (hv' : v < 2 ^ 32) {m : List Bool} (ha : s.bitsAhead (gammaCode v ++ m)) :
    getGamma s = .ok (BitVec.ofNat 32 v) (movedOn s (gammaCode v).length) ∧
      (movedOn s (gammaCode v).length).bitsAhead m := by
  refine ⟨?_, bitsAhead_movedOn ha⟩
  have hd : v.log2 < 32 := (Nat.log2_lt hv).2 hv'
  have hg := getGamma_ahead h (l := (List.range v.log2).map fun k => v.testBit (v.log2 - 1 - k)) (m := m)
    (by simpa [gammaCode] using ha)
  rw [List.length_map, List.length_range, explicitValue_gammaCode hv] at hg
  rw [hg, gammaCode_length]
  simp [gammaResult, hx, Config.gammaWidth, Nat.not_le.2 hd]

/-! ### Codes the region cuts short -/

/-- The cursor after a read past the end of its region: all its bits gone, EXH = 1 (R110). -/
def spentCursor (c : Cursor) : Cursor := exhaustedCursor (cursorAfter c (bitsLeft c))

/-- The state after a read past the end of the cursor's region. -/
def ranOut (s : State) : State := setCursor (spentCursor s.cur) s

@[simp] theorem ranOut_cur (s : State) : (ranOut s).cur = spentCursor s.cur := rfl

theorem rem_zero_of_bitsLeft {c : Cursor} (h : bitsLeft c = 0) : c.rem = 0#32 := by
  by_contra h0
  have := bitsLeft_pos h0
  omega

theorem spentCursor_rem (c : Cursor) : (spentCursor c).rem = 0#32 :=
  rem_zero_of_bitsLeft (c := cursorAfter c (bitsLeft c)) (by rw [bitsLeft_cursorAfter]; omega)

theorem ranOut_movedOn (s : State) {n : Nat} (h : n ≤ bitsLeft s.cur) : ranOut (movedOn s n) = ranOut s := by
  unfold ranOut spentCursor
  rw [movedOn_cur, bitsLeft_cursorAfter, cursorAfter_add, show n + (bitsLeft s.cur - n) = bitsLeft s.cur by omega]
  rfl

/-- A read that finds no byte: the terminal 1, and the cursor is spent (R110). -/
theorem getBit_spent {s : State} (h : s.cur.rem = 0#32) : getBit s = .ok true (ranOut s) := by
  rw [getBit_empty h, ranOut, spentCursor, bitsLeft_zero h, cursorAfter_zero]

/-- A spent cursor stays as it is. -/
theorem getBit_ranOut (s : State) : getBit (ranOut s) = .ok true (ranOut s) := by
  rw [getBit_empty (spentCursor_rem s.cur)]
  rfl

/-- Explicit bits on a spent cursor leave it as it is. -/
theorem gammaBits_ranOut (s : State) : ∀ n value : Nat, ∃ v, gammaBits n value (ranOut s) = .ok v (ranOut s)
  | 0, value => ⟨value, rfl⟩
  | n + 1, value => by
    obtain ⟨v, hv⟩ := gammaBits_ranOut s n (if true then value ||| 2 ^ n else value)
    exact ⟨v, by rw [gammaBits, getBit_ranOut, andThen_ok, hv]⟩

/-- Explicit bits that run past the region leave the cursor spent (R116). -/
theorem gammaBits_short : ∀ (n value : Nat) (s : State), cursorReady s → bitsLeft s.cur < n →
    ∃ v, gammaBits n value s = .ok v (ranOut s)
  | 0, _, _, _, h => absurd h (Nat.not_lt_zero _)
  | n + 1, value, s, hr, h => by
    by_cases h0 : s.cur.rem = 0#32
    · obtain ⟨v, hv⟩ := gammaBits_ranOut s n (if true then value ||| 2 ^ n else value)
      exact ⟨v, by rw [gammaBits, getBit_spent h0, andThen_ok, hv]⟩
    · have hb := bitsLeft_advanced h0
      have hbit := getBit_ahead (s := s) (b := s.streamBit (s.cur.bit.toNat)) (l := []) hr
        ⟨by simp; omega, fun i hi => by simp at hi; subst hi; simp⟩
      obtain ⟨v, hv⟩ := gammaBits_short n (if s.streamBit s.cur.bit.toNat then value ||| 2 ^ n else value)
        (movedOn s 1) (cursorReady_one hr h0) (by rw [movedOn_cur, bitsLeft_cursorAfter]; omega)
      exact ⟨v, by rw [gammaBits, hbit, andThen_ok, hv, ranOut_movedOn s (by omega)]⟩

/-- Zeros up to the end of the region: the terminal 1 ends the count (R111). -/
theorem gammaZeros_short : ∀ (d : Nat) {fuel digits : Nat} {s : State}, cursorReady s → d < fuel →
    bitsLeft s.cur = d → s.bitsAhead (List.replicate d false) → gammaZeros fuel digits s = .ok (digits + d) (ranOut s)
  | 0, fuel, digits, s, hr, hf, hb, ha => by
    obtain ⟨n, rfl⟩ : ∃ n, fuel = n + 1 := ⟨fuel - 1, by omega⟩
    rw [gammaZeros, getBit_spent (rem_zero_of_bitsLeft hb), andThen_ok]
    rfl
  | d + 1, fuel, digits, s, hr, hf, hb, ha => by
    obtain ⟨n, rfl⟩ : ∃ n, fuel = n + 1 := ⟨fuel - 1, by omega⟩
    rw [List.replicate_succ] at ha
    have ht := gammaZeros_short d (fuel := n) (digits := digits + 1)
      (cursorReady_movedOn hr (n := 1) (by omega)) (by omega)
      (by rw [movedOn_cur, bitsLeft_cursorAfter]; omega) (bitsAhead_movedOn (l := [false]) ha)
    rw [gammaZeros, getBit_ahead hr ha, andThen_ok, if_neg Bool.false_ne_true, ht, ranOut_movedOn s (by omega),
      show digits + 1 + d = digits + (d + 1) by omega]

/-- A code cut short is its first zeros, or all of them, the 1 and some of the explicit bits. -/
theorem gammaCode_take (v n : Nat) :
    (n ≤ v.log2 ∧ (gammaCode v).take n = List.replicate n false) ∨
      (v.log2 < n ∧ ∃ l, (gammaCode v).take n = List.replicate v.log2 false ++ true :: l) := by
  by_cases hd : n ≤ v.log2
  · refine .inl ⟨hd, ?_⟩
    rw [gammaCode, List.append_assoc, List.take_append_of_le_length (by simpa using hd), List.take_replicate,
      Nat.min_eq_left hd]
  · refine .inr ⟨by omega,
      ((List.range v.log2).map fun k => v.testBit (v.log2 - 1 - k)).take (n - v.log2 - 1), ?_⟩
    rw [gammaCode, List.append_assoc, List.take_append, List.take_of_length_le (by simp; omega)]
    congr 1
    rw [List.length_replicate, List.singleton_append, show n - v.log2 = n - v.log2 - 1 + 1 by omega,
      List.take_succ_cons]
    rfl

/-- A code the region ends before: INVALID, and the cursor is spent (R111, R116). -/
theorem getGamma_short {s : State} (h : cursorReady s) {v : Nat} (hlt : bitsLeft s.cur < (gammaCode v).length)
    (ha : s.bitsAhead ((gammaCode v).take (bitsLeft s.cur))) : getGamma s = .ok Config.gammaInvalid (ranOut s) := by
  have hfuel := bitsLeft_lt_fuel s.cur
  have hinv : ∀ d x, gammaResult (ranOut s).cur.exh d x = Config.gammaInvalid := fun d x => rfl
  rcases gammaCode_take v (bitsLeft s.cur) with ⟨_, ht⟩ | ⟨hd, l, hl⟩
  · rw [ht] at ha
    obtain ⟨x, hx⟩ := gammaBits_ranOut s (0 + bitsLeft s.cur) (2 ^ (0 + bitsLeft s.cur))
    unfold getGamma
    rw [gammaZeros_short _ (fuel := 8 * s.cur.rem.toNat + 1) (digits := 0) h hfuel rfl ha, andThen_ok, hx,
      andThen_ok, hinv]
  · rw [hl] at ha
    rw [gammaCode_length] at hlt
    have hz := gammaZeros_ahead v.log2 (fuel := 8 * s.cur.rem.toNat + 1) (digits := 0) h (by omega) ha
    rw [Nat.zero_add] at hz
    obtain ⟨x, hx⟩ := gammaBits_short v.log2 (2 ^ v.log2) (movedOn s (v.log2 + 1)) (cursorReady_movedOn h (by omega))
      (by rw [movedOn_cur, bitsLeft_cursorAfter]; omega)
    rw [ranOut_movedOn s (by omega)] at hx
    unfold getGamma
    rw [hz, andThen_ok, hx, andThen_ok, hinv]

/-- A whole code that is INVALID: the cursor stands after it (R86, R117, R118). -/
theorem getGamma_invalid {s : State} (h : cursorReady s) (hx : s.cur.exh = false) {code m : List Bool}
    (hc : invalidCode code) (ha : s.bitsAhead (code ++ m)) :
    getGamma s = .ok Config.gammaInvalid (movedOn s code.length) := by
  rcases hc with rfl | ⟨bits, hl, rfl⟩
  · exact (getGamma_code h hx (by omega) (by omega) ha).1
  · have hg := getGamma_ahead h (l := bits) (m := m) (by simpa using ha)
    have hr : gammaResult s.cur.exh bits.length (explicitValue (2 ^ bits.length) bits) = Config.gammaInvalid := by
      unfold gammaResult Config.gammaWidth
      rw [if_pos hl]
      split <;> rfl
    rw [hg, hr]
    congr 2
    simp
    omega

end Sys2Proof.Machine
end

