-- ==== Sys2Proof/Laws/Unrle.lean ====
section
/-! SUPPORT. The RunLengthExpander: what its reads, its loop and `unrleCore` can do (spec/41_unrle.md R140, R143), and
what they give on a stream whose codes stand ahead (R144). -/

namespace Sys2Proof.Machine

/-! ### The data reads -/

/-- The reads of a copy run draw at most free values; they never fail. -/
theorem readBytes_sat : ∀ (n : Nat) (base : Word) (off : Nat) (s : State),
    (readBytes n base off s).Sat (fun bs t => bs.length = n ∧ t = { s with draws := t.draws }) (fun _ _ => False)
      (fun f => f = .engineOutsideHostMemory ∧ ∃ i < n, backs s.platform (addrAt base (off + i)).toNat = false)
  | 0, _, _, s => ⟨rfl, rfl⟩
  | n + 1, base, off, s => by
    unfold readBytes
    refine ((memRead_sat (addrAt base off) s).mono (Q' := fun _ t => t = { s with draws := t.draws }) ?_
      (fun _ _ h => h) ?_).andThen ?_
    · rintro b t ⟨_, rfl | rfl⟩ <;> rfl
    · rintro f ⟨hf, hb⟩; exact ⟨hf, 0, by omega, hb⟩
    · intro b t ht
      have hp : t.platform = s.platform := by rw [ht]
      refine ((readBytes_sat n base (off + 1) t).mono (fun _ _ h => h) (fun _ _ h => h) ?_).andThen ?_
      · rintro f ⟨hf, i, hi, hb⟩
        exact ⟨hf, i + 1, by omega, by rw [← hp, show off + (i + 1) = off + 1 + i by omega]; exact hb⟩
      · rintro bs u ⟨hl, hu⟩
        exact ⟨by simp [hl], by rw [hu, ht]⟩

/-- Settled, backed data is read as it stands. -/
theorem readBytes_settled {base : Word} {s : State} : ∀ {n off : Nat}, regionReady s base (off + n) →
    readBytes n base off s = .ok ((List.range n).map fun i => s.byteAt (addrAt base (off + i))) s
  | 0, off, _ => rfl
  | n + 1, off, h => by
    have hn := readBytes_settled (base := base) (s := s) (n := n) (off := off + 1)
      (by rwa [show off + 1 + n = off + (n + 1) by omega])
    unfold readBytes
    rw [memRead_settled (h.backed off (by omega)) (h.settled off (by omega)), andThen_ok, hn, andThen_ok,
      List.range_succ_eq_map, List.map_cons, List.map_map]
    simp only [State.byteAt, Nat.add_zero, Function.comp_def]
    congr 3
    funext i
    rw [show off + 1 + i = off + i.succ by omega]

/-- A byte that is not backed stops the reads of a copy run (R61). -/
theorem readBytes_unbacked {base : Word} : ∀ {n off : Nat} {s : State},
    (∃ i < n, backs s.platform (addrAt base (off + i)).toNat = false) →
    readBytes n base off s = .stop .engineOutsideHostMemory
  | 0, _, _, ⟨_, hi, _⟩ => absurd hi (Nat.not_lt_zero _)
  | n + 1, off, s, ⟨i, hi, hb⟩ => by
    have hs := memRead_sat (addrAt base off) s
    unfold readBytes
    cases hr : memRead (addrAt base off) s with
    | fail c t => exact (hs.of_fail hr).elim
    | stop f => rw [(hs.of_stop hr).1]; rfl
    | ok b t =>
      obtain ⟨h0, ht⟩ := hs.of_ok hr
      have hp : t.platform = s.platform := by rcases ht with rfl | rfl <;> rfl
      have hi0 : i ≠ 0 := fun h => by rw [h, Nat.add_zero, h0] at hb; exact Bool.noConfusion hb
      rw [andThen_ok, readBytes_unbacked ⟨i - 1, by omega, by
        rw [hp, show off + 1 + (i - 1) = off + i by omega]; exact hb⟩]
      rfl

theorem fillAt_length {buf bytes : List Byte} {off : Nat} (h : off + bytes.length ≤ buf.length) :
    (fillAt buf off bytes).length = buf.length := by simp [fillAt]; omega

/-! ### The loop -/

/-- Only the cursor, DATA_POS and the counter of free values differ. -/
def runFrame (s t : State) : Prop := t = { s with cur := t.cur, draws := t.draws, dataPos := t.dataPos }

theorem runFrame.refl (s : State) : runFrame s s := rfl

theorem runFrame.trans {s t u : State} (h : runFrame s t) (k : runFrame t u) : runFrame s u := by
  unfold runFrame at *; rw [k, h]

theorem cursorFrame.runFrame {s t : State} (h : cursorFrame s t) : runFrame s t := by
  unfold cursorFrame at h; unfold Machine.runFrame; rw [h]

/-- What the loop keeps from one turn to the next. -/
def runKept (s t : State) : Prop :=
  runFrame s t ∧ (cursorOk s.cur → cursorOk t.cur) ∧ (cursorBacked s → cursorBacked t) ∧
    (s.dataPos.toNat ≤ s.args.dataLen.toNat → t.dataPos.toNat ≤ s.args.dataLen.toNat)

theorem runKept.refl (s : State) : runKept s s := ⟨.refl s, id, id, id⟩

theorem runKept.args {s t : State} (h : runKept s t) : t.args = s.args := by rw [h.1]

theorem runKept.platform {s t : State} (h : runKept s t) : t.platform = s.platform := by rw [h.1]

theorem runKept.trans {s t u : State} (h : runKept s t) (k : runKept t u) : runKept s u :=
  ⟨h.1.trans k.1, k.2.1 ∘ h.2.1, k.2.2.1 ∘ h.2.2.1, fun hp => by
    have := k.2.2.2; rw [h.args] at this; exact this (h.2.2.2 hp)⟩

theorem cursorKept.runKept {s t : State} (h : cursorKept s t) : runKept s t :=
  ⟨h.1.runFrame, h.2.1, h.2.2, fun hp => by rw [h.1.dataPos]; exact hp⟩

theorem add_toNat_of_le {p r n : Word} (hp : p.toNat ≤ n.toNat) (h : r.toNat ≤ n.toNat - p.toNat) :
    (p + r).toNat = p.toNat + r.toNat := by
  have := n.isLt
  rw [BitVec.toNat_add, Nat.mod_eq_of_lt (by omega)]

/-- What the loop can do (R140): it ends well with a buffer of the length it started with, or fails with CorruptStream;
it moves the cursor and DATA_POS, and DATA_POS never passes DATA_LEN. -/
theorem unrleRuns_sat : ∀ (fuel : Nat) (copy : Bool) (total off : Nat) (buf : List Byte) (s : State),
    buf.length = total → s.dataPos.toNat ≤ s.args.dataLen.toNat →
    (unrleRuns fuel copy total off buf s).Sat (fun b t => b.length = total ∧ runKept s t)
      (fun c t => c = .corruptStream ∧ runKept s t)
      (fun f => f = .engineOutsideHostMemory ∧ ¬ (cursorBacked s ∧ dataBacked s))
  | 0, _, _, _, _, s, hb, _ => ⟨hb, .refl s⟩
  | fuel + 1, copy, total, off, buf, s, hb, hp => by
    unfold unrleRuns
    split
    · refine ((getGamma_kept s).mono (fun _ _ h => h) (fun _ _ h => h.elim) ?_).andThen ?_
      · rintro f ⟨hf, hc⟩; exact ⟨hf, fun h => hc h.1⟩
      rintro run t ⟨hk, _⟩
      have hrk := hk.runKept
      have hpt := hrk.2.2.2 hp
      split
      · exact ⟨rfl, hrk⟩
      split
      · exact ⟨rfl, hrk⟩
      rename_i hspace
      split
      · split
        · exact ⟨rfl, hrk⟩
        rename_i hdata
        rw [hrk.args] at hdata ⊢
        refine ((readBytes_sat run.toNat s.args.dataAddr t.dataPos.toNat t).mono (fun _ _ h => h)
          (fun _ _ h => h.elim) ?_).andThen ?_
        · rintro f ⟨hf, i, hi, hbk⟩
          refine ⟨hf, fun h => ?_⟩
          rw [hrk.platform] at hbk
          have := h.2 (t.dataPos.toNat + i) (by omega)
          rw [this] at hbk
          exact Bool.noConfusion hbk
        rintro bytes u ⟨hl, hu⟩
        have hua : u.args = s.args := by rw [hu]; exact hrk.args
        have hud : u.dataPos = t.dataPos := by rw [hu]
        have hsum : (u.dataPos + run).toNat = t.dataPos.toNat + run.toNat := by
          rw [hud]; exact add_toNat_of_le (n := s.args.dataLen) hpt (by omega)
        have hku : runKept t (setDataPos (u.dataPos + run) u) := by
          refine ⟨?_, ?_, ?_, ?_⟩
          · unfold runFrame; rw [hu]; rfl
          · rw [setDataPos_cur, hu]; exact id
          · intro h i hi
            rw [setDataPos_cur, hu] at hi
            rw [setDataPos_cur, setDataPos_platform, hu]
            exact h i hi
          · intro _
            rw [hrk.args, setDataPos_dataPos, hsum]
            omega
        have hkk := hrk.trans hku
        refine (unrleRuns_sat fuel false total (off + run.toNat) (fillAt buf off bytes)
          (setDataPos (u.dataPos + run) u) ?_ ?_).mono ?_ ?_ ?_
        · rw [fillAt_length (by omega), hb]
        · rw [setDataPos_args, hua]; exact hkk.2.2.2 hp
        · rintro b v ⟨hbl, hkv⟩; exact ⟨hbl, hkk.trans hkv⟩
        · rintro c v ⟨hc, hkv⟩; exact ⟨hc, hkk.trans hkv⟩
        · rintro f ⟨hf, hbk⟩
          refine ⟨hf, fun h => hbk ⟨hkk.2.2.1 h.1, ?_⟩⟩
          unfold dataBacked
          rw [hkk.args, hkk.platform]
          exact h.2
      · refine (unrleRuns_sat fuel true total (off + run.toNat) buf t hb (by rw [hrk.args]; exact hpt)).mono ?_ ?_ ?_
        · rintro b v ⟨hbl, hkv⟩; exact ⟨hbl, hrk.trans hkv⟩
        · rintro c v ⟨hc, hkv⟩; exact ⟨hc, hrk.trans hkv⟩
        · rintro f ⟨hf, hbk⟩
          refine ⟨hf, fun h => hbk ⟨hrk.2.2.1 h.1, ?_⟩⟩
          unfold dataBacked
          rw [hrk.args, hrk.platform]
          exact h.2
    · exact ⟨hb, .refl s⟩

/-- Fuel for one turn per missing byte is enough: more changes nothing, since every run is at least 1 long (R143). -/
theorem unrleRuns_fuel : ∀ (fuel fuel' : Nat) (copy : Bool) (total off : Nat) (buf : List Byte) (s : State),
    total - off ≤ fuel → total - off ≤ fuel' →
    unrleRuns fuel copy total off buf s = unrleRuns fuel' copy total off buf s
  | 0, 0, _, _, _, _, _, _, _ => rfl
  | 0, n + 1, copy, total, off, buf, s, h, _ => by simp [unrleRuns, show ¬ off < total by omega]
  | n + 1, 0, copy, total, off, buf, s, _, h => by simp [unrleRuns, show ¬ off < total by omega]
  | n + 1, m + 1, copy, total, off, buf, s, hn, hm => by
    unfold unrleRuns
    split
    · have hg := getGamma_kept s
      cases he : getGamma s with
      | fail c t => rfl
      | stop f => rfl
      | ok run t =>
        have hr := word_ne_zero (hg.of_ok he).2
        simp only [andThen_ok]
        split
        · rfl
        split
        · rfl
        split
        · split
          · rfl
          congr 1
          funext bytes u
          exact unrleRuns_fuel n m _ _ _ _ _ (by omega) (by omega)
        · exact unrleRuns_fuel n m _ _ _ _ _ (by omega) (by omega)
    · rfl

/-! ### The whole expander -/

/-- All that `unrleCore` may change. -/
def unrleFrame (s t : State) : Prop :=
  t = { s with
    cur := t.cur, draws := t.draws, dataPos := t.dataPos, unrleLen := t.unrleLen, unstable := t.unstable,
    latched := t.latched, scrValid := t.scrValid, scratch := t.scratch, scratchEpoch := t.scratchEpoch }

theorem unrleFrame_start (s : State) : unrleFrame s (startUnrle s) := rfl

theorem unrleFrame.trans {s t u : State} (h : unrleFrame s t) (k : unrleFrame t u) : unrleFrame s u := by
  unfold unrleFrame at *; rw [k, h]

theorem runFrame.unrleFrame {s t : State} (h : runFrame s t) : unrleFrame s t := by
  unfold runFrame at h; unfold Machine.unrleFrame; rw [h]

/-- A state in which `unrleCore` has failed: no intermediate buffer, whatever else it had built (R141, R239). -/
def unrleFailed (s t : State) : Prop :=
  unrleFrame s t ∧ t.scrValid = false ∧ t.scratch = [] ∧ (addrOK s.args.cmdAddr s.args.cmdLen = true → cursorOk t.cur)

/-- A state in which `unrleCore` has ended well: a whole intermediate buffer (R37, R140). -/
def unrleDone (s t : State) : Prop :=
  unrleFrame s t ∧ t.scrValid = true ∧ t.scratch.length = t.unrleLen.toNat ∧ 0 < t.unrleLen.toNat ∧
    t.unrleLen.toNat ≤ s.platform.unrleCap ∧ t.dataPos.toNat ≤ s.args.dataLen.toNat ∧
    (addrOK s.args.cmdAddr s.args.cmdLen = true → cursorOk t.cur)

/-- What `unrleCore` can do (R140). -/
theorem unrleCore_sat (s : State) :
    (unrleCore s).Sat (fun _ t => unrleDone s t)
      (fun c t => (c = .corruptStream ∨ c = .allocationFailed) ∧ unrleFailed s t)
      (fun f => f = .engineOutsideHostMemory ∧ ¬ (cmdBacked s ∧ dataBacked s)) := by
  unfold unrleCore
  refine ((getBit_kept (startUnrle s)).mono (fun _ _ h => h.1) (fun _ _ h => h.elim) ?_).andThen ?_
  · rintro f ⟨hf, hb⟩; exact ⟨hf, fun h => hb h.1⟩
  intro copy t ht
  refine ((getGamma_kept t).mono (fun _ _ h => h) (fun _ _ h => h.elim) ?_).andThen ?_
  · rintro f ⟨hf, hb⟩; exact ⟨hf, fun h => hb (ht.2.2 h.1)⟩
  rintro total u ⟨hu, htotal⟩
  have hk := ht.trans hu
  have hframe : unrleFrame s u := (unrleFrame_start s).trans hk.1.runFrame.unrleFrame
  have hok : addrOK s.args.cmdAddr s.args.cmdLen = true → cursorOk u.cur := fun h => hk.2.1 (cursorOk_fresh h)
  have hvalid : u.scrValid = false := by rw [hk.1.scrValid]; rfl
  have hscr : u.scratch = [] := by rw [hk.1.scratch]; rfl
  have hplat : u.platform = s.platform := by rw [hk.1.platform]; rfl
  have hargs : u.args = s.args := by rw [hk.1.args]; rfl
  have hpos : u.dataPos = 0#32 := by rw [hk.1.dataPos]; rfl
  split
  · exact ⟨.inl rfl, hframe, hvalid, hscr, hok⟩
  have hframe' : unrleFrame s (setUnrleLen total u) := hframe.trans rfl
  unfold expandRuns
  split
  · exact ⟨.inr rfl, hframe', hvalid, hscr, hok⟩
  rename_i hcap
  have hruns := unrleRuns_sat total.toNat copy total.toNat 0 (List.replicate total.toNat 0#8) (setUnrleLen total u)
    (List.length_replicate ..) (by rw [setUnrleLen_dataPos, hpos]; simp)
  refine (hruns.mono (fun _ _ h => h) ?_ ?_).andThen ?_
  · rintro c v ⟨hc, hkv⟩
    refine ⟨.inl hc, hframe'.trans hkv.1.unrleFrame, ?_, ?_, fun h => hkv.2.1 (hok h)⟩
    · rw [hkv.1]; exact hvalid
    · rw [hkv.1]; exact hscr
  · rintro f ⟨hf, hb⟩
    refine ⟨hf, fun h => hb ⟨hk.2.2 h.1, ?_⟩⟩
    unfold dataBacked
    rw [setUnrleLen_args, setUnrleLen_platform, hargs, hplat]
    exact h.2
  · rintro buf v ⟨hl, hkv⟩
    have hlen : v.unrleLen = total := by rw [hkv.1]; rfl
    refine ⟨(hframe'.trans hkv.1.unrleFrame).trans rfl, rfl, ?_, ?_, ?_, ?_, fun h => hkv.2.1 (hok h)⟩
    · rw [keepScratch_scratch, keepScratch_unrleLen, hlen, hl]
    · rw [keepScratch_unrleLen, hlen]; exact word_ne_zero htotal
    · rw [keepScratch_unrleLen, hlen]; rw [setUnrleLen_platform, hplat] at hcap; omega
    · rw [keepScratch_dataPos, ← hargs]; exact hkv.2.2.2 (by rw [setUnrleLen_dataPos, hpos]; simp)

end Sys2Proof.Machine
end

