-- ==== Sys2Proof/Laws/Stream.lean ====
section
/-! SUPPORT. What the RunLengthExpander gives on a stream whose codes stand in the command region (spec/30_encoding.md
R84, spec/41_unrle.md R144). -/

namespace Sys2Proof.Machine

theorem expansion_length (data : Nat → Byte) : ∀ (copy : Bool) (pos : Nat) (runs : List Nat),
    (expansion data copy pos runs).length = runs.sum
  | _, _, [] => rfl
  | true, pos, r :: rs => by simp [expansion, expansion_length data false (pos + r) rs]
  | false, pos, r :: rs => by simp [expansion, expansion_length data true pos rs]

theorem copiedLength_le : ∀ (copy : Bool) (runs : List Nat), copiedLength copy runs ≤ runs.sum
  | _, [] => by simp [copiedLength]
  | true, r :: rs => by have := copiedLength_le false rs; simp [copiedLength]; omega
  | false, r :: rs => by have := copiedLength_le true rs; simp [copiedLength]; omega

/-- The codes of the runs, one after another. -/
theorem flatMap_cons (r : Nat) (rs : List Nat) :
    (r :: rs).flatMap gammaCode = gammaCode r ++ rs.flatMap gammaCode := rfl

/-- Filling at the end of what is already filled. -/
theorem fillAt_zeros (pre bytes : List Byte) (n : Nat) :
    fillAt (pre ++ List.replicate n 0#8) pre.length bytes =
      (pre ++ bytes) ++ List.replicate (n - bytes.length) 0#8 := by
  simp [fillAt]

theorem run_ne_invalid {r : Nat} (h : r < 0xFFFFFFFF) : BitVec.ofNat 32 r ≠ Config.gammaInvalid := by
  intro h0
  have := congrArg BitVec.toNat h0
  simp [Config.gammaInvalid] at this
  omega

theorem ofNat_toNat_of_lt {r : Nat} (h : r < 4294967296) : (BitVec.ofNat 32 r).toNat = r := by
  rw [BitVec.toNat_ofNat, Nat.mod_eq_of_lt (by omega)]

theorem cursorReady_setDataPos {s : State} (h : cursorReady s) (w : Word) : cursorReady (setDataPos w s) :=
  ⟨h.duty, h.backed, h.ok⟩

theorem movedOn_setDataPos (s : State) (w : Word) (n : Nat) :
    movedOn (setDataPos w s) n = setDataPos w (movedOn s n) := rfl

theorem movedOn_setUnrleLen (s : State) (w : Word) (n : Nat) :
    movedOn (setUnrleLen w s) n = setUnrleLen w (movedOn s n) := rfl

theorem flagAfter_cons (f : Bool) (r : Nat) (rs : List Nat) : flagAfter f (r :: rs) = flagAfter (!f) rs := rfl

/-- The loop over runs whose codes stand ahead and that are good: it goes on behind them, the buffer filled as R144 says
(R140, R143, R144). -/
theorem unrleRuns_ahead {m : List Bool} : ∀ {runs : List Nat} {fuel off total : Nat} {copy : Bool} {pre : List Byte}
    {s : State}, cursorReady s → s.cur.exh = false → dataReady s (s.dataPos.toNat + copiedLength copy runs) →
    (∀ r ∈ runs, 0 < r) → off + runs.sum ≤ total → total < 0xFFFFFFFF → total - off ≤ fuel → pre.length = off →
    s.dataPos.toNat + copiedLength copy runs ≤ s.args.dataLen.toNat →
    s.bitsAhead (runs.flatMap gammaCode ++ m) →
    ∃ fuel', total - (off + runs.sum) ≤ fuel' ∧
      unrleRuns fuel copy total off (pre ++ List.replicate (total - off) 0#8) s =
        unrleRuns fuel' (flagAfter copy runs) total (off + runs.sum)
          (pre ++ expansion s.dataByte copy s.dataPos.toNat runs ++ List.replicate (total - (off + runs.sum)) 0#8)
          (setDataPos (s.dataPos + BitVec.ofNat 32 (copiedLength copy runs))
            (movedOn s (runs.flatMap gammaCode).length)) := by
  intro runs
  induction runs with
  | nil =>
    intro fuel off total copy pre s _ _ _ _ _ _ hfuel _ _ _
    exact ⟨fuel, hfuel, by simp [expansion, copiedLength, flagAfter, movedOn_zero, setDataPos]⟩
  | cons r rs ih =>
    intro fuel off total copy pre s hr hx hd hpos hsum htot hfuel hpre hdata ha
    have hr0 : 0 < r := hpos r (by simp)
    rw [List.sum_cons] at hsum
    have hrs : ∀ q ∈ rs, 0 < q := fun q hq => hpos q (by simp [hq])
    obtain ⟨n, rfl⟩ : ∃ n, fuel = n + 1 := ⟨fuel - 1, by omega⟩
    rw [flatMap_cons, List.append_assoc] at ha
    obtain ⟨hg, ha'⟩ := getGamma_code hr hx (by omega) (by omega) ha
    have hlen : (gammaCode r).length ≤ bitsLeft s.cur := by
      have := ha.1; rw [List.length_append] at this; omega
    have hready := cursorReady_movedOn hr hlen
    have hrn : (BitVec.ofNat 32 r).toNat = r := ofNat_toNat_of_lt (by omega)
    have hlenTotal : ((r :: rs).flatMap gammaCode).length = (gammaCode r).length + (rs.flatMap gammaCode).length := by
      rw [flatMap_cons, List.length_append]
    rw [unrleRuns, if_pos (by omega), hg, andThen_ok, if_neg (run_ne_invalid (by omega)), hrn, if_neg (by omega),
      hlenTotal, List.sum_cons, flagAfter_cons, ← Nat.add_assoc, ← movedOn_add]
    subst hpre
    cases copy with
    | true =>
      simp only [copiedLength, Bool.not_true] at hd hdata ⊢
      have hargs : (movedOn s (gammaCode r).length).args = s.args := rfl
      have hdp : (movedOn s (gammaCode r).length).dataPos = s.dataPos := rfl
      have hsum' : (s.dataPos + BitVec.ofNat 32 r).toNat = s.dataPos.toNat + r := by
        have := s.args.dataLen.isLt
        rw [BitVec.toNat_add, hrn, Nat.mod_eq_of_lt (by omega)]
      have hd' : dataReady (setDataPos (s.dataPos + BitVec.ofNat 32 r) (movedOn s (gammaCode r).length))
          ((s.dataPos + BitVec.ofNat 32 r).toNat + copiedLength false rs) := by
        rw [hsum', Nat.add_assoc]; exact ⟨hd.settled, hd.backed⟩
      rw [if_pos trivial, hargs, hdp, if_neg (by omega),
        readBytes_settled (s := movedOn s (gammaCode r).length) (off := s.dataPos.toNat) (n := r)
          ⟨fun i hi => hd.settled i (by omega), fun i hi => hd.backed i (by omega)⟩, andThen_ok, hdp]
      have hbl : ((List.range r).map fun i =>
          (movedOn s (gammaCode r).length).byteAt (addrAt s.args.dataAddr (s.dataPos.toNat + i))).length = r := by simp
      rw [fillAt_zeros, hbl, show total - pre.length - r = total - (pre.length + r) by omega]
      obtain ⟨fuel', hf, h⟩ := ih (fuel := n) (off := pre.length + r) (copy := false)
        (pre := pre ++ (List.range r).map fun i =>
          (movedOn s (gammaCode r).length).byteAt (addrAt s.args.dataAddr (s.dataPos.toNat + i)))
        (s := setDataPos (s.dataPos + BitVec.ofNat 32 r) (movedOn s (gammaCode r).length))
        (cursorReady_setDataPos hready _) hx hd' hrs (by omega) htot (by omega)
        (by rw [List.length_append, hbl])
        (by rw [setDataPos_dataPos, hsum']; show _ ≤ s.args.dataLen.toNat; omega) ha'
      refine ⟨fuel', hf, h.trans ?_⟩
      have hw : s.dataPos + BitVec.ofNat 32 r + BitVec.ofNat 32 (copiedLength false rs) =
          s.dataPos + BitVec.ofNat 32 (r + copiedLength false rs) := by
        rw [BitVec.add_assoc, ← BitVec.ofNat_add]
      rw [setDataPos_dataPos, hw, hsum', movedOn_setDataPos, expansion, List.append_assoc pre]
      rfl
    | false =>
      simp only [copiedLength, Bool.not_false] at hd hdata ⊢
      rw [if_neg Bool.false_ne_true]
      have hsplit : List.replicate (total - pre.length) (0#8 : Byte) =
          List.replicate r 0#8 ++ List.replicate (total - (pre.length + r)) 0#8 := by
        rw [List.replicate_append_replicate]; congr 1; omega
      rw [hsplit, ← List.append_assoc]
      obtain ⟨fuel', hf, h⟩ := ih (fuel := n) (off := pre.length + r) (copy := true) (pre := pre ++ List.replicate r 0#8)
        (s := movedOn s (gammaCode r).length) hready hx ⟨hd.settled, hd.backed⟩ hrs (by omega) htot
        (by omega) (by simp) hdata ha'
      refine ⟨fuel', hf, h.trans ?_⟩
      rw [expansion, List.append_assoc pre]
      rfl

/-- The cursor after the start of the expander is ready, once the command region is. -/
theorem cursorReady_start {s : State} (hc : cmdReady s) (ho : addrOK s.args.cmdAddr s.args.cmdLen = true) :
    cursorReady (startUnrle s) where
  duty := by
    unfold State.dutyKept
    rw [startUnrle_unstable, List.append_nil]
    exact hc.settled
  backed := hc.backed
  ok := cursorOk_fresh ho

/-- The bits that begin the command region stand ahead of the fresh cursor. -/
theorem bitsAhead_start {s : State} {bits : List Bool} (h : s.commandBits bits) : (startUnrle s).bitsAhead bits := by
  obtain ⟨hl, hb⟩ := h
  refine ⟨by simpa [bitsLeft] using hl, fun i hi => ?_⟩
  rw [hb i hi]
  simp [State.streamBit, State.commandBit, State.byteAt]

theorem bitsLeft_start (s : State) : bitsLeft (startUnrle s).cur = 8 * s.args.cmdLen.toNat := by simp [bitsLeft]

/-- The state in which the expander has read flag and total (R140): the cursor has passed them. -/
theorem unrleCore_total {s : State} (hc : cmdReady s)
    (ho : addrOK s.args.cmdAddr s.args.cmdLen = true) {flag : Bool} {total : Nat} {m : List Bool}
    (h0 : 0 < total) (ht : total < 0xFFFFFFFF) (ha : s.commandBits (flag :: (gammaCode total ++ m))) :
    unrleCore s = expandRuns flag (BitVec.ofNat 32 total)
        (setUnrleLen (BitVec.ofNat 32 total) (movedOn (startUnrle s) (1 + (gammaCode total).length))) ∧
      (movedOn (startUnrle s) (1 + (gammaCode total).length)).bitsAhead m := by
  have hready := cursorReady_start hc ho
  have ha0 := bitsAhead_start ha
  have h1 : 1 ≤ bitsLeft (startUnrle s).cur := by have := ha0.1; rw [List.length_cons] at this; omega
  have hready1 := cursorReady_movedOn hready h1
  have ha1 := bitsAhead_movedOn (l := [flag]) ha0
  obtain ⟨hg, ha2⟩ := getGamma_code hready1 rfl (by omega) (by omega) ha1
  rw [movedOn_add] at hg ha2
  refine ⟨?_, ha2⟩
  unfold unrleCore
  rw [getBit_ahead hready ha0, andThen_ok, hg, andThen_ok, if_neg (run_ne_invalid ht)]

/-- The state in which the expander has read flag, total and some good runs. -/
def afterRuns (s : State) (flag : Bool) (total : Nat) (runs : List Nat) : State :=
  setDataPos (BitVec.ofNat 32 (copiedLength flag runs)) (setUnrleLen (BitVec.ofNat 32 total)
    (movedOn (startUnrle s) (commandStream flag total runs).length))

/-- The same state, by its fields. -/
theorem afterRuns_eq (s : State) (flag : Bool) (total : Nat) (runs : List Nat) :
    afterRuns s flag total runs = { s with
      unrleLen := BitVec.ofNat 32 total, dataPos := BitVec.ofNat 32 (copiedLength flag runs)
      cur := cursorAfter ⟨s.args.cmdAddr, s.args.cmdLen, 0#3, false⟩ (commandStream flag total runs).length
      unstable := [], latched := false, scratch := [], scrValid := false, scratchEpoch := s.scratchEpoch + 1 } := by
  simp only [afterRuns, setDataPos, setUnrleLen, movedOn, setCursor, startUnrle, startCursor, release, freshCursor]

/-- The state at the start of the expander, by its fields. -/
theorem startUnrle_eq (s : State) :
    startUnrle s = { s with
      unrleLen := 0#32, dataPos := 0#32, cur := ⟨s.args.cmdAddr, s.args.cmdLen, 0#3, false⟩
      unstable := [], latched := false, scratch := [], scrValid := false, scratchEpoch := s.scratchEpoch + 1 } := by
  simp only [startUnrle, startCursor, setDataPos, setUnrleLen, release, freshCursor]

theorem commandStream_append (flag : Bool) (total : Nat) (runs more : List Nat) :
    commandStream flag total (runs ++ more) = commandStream flag total runs ++ more.flatMap gammaCode := by
  simp [commandStream]

/-- The expander on flag, total and good runs: its loop goes on behind them (R84, R140). -/
theorem unrleCore_runs {s : State} (hc : cmdReady s) (ho : addrOK s.args.cmdAddr s.args.cmdLen = true) {flag : Bool}
    {total : Nat} {runs : List Nat} {m : List Bool} (hd : dataReady s (copiedLength flag runs))
    (hpos : ∀ r ∈ runs, 0 < r) (h0 : 0 < total) (hsum : runs.sum ≤ total) (ht : total < 0xFFFFFFFF)
    (hcap : total ≤ s.platform.unrleCap) (hdata : copiedLength flag runs ≤ s.args.dataLen.toNat)
    (ha : s.commandBits (commandStream flag total runs ++ m)) :
    ∃ fuel, total - runs.sum ≤ fuel ∧ cursorReady (afterRuns s flag total runs) ∧
      (afterRuns s flag total runs).bitsAhead m ∧
      unrleCore s = (unrleRuns fuel (flagAfter flag runs) total runs.sum
        (expansion s.dataByte flag 0 runs ++ List.replicate (total - runs.sum) 0#8)
        (afterRuns s flag total runs)).andThen fun buf t => .ok () (keepScratch buf t) := by
  have ha0 : s.commandBits (flag :: (gammaCode total ++ (runs.flatMap gammaCode ++ m))) := by
    simpa [commandStream] using ha
  obtain ⟨hu, ha'⟩ := unrleCore_total hc ho h0 ht ha0
  have hlen : (commandStream flag total runs).length ≤ bitsLeft (startUnrle s).cur := by
    have := (bitsAhead_start ha).1
    rw [List.length_append] at this
    omega
  have hlen' : (commandStream flag total runs).length =
      1 + (gammaCode total).length + (runs.flatMap gammaCode).length := by
    simp [commandStream]; omega
  have hready := cursorReady_movedOn (cursorReady_start hc ho) (n := 1 + (gammaCode total).length) (by omega)
  have hall := cursorReady_movedOn (cursorReady_start hc ho) hlen
  have hmid : (movedOn (startUnrle s) (commandStream flag total runs).length).bitsAhead m :=
    bitsAhead_movedOn (bitsAhead_start ha)
  have htn : (BitVec.ofNat 32 total).toNat = total := ofNat_toNat_of_lt (by omega)
  have hcap' : ¬ (setUnrleLen (BitVec.ofNat 32 total)
      (movedOn (startUnrle s) (1 + (gammaCode total).length))).platform.unrleCap < total := Nat.not_lt.2 hcap
  have hz : (setUnrleLen (BitVec.ofNat 32 total)
      (movedOn (startUnrle s) (1 + (gammaCode total).length))).dataPos = 0#32 := rfl
  obtain ⟨fuel, hf, h⟩ := unrleRuns_ahead (m := m) (runs := runs) (fuel := total) (off := 0) (total := total)
    (copy := flag) (pre := [])
    (s := setUnrleLen (BitVec.ofNat 32 total) (movedOn (startUnrle s) (1 + (gammaCode total).length)))
    ⟨hready.duty, hready.backed, hready.ok⟩ rfl (by rw [hz]; simpa using ⟨hd.settled, hd.backed⟩) hpos (by omega) ht
    (by omega) rfl (by rw [hz]; simpa using hdata) ha'
  refine ⟨fuel, by omega, ⟨hall.duty, hall.backed, hall.ok⟩, hmid, ?_⟩
  rw [hu, expandRuns, htn, if_neg hcap']
  simp only [List.nil_append, Nat.sub_zero, Nat.zero_add] at h
  rw [h, hz, BitVec.zero_add, movedOn_setUnrleLen, movedOn_add, ← hlen']
  rfl

/-- The expander on a whole well-formed stream (R84, R144). -/
theorem unrleCore_stream {s : State} (hc : cmdReady s) (ho : addrOK s.args.cmdAddr s.args.cmdLen = true) {flag : Bool}
    {runs : List Nat} (hd : dataReady s (copiedLength flag runs)) (hpos : ∀ r ∈ runs, 0 < r) (h0 : 0 < runs.sum)
    (ht : runs.sum < 0xFFFFFFFF) (hcap : runs.sum ≤ s.platform.unrleCap)
    (hdata : copiedLength flag runs ≤ s.args.dataLen.toNat)
    (ha : s.commandBits (commandStream flag runs.sum runs)) :
    unrleCore s = .ok () (keepScratch (expansion s.dataByte flag 0 runs) (afterRuns s flag runs.sum runs)) := by
  obtain ⟨fuel, _, _, _, h⟩ := unrleCore_runs (m := []) hc ho hd hpos h0 (Nat.le_refl _) ht hcap hdata
    (by rwa [List.append_nil])
  rw [h]
  cases fuel <;> simp [unrleRuns]

/-- The loop on a run that overshoots the total or passes the data that remains (R143). -/
theorem unrleRuns_bad {fuel total off r : Nat} {copy : Bool} {buf : List Byte} {m : List Bool} {s : State}
    (hf : total - off ≤ fuel) (hoff : off < total) (hr : cursorReady s) (hx : s.cur.exh = false) (hr0 : 0 < r)
    (hrm : r < 0xFFFFFFFF)
    (hbad : total < off + r ∨ copy = true ∧ s.args.dataLen.toNat < s.dataPos.toNat + r)
    (ha : s.bitsAhead (gammaCode r ++ m)) :
    unrleRuns fuel copy total off buf s = .fail .corruptStream (movedOn s (gammaCode r).length) := by
  obtain ⟨n, rfl⟩ : ∃ n, fuel = n + 1 := ⟨fuel - 1, by omega⟩
  rw [unrleRuns, if_pos hoff, (getGamma_code hr hx (by omega) (by omega) ha).1, andThen_ok,
    if_neg (run_ne_invalid hrm), ofNat_toNat_of_lt (by omega)]
  by_cases h : total - off < r
  · rw [if_pos h]
  · obtain ⟨hc, h'⟩ := hbad.resolve_left (by omega)
    rw [if_neg h, if_pos hc, movedOn_args, movedOn_dataPos, if_pos (by omega)]

/-- The loop on a run whose code is INVALID (R140, R143). -/
theorem unrleRuns_invalid {fuel total off : Nat} {copy : Bool} {buf : List Byte} {s t : State}
    (hf : total - off ≤ fuel) (hoff : off < total) (hg : getGamma s = .ok Config.gammaInvalid t) :
    unrleRuns fuel copy total off buf s = .fail .corruptStream t := by
  obtain ⟨n, rfl⟩ : ∃ n, fuel = n + 1 := ⟨fuel - 1, by omega⟩
  rw [unrleRuns, if_pos hoff, hg, andThen_ok, if_pos rfl]

/-- The loop on a copy run that reaches a data byte outside HOST_MEMORY (R61). -/
theorem unrleRuns_unbacked {fuel total off r : Nat} {buf : List Byte} {m : List Bool} {s : State}
    (hf : total - off ≤ fuel) (hr : cursorReady s) (hx : s.cur.exh = false) (hr0 : 0 < r) (hrm : off + r ≤ total)
    (ht : total < 0xFFFFFFFF) (hdata : s.dataPos.toNat + r ≤ s.args.dataLen.toNat)
    (hb : ∃ i < r, backs s.platform (addrAt s.args.dataAddr (s.dataPos.toNat + i)).toNat = false)
    (ha : s.bitsAhead (gammaCode r ++ m)) :
    unrleRuns fuel true total off buf s = .stop .engineOutsideHostMemory := by
  obtain ⟨n, rfl⟩ : ∃ n, fuel = n + 1 := ⟨fuel - 1, by omega⟩
  rw [unrleRuns, if_pos (by omega), (getGamma_code hr hx (by omega) (by omega) ha).1, andThen_ok,
    if_neg (run_ne_invalid (by omega)), ofNat_toNat_of_lt (by omega), if_neg (by omega), if_pos rfl, movedOn_args,
    movedOn_dataPos, if_neg (by omega), readBytes_unbacked (s := movedOn s (gammaCode r).length) hb]
  rfl

/-! ### INVALID codes -/

theorem commandBits_left {s : State} {l m : List Bool} (h : s.commandBits (l ++ m)) : s.commandBits l := by
  obtain ⟨hlen, hb⟩ := h
  rw [List.length_append] at hlen
  refine ⟨by omega, fun i hi => ?_⟩
  rw [← hb i (by rw [List.length_append]; omega), List.getElem_append_left hi]

theorem bitsAhead_congr {s t : State} (hc : t.cur = s.cur) (hm : t.mem = s.mem) {l : List Bool} (h : s.bitsAhead l) :
    t.bitsAhead l := by
  unfold State.bitsAhead State.streamBit State.byteAt
  rw [hc, hm]
  exact h

/-- What stands in the region after the bits `ahead`, when a code the region ends before follows them. -/
theorem take_ahead {ahead code : List Bool} {n : Nat} (h : ahead.length ≤ n) :
    (ahead ++ code).take n = ahead ++ code.take (n - ahead.length) := by
  rw [List.take_append, List.take_of_length_le h]

theorem commandBits_ahead {s : State} {ahead : List Bool} {c : Cursor} (hi : s.invalidAfter ahead c)
    (hl : ahead.length ≤ 8 * s.args.cmdLen.toNat) : s.commandBits ahead := by
  rcases hi with ⟨code, _, hb, _⟩ | ⟨v, _, _, hb, _⟩
  · exact commandBits_left hb
  · rw [take_ahead hl] at hb
    exact commandBits_left hb

/-- The cursor behind the bits `ahead` finds the code INVALID and stands where `invalidAfter` says (R86, R111). -/
theorem getGamma_invalidAfter {s t : State} {ahead : List Bool} {c : Cursor} (hi : s.invalidAfter ahead c)
    (hl : ahead.length ≤ 8 * s.args.cmdLen.toNat) (hr : cursorReady t)
    (hcur : t.cur = cursorAfter (startUnrle s).cur ahead.length) (hm : t.mem = s.mem) :
    getGamma t = .ok Config.gammaInvalid (setCursor c t) := by
  have hat : ∀ {l : List Bool}, s.commandBits (ahead ++ l) → t.bitsAhead l := fun hb =>
    bitsAhead_congr (s := movedOn (startUnrle s) ahead.length) hcur hm (bitsAhead_movedOn (bitsAhead_start hb))
  rcases hi with ⟨code, hc, hb, rfl⟩ | ⟨v, _, hlen, hb, rfl⟩
  · rw [getGamma_invalid hr (by rw [hcur]; rfl) hc (m := []) (by rw [List.append_nil]; exact hat hb), movedOn, hcur,
      cursorAfter_add, List.length_append]
    rfl
  · have hleft : bitsLeft t.cur = 8 * s.args.cmdLen.toNat - ahead.length := by
      rw [hcur, bitsLeft_cursorAfter, bitsLeft_start]
    rw [take_ahead hl] at hb
    rw [List.length_append] at hlen
    rw [getGamma_short hr (v := v) (by omega) (by rw [hleft]; exact hat hb), ranOut, spentCursor, hleft, hcur,
      cursorAfter_add, show ahead.length + (8 * s.args.cmdLen.toNat - ahead.length) = 8 * s.args.cmdLen.toNat by omega]
    congr 2
    simp [cursorAfter, exhaustedCursor]

theorem cursorReady_ranOut {s : State} (h : cursorReady s) : cursorReady (ranOut s) where
  duty i hi := by rw [ranOut_cur, spentCursor_rem] at hi; exact absurd hi (Nat.not_lt_zero _)
  backed i hi := by rw [ranOut_cur, spentCursor_rem] at hi; exact absurd hi (Nat.not_lt_zero _)
  ok := cursorOk_exhausted (cursorReady_movedOn h (Nat.le_refl _)).ok (spentCursor_rem s.cur)

/-- A total that is INVALID (R140, R141): the region may even be empty. -/
theorem unrleCore_invalidTotal {s : State} (hc : cmdReady s) (ho : addrOK s.args.cmdAddr s.args.cmdLen = true)
    {flag : Bool} {c : Cursor} (hi : s.invalidAfter [flag] c) :
    unrleCore s = .fail .corruptStream (setCursor c (startUnrle s)) := by
  have hready := cursorReady_start hc ho
  have hleft := bitsLeft_start s
  unfold unrleCore
  by_cases h0 : s.args.cmdLen = 0#32
  · have hl0 : 8 * s.args.cmdLen.toNat = 0 := by rw [h0]; rfl
    rcases hi with ⟨code, _, hb, _⟩ | ⟨v, _, _, _, rfl⟩
    · have := hb.1
      rw [List.length_append, List.length_singleton] at this
      omega
    · have hleft' : bitsLeft (ranOut (startUnrle s)).cur = 0 := bitsLeft_zero (spentCursor_rem _)
      rw [getBit_spent h0, andThen_ok, getGamma_short (v := 1) (cursorReady_ranOut hready)
        (by rw [hleft', gammaCode_length]; omega)
        (by rw [hleft', List.take_zero]; exact ⟨Nat.zero_le _, fun i hi => absurd hi (Nat.not_lt_zero i)⟩),
        andThen_ok, if_pos rfl]
      congr 1
      simp [ranOut, spentCursor, cursorAfter, exhaustedCursor, bitsLeft, h0]
  · have hpos := word_ne_zero h0
    have hl : [flag].length ≤ 8 * s.args.cmdLen.toNat := by rw [List.length_singleton]; omega
    have hb := bitsAhead_start (commandBits_ahead hi hl)
    rw [getBit_ahead hready hb, andThen_ok, getGamma_invalidAfter (t := movedOn (startUnrle s) 1) hi hl
      (cursorReady_movedOn hready (by omega)) rfl rfl, andThen_ok, if_pos rfl]
    rfl

/-- A run that is INVALID, behind a total and good runs (R140, R141). -/
theorem unrleCore_invalidRun {s : State} (hc : cmdReady s) (ho : addrOK s.args.cmdAddr s.args.cmdLen = true)
    {flag : Bool} {total : Nat} {runs : List Nat} {c : Cursor} (hd : dataReady s (copiedLength flag runs))
    (hpos : ∀ r ∈ runs, 0 < r) (hsum : runs.sum < total) (ht : total < 0xFFFFFFFF)
    (hcap : total ≤ s.platform.unrleCap) (hdata : copiedLength flag runs ≤ s.args.dataLen.toNat)
    (hl : (commandStream flag total runs).length ≤ 8 * s.args.cmdLen.toNat)
    (hi : s.invalidAfter (commandStream flag total runs) c) :
    unrleCore s = .fail .corruptStream (setCursor c (afterRuns s flag total runs)) := by
  obtain ⟨fuel, hf, hr, _, h⟩ := unrleCore_runs (m := []) hc ho hd hpos (by omega) (by omega) ht hcap hdata
    (by rw [List.append_nil]; exact commandBits_ahead hi hl)
  rw [h, unrleRuns_invalid (by omega) hsum (getGamma_invalidAfter hi hl hr rfl rfl)]
  rfl

end Sys2Proof.Machine
end

