-- ==== Sys2Proof/Laws/Commands.lean ====
section
/-! SUPPORT. The tests of each command against the conditions of Safety, and, once for each command, everything it can do:
what it may change, the codes it may fail with, and where it has no step. -/

namespace Sys2Proof.Machine

variable {s t : State}

/-! ### The tests -/

theorem addrOK_iff (a n : Word) : addrOK a n = true ↔ a.toNat + n.toNat ≤ Config.addressCount := by simp [addrOK]

theorem outputTests_none : firstFailure (outputTests s) = none ↔ outputAllowed s := by
  simp only [outputTests, dimensionTests, lengthTests, outRangeTest, List.cons_append, List.nil_append,
    firstFailure_cons, firstFailure_nil]
  constructor
  · intro h
    split at h <;> try cases h
    rename_i h1
    split at h <;> try cases h
    rename_i h2
    split at h <;> try cases h
    rename_i h3
    split at h <;> try cases h
    rename_i h4
    split at h <;> try cases h
    rename_i h5
    split at h <;> try cases h
    rename_i h6
    split at h <;> try cases h
    rename_i h7
    split at h <;> try cases h
    rename_i h8
    simp only [Bool.or_eq_true, not_or, decide_eq_true_eq, beq_iff_eq, Bool.not_eq_true', addrOK,
      decide_eq_false_iff_not, not_not, Nat.not_lt] at h1 h2 h3 h4 h5 h6 h7 h8
    exact ⟨h1, h2, h3.1, h3.2, h4, h5, by simpa using h6, h7, by omega⟩
  · rintro ⟨h1, h2, h3, h4, h5, h6, h7, h8, h9⟩
    rw [← addrOK_iff] at h6
    simp [h1, Nat.not_lt.2 h2, h3, h4, h6, h7, Nat.not_lt.2 h8, h9, show ¬ s.args.depth.toNat = 0 by omega,
      Nat.not_lt.2 h5.2]

theorem unrleTests_none : firstFailure (unrleTests s) = none ↔ unrleAllowed s := by
  simp only [unrleTests, dataNullTest, cmdNullTest, dataRangeTest, cmdRangeTest, firstFailure_cons, firstFailure_nil]
  constructor
  · intro h
    split at h <;> try cases h
    rename_i h1
    split at h <;> try cases h
    rename_i h2
    split at h <;> try cases h
    rename_i h3
    split at h <;> try cases h
    rename_i h4
    simp only [beq_iff_eq, Bool.not_eq_true', Bool.not_eq_false, addrOK_iff] at h1 h2 h3 h4
    exact ⟨h1, h2, h3, h4⟩
  · rintro ⟨h1, h2, h3, h4⟩
    rw [← addrOK_iff] at h3 h4
    simp [h1, h2, h3, h4]

theorem decodeTests_none : firstFailure (decodeTests s) = none ↔ decodeAllowed s := by
  simp only [decodeTests, dimensionTests, dataNullTest, cmdNullTest, dataRangeTest, cmdRangeTest, outRangeTest,
    List.cons_append, List.nil_append, firstFailure_cons, firstFailure_nil]
  constructor
  · intro h
    split at h <;> try cases h
    rename_i h1
    split at h <;> try cases h
    rename_i h2
    split at h <;> try cases h
    rename_i h3
    split at h <;> try cases h
    rename_i h4
    split at h <;> try cases h
    rename_i h5
    split at h <;> try cases h
    rename_i h6
    split at h <;> try cases h
    rename_i h7
    split at h <;> try cases h
    rename_i h8
    split at h <;> try cases h
    rename_i h9
    simp only [beq_iff_eq, Bool.not_eq_true', Bool.not_eq_false, addrOK_iff, Bool.or_eq_true, not_or,
      decide_eq_true_eq, Nat.not_lt] at h1 h2 h3 h4 h5 h6 h7 h8 h9
    exact ⟨⟨h1, h2, h7, h8⟩, h3, h4, h5.1, h5.2, h6, h9⟩
  · rintro ⟨⟨h1, h2, h3, h4⟩, h5, h6, h7, h8, h9, h10⟩
    rw [← addrOK_iff] at h3 h4 h10
    simp [h1, h2, h3, h4, h5, Nat.not_lt.2 h6, h7, h8, h10, show ¬ s.args.depth.toNat = 0 by omega,
      Nat.not_lt.2 h9.2]

theorem lengthTests_none :
    firstFailure (lengthTests s) = none ↔ s.unrleLen.toNat ≤ s.args.outCap.toNat ∧ s.unrleLen.toNat % 4 = 0 := by
  simp only [lengthTests, firstFailure_cons, firstFailure_nil]
  constructor
  · intro h
    split at h <;> try cases h
    rename_i h1
    split at h <;> try cases h
    rename_i h2
    simp only [decide_eq_true_eq] at h1 h2
    omega
  · rintro ⟨h1, h2⟩
    simp [Nat.not_lt.2 h1, h2]

/-- A test that raises, raises one of the listed codes. -/
theorem firstFailure_mem : ∀ {tests : List (Bool × Code)} {c : Code}, firstFailure tests = some c →
    c ∈ tests.map Prod.snd
  | [], _, h => by cases h
  | (b, d) :: rest, c, h => by
    rw [firstFailure_cons] at h
    split at h
    · cases h; simp
    · exact List.mem_cons_of_mem _ (firstFailure_mem h)

/-! ### What each command does before its completion -/

/-- The pseudocode of a command, up to its completion. -/
def commandBody (i : Instr) (s : State) : Res Unit :=
  match i with
  | .nop => .ok () s
  | .curInit => latching (checked (curInitTests s) (fun s => .ok () (startCursor s)) s)
  | .getBit => latching ((getBit s).andThen fun b s => .ok () (setResult ((BitVec.ofBool b).zeroExtend 32) s))
  | .getGamma => latching ((getGamma s).andThen fun w s => .ok () (setResult w s))
  | .unrle => checked (unrleTests s) unrleCore s
  | .scratchRead =>
    checked (scratchReadTests s) (fun s => .ok () (setResult ((scratchAt s (operandIndex s)).zeroExtend 32) s)) s
  | .unpackValue => .ok () (setResult ((unpackValue (operandByte s)).zeroExtend 32) s)
  | .tableRead => .ok () (setResult (romTable (operandSelect s) (operandByte s)) s)
  | .regroup => checked (outputTests s) regroupCore s
  | .hdelta => checked (outputTests s) hdeltaCore s
  | .vdelta => checked (outputTests s) vdeltaCore s
  | .undeltafilter => checked (outputTests s) undeltaCore s
  | .decode => releasing (checked (decodeTests s) decodeCore s)

theorem exec_eq (i : Instr) (s : State) : exec i s = finish (commandBody i s) := by cases i <;> rfl

/-- All that a command may change before its completion. -/
def commandFrame (s t : State) : Prop :=
  t = { s with
    result := t.result, mem := t.mem, cur := t.cur, draws := t.draws, dataPos := t.dataPos, unrleLen := t.unrleLen,
    unstable := t.unstable, latched := t.latched, scrValid := t.scrValid, scratch := t.scratch, scratchEpoch := t.scratchEpoch }

/-- Scratch and VALID agree (R37, R38). -/
def scratchOk (s : State) : Prop :=
  (s.scrValid = true → s.scratch.length = s.unrleLen.toNat ∧ 0 < s.unrleLen.toNat ∧
    s.unrleLen.toNat ≤ s.platform.unrleCap) ∧ (s.scrValid = false → s.scratch = [])

/-- The commands that write OUT. -/
def outWriters : List Instr := [.regroup, .hdelta, .vdelta, .undeltafilter, .decode]

/-- The commands that write RESULT (R25). -/
def resultWriters : List Instr := [.getBit, .getGamma, .unpackValue, .tableRead, .scratchRead]

/-- What every command keeps, however it ends. -/
structure commandKept (s t : State) : Prop where
  frame : commandFrame s t
  wf : Memory.wf s.mem = true → Memory.wf t.mem = true
  cursor : cursorOk s.cur → cursorOk t.cur
  scratch : scratchOk s → scratchOk t

/-- What a command has done at the end of its pseudocode. -/
structure commandDone (i : Instr) (s t : State) : Prop where
  kept : commandKept s t
  outside : sameOutside s.args.outAddr t.unrleLen.toNat s t
  mem : i ∉ outWriters → t.mem = s.mem
  result : i ∉ resultWriters → t.result = s.result

/-- What a command has done when it raises. -/
structure commandFailed (i : Instr) (c : Code) (s t : State) : Prop where
  kept : commandKept s t
  code : c ∈ codesOf i
  code_ne : c ≠ .success
  mem : t.mem = s.mem
  result : t.result = s.result

theorem commandKept.refl (s : State) : commandKept s s := ⟨rfl, id, id, id⟩

theorem commandFailed_refl {i : Instr} {c : Code} (h : c ∈ codesOf i) (hc : c ≠ .success) (s : State) :
    commandFailed i c s s := ⟨.refl s, h, hc, rfl, rfl⟩

/-- A command whose tests raise changes nothing. -/
theorem checked_sat {i : Instr} {tests : List (Bool × Code)} {k : State → Res Unit} {X : Fault → Prop}
    (hc : ∀ c ∈ tests.map Prod.snd, c ∈ codesOf i ∧ c ≠ .success)
    (hk : firstFailure tests = none → (k s).Sat (fun _ t => commandDone i s t) (fun c t => commandFailed i c s t) X) :
    (checked tests k s).Sat (fun _ t => commandDone i s t) (fun c t => commandFailed i c s t) X := by
  cases h : firstFailure tests with
  | none => rw [checked_none h]; exact hk h
  | some c =>
    rw [checked_some h]
    have := hc c (firstFailure_mem h)
    exact commandFailed_refl this.1 this.2 s

theorem done_of_cursorFrame {i : Instr} (h : cursorFrame s t) (hc : cursorOk s.cur → cursorOk t.cur) (w : Word)
    (hi : i ∈ resultWriters) : commandDone i s (setResult w t) where
  kept := by
    refine ⟨?_, ?_, hc, ?_⟩
    · unfold commandFrame; rw [h]; rfl
    · rw [setResult_mem, h.mem]; exact id
    · unfold scratchOk; rw [h]; exact id
  outside a _ := by unfold State.byteAt; rw [setResult_mem, h.mem]
  mem _ := by rw [setResult_mem, h.mem]
  result hn := absurd hi hn

theorem done_setResult {i : Instr} (w : Word) (hi : i ∈ resultWriters) : commandDone i s (setResult w s) :=
  done_of_cursorFrame (.refl s) id w hi

theorem done_of_outKept {i : Instr} (h : outKept s t) (hi : i ∈ outWriters) : commandDone i s t where
  kept := by
    refine ⟨?_, h.2.1, ?_, ?_⟩
    · unfold commandFrame; have := h.1; unfold memFrame at this; rw [this]
    · rw [h.1.cur]; exact id
    · unfold scratchOk; rw [h.1]; exact id
  outside := by rw [h.1.unrleLen]; exact h.2.2
  mem hn := absurd hi hn
  result _ := h.1.result

theorem unrleFrame.command (h : unrleFrame s t) : commandFrame s t := by
  unfold unrleFrame at h; unfold commandFrame; rw [h]

theorem done_of_unrleDone {i : Instr} (ho : addrOK s.args.cmdAddr s.args.cmdLen = true) (h : unrleDone s t) :
    commandDone i s t := by
  obtain ⟨hf, h1, h2, h3, h4, _, h6⟩ := h
  have hm : t.mem = s.mem := by rw [hf]
  have hp : t.platform = s.platform := by rw [hf]
  refine ⟨⟨hf.command, by rw [hm]; exact id, fun _ => h6 ho, fun _ => ⟨fun _ => ⟨h2, h3, by rw [hp]; exact h4⟩, ?_⟩⟩,
    fun a _ => by unfold State.byteAt; rw [hm], fun _ => hm, fun _ => by rw [hf]⟩
  rw [h1]; exact fun h => Bool.noConfusion h

theorem failed_of_unrleFailed {i : Instr} {c : Code} (ho : addrOK s.args.cmdAddr s.args.cmdLen = true)
    (hc : c ∈ codesOf i) (hn : c ≠ .success) (h : unrleFailed s t) : commandFailed i c s t := by
  obtain ⟨hf, h1, h2, h3⟩ := h
  have hm : t.mem = s.mem := by rw [hf]
  refine ⟨⟨hf.command, by rw [hm]; exact id, fun _ => h3 ho, fun _ => ⟨?_, fun _ => h2⟩⟩, hc, hn, hm, by rw [hf]⟩
  rw [h1]; exact fun h => Bool.noConfusion h

theorem commandKept_release (h : commandKept s t) : commandKept s (release t) where
  frame := by have hf := h.frame; unfold commandFrame at *; rw [hf]; rfl
  wf := h.wf
  cursor := h.cursor
  scratch _ := ⟨fun h => Bool.noConfusion h, fun _ => rfl⟩

theorem commandKept_latch (h : commandKept s t) : commandKept s (latchCursor t) where
  frame := by have hf := h.frame; unfold commandFrame at *; rw [hf]; rfl
  wf := h.wf
  cursor := h.cursor
  scratch := h.scratch

/-- A cursor command can do what its pseudocode can do (R75). -/
theorem latching_sat {i : Instr} {r : Res Unit} {X : Fault → Prop}
    (h : r.Sat (fun _ t => commandDone i s t) (fun c t => commandFailed i c s t) X) :
    (latching r).Sat (fun _ t => commandDone i s t) (fun c t => commandFailed i c s t) X := by
  cases r with
  | ok a t => exact ⟨commandKept_latch h.kept, h.outside, h.mem, h.result⟩
  | fail c t => exact ⟨commandKept_latch h.kept, h.code, h.code_ne, h.mem, h.result⟩
  | stop f => exact h

theorem outputCommand_sat {i : Instr} {core : State → Res Unit}
    (hi : i ∈ [Instr.regroup, .hdelta, .vdelta, .undeltafilter])
    (hcore : (core s).Sat (fun _ t => outKept s t) (fun _ _ => False)
      (fun f => f = .engineOutsideHostMemory ∧ ¬ outBacked s)) :
    (checked (outputTests s) core s).Sat (fun _ t => commandDone i s t) (fun c t => commandFailed i c s t)
      (fun f => f = .engineOutsideHostMemory ∧ ¬ regionsBacked i s) := by
  have hcodes : ∀ c ∈ (outputTests s).map Prod.snd, c ∈ codesOf i ∧ c ≠ .success := by
    simp only [List.mem_cons, List.not_mem_nil, or_false] at hi
    rcases hi with rfl | rfl | rfl | rfl <;>
      simp [outputTests, dimensionTests, outRangeTest, lengthTests, codesOf]
  refine checked_sat hcodes fun _ => hcore.mono (fun _ t ht => done_of_outKept ht ?_) (fun _ _ h => h.elim) ?_
  · simp only [List.mem_cons, List.not_mem_nil, or_false] at hi
    rcases hi with rfl | rfl | rfl | rfl <;> simp [outWriters]
  · rintro f ⟨hf, hb⟩
    simp only [List.mem_cons, List.not_mem_nil, or_false] at hi
    rcases hi with rfl | rfl | rfl | rfl <;> exact ⟨hf, hb⟩

theorem decodeCore_sat (ha : decodeAllowed s) :
    (decodeCore s).Sat (fun _ t => commandDone .decode s t) (fun c t => commandFailed .decode c s t)
      (fun f => f = .engineOutsideHostMemory ∧ ¬ regionsBacked .decode s) := by
  have ho := (addrOK_iff _ _).2 ha.unrle.cmdRange
  unfold decodeCore
  refine ((unrleCore_sat s).mono (Q' := fun _ t => unrleDone s t) (fun _ _ h => h) ?_ ?_).andThen ?_
  · rintro c t ⟨hc, ht⟩
    refine failed_of_unrleFailed ho ?_ ?_ ht
    · rcases hc with rfl | rfl <;> simp [codesOf]
    · rcases hc with rfl | rfl <;> simp
  · rintro f ⟨hf, hb⟩; exact ⟨hf, fun h => hb ⟨h.1, h.2.1⟩⟩
  intro _ t ht
  have hd : commandDone .decode s t := done_of_unrleDone ho ht
  have hargs : t.args = s.args := by rw [ht.1]
  have hplat : t.platform = s.platform := by rw [ht.1]
  cases h : firstFailure (lengthTests t) with
  | some c =>
    rw [checked_some h]
    have hm := firstFailure_mem h
    refine ⟨hd.kept, ?_, ?_, by rw [ht.1], by rw [ht.1]⟩
    · simp only [lengthTests, List.map_cons, List.map_nil, List.mem_cons, List.not_mem_nil, or_false] at hm
      rcases hm with rfl | rfl <;> simp [codesOf]
    · simp only [lengthTests, List.map_cons, List.map_nil, List.mem_cons, List.not_mem_nil, or_false] at hm
      rcases hm with rfl | rfl <;> simp
  | none =>
    rw [checked_none h]
    have hl := lengthTests_none.1 h
    refine (undeltaCore_outKept t).mono ?_ (fun _ _ h => h.elim) ?_
    · intro _ u hu
      have hdu : commandDone .decode t u := done_of_outKept hu (by simp [outWriters])
      refine ⟨⟨?_, hdu.kept.wf ∘ hd.kept.wf, hdu.kept.cursor ∘ hd.kept.cursor, hdu.kept.scratch ∘ hd.kept.scratch⟩,
        fun a ha => ?_, fun hn => absurd (by simp [outWriters]) hn, fun hn => ?_⟩
      · have h1 := hd.kept.frame; have h2 := hdu.kept.frame
        unfold commandFrame at *; rw [h2, h1]
      · rw [hdu.outside a (by rw [hargs]; exact ha), hd.outside a (by rw [← hu.1.unrleLen]; exact ha)]
      · rw [hdu.result hn, hd.result hn]
    · rintro f ⟨hf, hb⟩
      refine ⟨hf, fun hr => hb fun i hi => ?_⟩
      rw [hplat, hargs]
      rw [hargs] at hl
      exact hr.2.2 i (by omega)

/-- Everything a command can do before its completion. -/
theorem commandBody_sat (i : Instr) (s : State) :
    (commandBody i s).Sat (fun _ t => commandDone i s t) (fun c t => commandFailed i c s t)
      (fun f => f = .engineOutsideHostMemory ∧ ¬ regionsBacked i s) := by
  cases i with
  | nop => exact ⟨.refl s, fun _ _ => rfl, fun _ => rfl, fun _ => rfl⟩
  | curInit =>
    refine latching_sat (checked_sat (i := .curInit) (s := s) (tests := curInitTests s)
      (k := fun s => .ok () (startCursor s)) (by simp [curInitTests, cmdNullTest, cmdRangeTest, codesOf]) fun h => ?_)
    refine ⟨⟨rfl, id, fun _ => cursorOk_fresh ?_, id⟩, fun _ _ => rfl, fun _ => rfl, fun _ => rfl⟩
    simp only [curInitTests, cmdNullTest, cmdRangeTest, firstFailure_cons, firstFailure_nil] at h
    split at h <;> try cases h
    split at h <;> try cases h
    rename_i h1
    simpa using h1
  | getBit =>
    exact latching_sat (((getBit_kept s).mono (fun _ _ h => h) (fun _ _ h => h.elim) fun _ h => h).andThen
      fun b t ht => done_of_cursorFrame ht.1.1 ht.1.2.1 _ (by simp [resultWriters]))
  | getGamma =>
    exact latching_sat (((getGamma_kept s).mono (fun _ _ h => h) (fun _ _ h => h.elim) fun _ h => h).andThen
      fun w t ht => done_of_cursorFrame ht.1.1 ht.1.2.1 _ (by simp [resultWriters]))
  | unrle =>
    refine checked_sat (i := .unrle) (s := s) (tests := unrleTests s) (k := unrleCore)
      (by simp [unrleTests, dataNullTest, cmdNullTest, dataRangeTest, cmdRangeTest, codesOf]) fun h => ?_
    have ho := (addrOK_iff _ _).2 (unrleTests_none.1 h).cmdRange
    refine (unrleCore_sat s).mono (fun _ _ ht => done_of_unrleDone ho ht) ?_ fun _ h => h
    rintro c t ⟨hc, ht⟩
    refine failed_of_unrleFailed ho ?_ ?_ ht
    · rcases hc with rfl | rfl <;> simp [codesOf]
    · rcases hc with rfl | rfl <;> simp
  | scratchRead =>
    exact checked_sat (i := .scratchRead) (s := s) (tests := scratchReadTests s)
      (k := fun s => .ok () (setResult ((scratchAt s (operandIndex s)).zeroExtend 32) s))
      (by simp [scratchReadTests, codesOf])
      fun _ => done_setResult (i := .scratchRead) _ (by simp [resultWriters])
  | unpackValue => exact done_setResult _ (by simp [resultWriters])
  | tableRead => exact done_setResult _ (by simp [resultWriters])
  | regroup => exact outputCommand_sat (by simp) (regroupCore_outKept s)
  | hdelta => exact outputCommand_sat (by simp) (hdeltaCore_outKept (.refl s))
  | vdelta => exact outputCommand_sat (by simp) (vdeltaCore_outKept (.refl s))
  | undeltafilter => exact outputCommand_sat (by simp) (undeltaCore_outKept s)
  | decode =>
    have h := checked_sat (i := .decode) (s := s) (tests := decodeTests s) (k := decodeCore)
      (by simp [decodeTests, dimensionTests, dataNullTest, cmdNullTest, dataRangeTest, cmdRangeTest, outRangeTest,
        codesOf]) fun h => decodeCore_sat (decodeTests_none.1 h)
    unfold commandBody
    cases hr : checked (decodeTests s) decodeCore s with
    | ok a t =>
      have ht := h.of_ok hr
      exact ⟨commandKept_release ht.kept, ht.outside, ht.mem, ht.result⟩
    | fail c t =>
      have ht := h.of_fail hr
      exact ⟨commandKept_release ht.kept, ht.code, ht.code_ne, ht.mem, ht.result⟩
    | stop f => exact h.of_stop hr

/-! ### What each command can do, its completion included -/

/-- A command that completes: its pseudocode ended well, or raised, and then it was completed (R238). -/
theorem exec_next {i : Instr} (h : exec i s = .next t) :
    (∃ u, commandDone i s u ∧ t = complete .success u) ∨ ∃ c u, commandFailed i c s u ∧ t = complete c u := by
  rw [exec_eq] at h
  have hs := commandBody_sat i s
  cases hb : commandBody i s with
  | ok a u => rw [hb] at h; cases h; exact .inl ⟨u, hs.of_ok hb, rfl⟩
  | fail c u => rw [hb] at h; cases h; exact .inr ⟨c, u, hs.of_fail hb, rfl⟩
  | stop f => rw [hb] at h; cases h

/-- What every completed command keeps. -/
theorem exec_kept {i : Instr} (h : exec i s = .next t) : ∃ u c, commandKept s u ∧ t = complete c u := by
  rcases exec_next h with ⟨u, hu, ht⟩ | ⟨c, u, hu, ht⟩
  · exact ⟨u, _, hu.kept, ht⟩
  · exact ⟨u, _, hu.kept, ht⟩

theorem exec_stop {i : Instr} {f : Fault} (h : exec i s = .fault f) :
    f = .engineOutsideHostMemory ∧ ¬ regionsBacked i s := by
  rw [exec_eq] at h
  have hs := commandBody_sat i s
  cases hb : commandBody i s with
  | ok a u => rw [hb] at h; cases h
  | fail c u => rw [hb] at h; cases h
  | stop g => rw [hb] at h; cases h; exact hs.of_stop hb

theorem exec_not_refused (i : Instr) (s : State) (r : Refusal) : exec i s ≠ .refused r := by
  rw [exec_eq]
  cases commandBody i s <;> exact fun h => nomatch h

/-! ### A command whose tests pass -/

theorem exec_unrle {s : State} (ha : unrleAllowed s) : exec .unrle s = finish (unrleCore s) := by
  show execUnrle s = _
  rw [execUnrle, checked_none (unrleTests_none.2 ha)]

theorem exec_regroup {s : State} (h : outputAllowed s) : exec .regroup s = finish (regroupCore s) := by
  show execRegroup s = _; rw [execRegroup, checked_none (outputTests_none.2 h)]
theorem exec_hdelta {s : State} (h : outputAllowed s) : exec .hdelta s = finish (hdeltaCore s) := by
  show execHdelta s = _; rw [execHdelta, checked_none (outputTests_none.2 h)]
theorem exec_vdelta {s : State} (h : outputAllowed s) : exec .vdelta s = finish (vdeltaCore s) := by
  show execVdelta s = _; rw [execVdelta, checked_none (outputTests_none.2 h)]
theorem exec_undelta {s : State} (h : outputAllowed s) : exec .undeltafilter s = finish (undeltaCore s) := by
  show execUndeltafilter s = _; rw [execUndeltafilter, checked_none (outputTests_none.2 h)]

theorem allowed_of {s t : State} (h : outputAllowed s) (h1 : t.args = s.args) (h2 : t.scrValid = s.scrValid)
    (h3 : t.unrleLen = s.unrleLen) : outputAllowed t := by
  obtain ⟨a, b, c, d, e, f, g, i, j⟩ := h
  constructor <;> (try rw [h1]) <;> (try rw [h2]) <;> (try rw [h3]) <;> assumption

theorem allowed_outKept {s t : State} (h : outputAllowed s) (k : outKept s t) : outputAllowed t :=
  allowed_of h k.1.args k.1.scrValid k.1.unrleLen

theorem exec_decode {s : State} (h : decodeAllowed s) : exec .decode s = finish (releasing (decodeCore s)) := by
  show execDecode s = _; rw [execDecode, checked_none (decodeTests_none.2 h)]

/-- After UNRLE, of the tests of the output only the last two can still raise (R213). -/
theorem outputTests_after {s u : State} (h : decodeAllowed s) (ha : u.args = s.args) (hv : u.scrValid = true) :
    firstFailure (outputTests u) = firstFailure (lengthTests u) := by
  obtain ⟨⟨h1, h2, h3, h4⟩, h5, h6, h7, h8, h9, h10⟩ := h
  rw [← addrOK_iff] at h10
  unfold outputTests
  rw [firstFailure_append, firstFailure_append]
  simp [dimensionTests, outRangeTest, ha, h5, Nat.not_lt.2 h6, h7, h8, h10, hv,
    show ¬ s.args.depth.toNat = 0 by omega, Nat.not_lt.2 h9.2]

end Sys2Proof.Machine
end

