-- ==== Sys2Proof/Laws/Completion.lean ====
section
/-! SUPPORT. The steps of the PlaneDeinterleaver read neither STATUS nor the pending command: performed from a completed
state they do what they would have done before the completion (spec/42_deinterleave.md R180, spec/43_decode.md R213). -/

namespace Sys2Proof.Machine

/-- A piece of pseudocode, its end state changed. -/
def Res.onState {α : Type} (f : State → State) (r : Res α) : Res α :=
  match r with
  | .ok a s => .ok a (f s)
  | .fail c s => .fail c (f s)
  | .stop e => .stop e

theorem onState_andThen {α β : Type} {f : State → State} {r : Res α} {k : α → State → Res β}
    (h : ∀ a s, k a (f s) = (k a s).onState f) : (r.onState f).andThen k = (r.andThen k).onState f := by
  cases r with
  | ok a s => exact h a s
  | fail c s => rfl
  | stop e => rfl

theorem forUp_onState {f : State → State} {body : Nat → State → Res Unit}
    (h : ∀ i s, body i (f s) = (body i s).onState f) :
    ∀ (n i : Nat) (s : State), forUp n i body (f s) = (forUp n i body s).onState f
  | 0, _, _ => rfl
  | n + 1, i, s => by
    rw [forUp_succ, forUp_succ, h i s]
    exact onState_andThen fun _ t => forUp_onState h n (i + 1) t

variable (c : Code) (s : State)

theorem memRead_complete (a : Word) : memRead a (complete c s) = (memRead a s).onState (complete c) := by
  unfold memRead readByte
  rw [complete_platform, complete_raced]
  split
  · split <;> rfl
  · rfl

theorem memWrite_complete (a : Word) (v : Byte) :
    memWrite a v (complete c s) = (memWrite a v s).onState (complete c) := by
  unfold memWrite
  rw [complete_platform]
  split <;> rfl

theorem addByte_complete (i j : Nat) : addByte i j (complete c s) = (addByte i j s).onState (complete c) := by
  unfold addByte
  rw [complete_args, memRead_complete]
  refine onState_andThen fun x t => ?_
  rw [complete_args, memRead_complete]
  refine onState_andThen fun y u => ?_
  rw [complete_args]
  exact memWrite_complete c u _ _

theorem regroupCore_complete : regroupCore (complete c s) = (regroupCore s).onState (complete c) := by
  unfold regroupCore
  rw [complete_unrleLen]
  refine forUp_onState (fun j t => ?_) _ _ _
  unfold regroupGroup
  refine forUp_onState (f := complete c) (fun k u => ?_) _ _ _
  rw [complete_args]
  exact memWrite_complete c u _ _

theorem hdeltaCore_complete : hdeltaCore (complete c s) = (hdeltaCore s).onState (complete c) := by
  unfold hdeltaCore
  rw [complete_args, complete_unrleLen]
  refine forUp_onState (fun x t => ?_) _ _ _
  rw [complete_args]
  exact addByte_complete c t _ _

theorem vdeltaCore_complete : vdeltaCore (complete c s) = (vdeltaCore s).onState (complete c) := by
  unfold vdeltaCore
  rw [complete_args]
  refine forUp_onState (fun y t => ?_) _ _ _
  unfold vdeltaRow
  rw [complete_args]
  refine forUp_onState (fun x u => ?_) _ _ _
  unfold vdeltaByte
  rw [complete_args, complete_unrleLen]
  split
  · exact addByte_complete c u _ _
  · rfl

theorem undeltaCore_complete : undeltaCore (complete c s) = (undeltaCore s).onState (complete c) := by
  unfold undeltaCore
  rw [regroupCore_complete]
  refine onState_andThen fun _ t => ?_
  rw [hdeltaCore_complete]
  exact onState_andThen fun _ u => vdeltaCore_complete c u

end Sys2Proof.Machine
end

