-- ==== Sys2Proof/Laws/Footprint.lean ====
section
/-! SUPPORT. What a broken duty and a reset can do to host memory (spec/20_memory.md R71 item 3,
spec/70_reset_and_hazards.md R261), and what the Host's accesses keep. -/

namespace Sys2Proof.Machine

variable {s t : State}

/-- Bytes that take any value: the frame, the canonical form, and every byte outside them. -/
theorem clobberOut_kept : ∀ (n i : Nat) (s : State),
    memFrame s (clobberOut n i s) ∧ (Memory.wf s.mem = true → Memory.wf (clobberOut n i s).mem = true) ∧
      ∀ a : Word, (∀ k < n, a ≠ addrAt s.args.outAddr (i + k)) → (clobberOut n i s).byteAt a = s.byteAt a
  | 0, _, s => ⟨rfl, id, fun _ _ => rfl⟩
  | n + 1, i, s => by
    have hb : memFrame s (clobberByte (addrAt s.args.outAddr i) s) ∧
        (Memory.wf s.mem = true → Memory.wf (clobberByte (addrAt s.args.outAddr i) s).mem = true) ∧
        ∀ a : Word, a ≠ addrAt s.args.outAddr i → (clobberByte (addrAt s.args.outAddr i) s).byteAt a = s.byteAt a := by
      unfold clobberByte
      split
      · refine ⟨rfl, fun hw => Memory.wf_write hw _ _, fun a ha => ?_⟩
        exact Memory.read_write_ne (fun hn => ha (BitVec.eq_of_toNat_eq hn)) _ _
      · exact ⟨rfl, id, fun _ _ => rfl⟩
    obtain ⟨h1, h2, h3⟩ := clobberOut_kept n (i + 1) (clobberByte (addrAt s.args.outAddr i) s)
    refine ⟨hb.1.trans h1, h2 ∘ hb.2.1, fun a ha => ?_⟩
    rw [clobberOut, h3 a, hb.2.2 a (by simpa using ha 0 (by omega))]
    intro k hk
    rw [hb.1.args, show i + 1 + k = i + (k + 1) by omega]
    exact ha (k + 1) (by omega)

/-- What completion settles: at most the bytes of OUT the command may write take another value (R71 item 3). -/
theorem settle_kept (i : Instr) (s t : State) :
    settle i s t = { endRace t with mem := (settle i s t).mem, draws := (settle i s t).draws } ∧
      (Memory.wf t.mem = true → Memory.wf (settle i s t).mem = true) ∧
      sameOutside t.args.outAddr (outReach i s).1 t (settle i s t) := by
  obtain ⟨h1, h2, h3⟩ := clobberOut_kept (outReach i s).1 0 t
  unfold settle
  split
  · refine ⟨?_, h2, fun a ha => h3 a (by simpa using ha)⟩
    unfold memFrame at h1
    rw [h1]
    rfl
  · exact ⟨rfl, id, fun _ _ => rfl⟩

/-- With no race there is nothing to settle. -/
theorem settle_quiet (i : Instr) {s t : State} (hs : s.raced = []) (ht : t.raced = []) : settle i s t = t := by
  unfold settle
  rw [hs, List.any_nil, if_neg Bool.false_ne_true, endRace_quiet ht]

/-- Whether the Host wrote a byte between two cursor commands, in the spec's terms (R75). -/
theorem mayBeLatched_iff (s : State) (a : Nat) : mayBeLatched s a = true ↔ s.unfinished a := by
  simp [mayBeLatched, inRegion, State.unfinished]

/-! ### The bytes of OUT a command may write -/

/-- An OUT command of the PlaneDeinterleaver writes UNRLE_LEN bytes of OUT if its tests pass, and then it succeeds. -/
theorem outCommand_code {core : State → Res Unit} {X : Fault → Prop}
    (hcore : (core s).Sat (fun _ u => outKept s u) (fun _ _ => False) X)
    (h : finish (checked (outputTests s) core s) = .next t) :
    (if firstFailure (outputTests s) = none then s.unrleLen.toNat else 0) =
      if t.status.code = .success then t.unrleLen.toNat else 0 := by
  cases hf : firstFailure (outputTests s) with
  | some c =>
    rw [checked_some hf] at h
    cases h
    have hc : c ≠ .success := by
      rintro rfl
      have := firstFailure_mem hf
      simp [outputTests, dimensionTests, outRangeTest, lengthTests] at this
    simp [hc]
  | none =>
    rw [checked_none hf] at h
    cases hr : core s with
    | fail c u => exact (hcore.of_fail hr).elim
    | stop f => rw [hr] at h; cases h
    | ok a u =>
      rw [hr] at h
      cases h
      simp [(hcore.of_ok hr).1.unrleLen]

/-- DECODE likewise, by what UNRLE left (R212). -/
theorem decode_code (h : exec .decode s = .next t) :
    (outReach .decode s).1 = if t.status.code = .success then t.unrleLen.toNat else 0 := by
  have h' : finish (releasing (checked (decodeTests s) decodeCore s)) = .next t := h
  unfold outReach
  cases hf : firstFailure (decodeTests s) with
  | some c =>
    rw [checked_some hf] at h'
    cases h'
    have hc : c ≠ .success := by
      rintro rfl
      have := firstFailure_mem hf
      simp [decodeTests, dimensionTests, dataNullTest, cmdNullTest, dataRangeTest, cmdRangeTest, outRangeTest] at this
    simp [hc]
  | none =>
    have hs := unrleCore_sat s
    rw [checked_none hf, decodeCore] at h'
    cases hu : unrleCore s with
    | stop f => rw [hu] at h'; cases h'
    | fail c u =>
      rw [hu] at h'
      cases h'
      have hc : c ≠ .success := by rcases (hs.of_fail hu).1 with rfl | rfl <;> simp
      simp [hc]
    | ok a u =>
      rw [hu, andThen_ok] at h'
      simp only []
      cases hl : firstFailure (lengthTests u) with
      | some c =>
        rw [checked_some hl] at h'
        cases h'
        have hc : c ≠ .success := by
          rintro rfl
          have := firstFailure_mem hl
          simp [lengthTests] at this
        simp [hc]
      | none =>
        rw [checked_none hl] at h'
        have hk := undeltaCore_outKept u
        cases hv : undeltaCore u with
        | stop f => rw [hv] at h'; cases h'
        | fail c v => exact (hk.of_fail hv).elim
        | ok b v =>
          rw [hv] at h'
          cases h'
          simp [(hk.of_ok hv).1.unrleLen]

/-- What a command that completes could write of OUT: UNRLE_LEN bytes if it writes OUT and succeeds, else none (R63,
R212). -/
theorem outReach_of_next {i : Instr} (h : exec i s = .next t) :
    (outReach i s).1 = if i ∈ outWriters ∧ t.status.code = .success then t.unrleLen.toNat else 0 := by
  cases i
  case regroup => simpa [outReach, outWriters] using outCommand_code (regroupCore_outKept s) h
  case hdelta => simpa [outReach, outWriters] using outCommand_code (hdeltaCore_outKept (.refl s)) h
  case vdelta => simpa [outReach, outWriters] using outCommand_code (vdeltaCore_outKept (.refl s)) h
  case undeltafilter => simpa [outReach, outWriters] using outCommand_code (undeltaCore_outKept s) h
  case decode => simpa [outWriters] using decode_code h
  all_goals simp [outReach, outWriters]

/-- Those bytes do not wrap past the top of the address space (R62). -/
theorem outReach_range (i : Instr) (s : State) :
    (outReach i s).1 = 0 ∨ s.args.outAddr.toNat + (outReach i s).1 ≤ Config.addressCount := by
  have hout : (if firstFailure (outputTests s) = none then s.unrleLen.toNat else 0) = 0 ∨
      s.args.outAddr.toNat + (if firstFailure (outputTests s) = none then s.unrleLen.toNat else 0) ≤
        Config.addressCount := by
    split
    · rename_i h
      have ha := outputTests_none.1 h
      have := ha.range
      have := ha.capacity
      exact .inr (by omega)
    · exact .inl rfl
  cases i
  case regroup => exact hout
  case hdelta => exact hout
  case vdelta => exact hout
  case undeltafilter => exact hout
  case decode =>
    have hs := unrleCore_sat s
    unfold outReach
    cases hf : firstFailure (decodeTests s) with
    | some c => exact .inl rfl
    | none =>
      cases hu : unrleCore s with
      | stop f => exact .inl rfl
      | fail c u => exact .inl rfl
      | ok a u =>
        simp only []
        split
        · rename_i hl
          have h1 := (decodeTests_none.1 hf).outRange
          have h2 := (lengthTests_none.1 hl).1
          rw [show u.args = s.args by rw [(hs.of_ok hu).1]] at h2
          exact .inr (by omega)
        · exact .inl rfl
  all_goals exact .inl rfl

/-- The addresses `outReach` stands for. -/
theorem inRegion_outReach (i : Instr) (s : State) (a : Word) :
    inRegion s.args.outAddr (outReach i s).1 a.toNat = true ↔
      ∃ k < (outReach i s).1, a = addrAt s.args.outAddr k := by
  have hr := outReach_range i s
  simp only [inRegion, Bool.and_eq_true, decide_eq_true_eq]
  constructor
  · rintro ⟨h1, h2⟩
    refine ⟨a.toNat - s.args.outAddr.toNat, by omega, BitVec.eq_of_toNat_eq ?_⟩
    have := a.isLt
    rw [addrAt_toNat]
    omega
  · rintro ⟨k, hk, rfl⟩
    rw [addrAt_toNat]
    simp only [Config.addressCount] at hr
    omega

/-- A reset while busy: at most the bytes of OUT the discarded command could write take another value (R261). -/
theorem settleReset_kept (s : State) :
    (Memory.wf s.mem = true → Memory.wf (settleReset s).mem = true) ∧
      sameOutside s.args.outAddr (pendingReach s).1 s (settleReset s) ∧
      (s.status.busy = false → settleReset s = s) := by
  obtain ⟨_, h2, h3⟩ := clobberOut_kept (pendingReach s).1 0 { s with draws := (pendingReach s).2 }
  unfold settleReset
  split
  · rename_i hb
    refine ⟨h2, fun a ha => (h3 a (by simpa using ha)).trans rfl, fun h => ?_⟩
    rw [hb] at h; cases h
  · exact ⟨id, fun _ _ => rfl, fun _ => rfl⟩

end Sys2Proof.Machine
end

