-- ==== Sys2Proof/Laws/HostBus.lean ====
section
/-! SUPPORT. The Host's accesses: which addresses of the block hold which register (spec/10_state.md R22), and what a
load and a store do there (spec/20_memory.md R68). -/

namespace Sys2Proof.Machine

variable {s : State}

/-- The accesses the block supports (R68). -/
theorem legalAccess_iff (p : Platform) (n : Nat) (a : Word) :
    p.legalAccess n a = true ↔ n = 4 ∧ a.toNat % 4 = 0 ∧ (a - p.blockBase).toNat < 256 := by
  unfold Platform.legalAccess Config.blockSize
  rw [Bool.and_eq_true, Bool.and_eq_true, decide_eq_true_iff, decide_eq_true_iff, decide_eq_true_iff, and_assoc]

theorem illegalAccess {n : Nat} {a : Word} (h : n ≠ 4 ∨ a.toNat % 4 ≠ 0 ∨ 256 ≤ (a - s.platform.blockBase).toNat) :
    s.platform.legalAccess n a = false := by
  rw [← Bool.not_eq_true, legalAccess_iff]
  rintro ⟨h1, h2, h3⟩
  rcases h with h | h | h
  · exact h h1
  · exact h h2
  · omega

theorem inBlock_false {a : Word} (h : 256 ≤ (a - s.platform.blockBase).toNat) : inBlock a s = false :=
  decide_eq_false (Nat.not_lt.2 h)

/-- The access at an aligned offset of the block is one it supports, and its offset is that one (R22, R68). -/
theorem legalAccess_offset (h : s.platform.wf = true) {k : Nat} (hk : k < 256) (h4 : k % 4 = 0) :
    s.platform.legalAccess 4 (s.platform.blockBase + BitVec.ofNat 32 k) = true ∧
      blockOffset (s.platform.blockBase + BitVec.ofNat 32 k) s = k := by
  have hb : s.platform.blockBase.toNat % 256 = 0 := by
    rw [Platform.wf, Bool.and_eq_true] at h
    exact of_decide_eq_true h.1
  have hlt := s.platform.blockBase.isLt
  have hoff : (s.platform.blockBase + BitVec.ofNat 32 k - s.platform.blockBase).toNat = k := by
    rw [BitVec.add_comm, BitVec.add_sub_cancel, BitVec.toNat_ofNat, Nat.mod_eq_of_lt (by omega)]
  refine ⟨?_, hoff⟩
  rw [Platform.legalAccess, Bool.and_eq_true, Bool.and_eq_true, hoff]
  refine ⟨⟨rfl, decide_eq_true ?_⟩, decide_eq_true hk⟩
  rw [BitVec.toNat_add, BitVec.toNat_ofNat, Nat.mod_eq_of_lt (a := k) (by omega)]
  omega

theorem offset_lt (r : RegName) : r.offset < 256 ∧ r.offset % 4 = 0 := by cases r <;> decide

theorem registerAt_offset (r : RegName) : registerAt r.offset = some r := by cases r <;> rfl

/-- Every offset from 0x50 up is reserved (R39). -/
theorem registerAt_reserved (k : Nat) : registerAt (0x50 + 4 * k) = none := by
  unfold registerAt
  rw [List.find?_eq_none]
  intro r _
  have : r.offset < 0x50 := by cases r <;> decide
  simp only [beq_iff_eq]
  omega

theorem hostLoad_register (h : s.platform.wf = true) (r : RegName) :
    hostLoad 4 (registerAddr s.platform.blockBase r) s = .next (loadRegister r s) := by
  obtain ⟨h1, h2⟩ := legalAccess_offset (s := s) h (offset_lt r).1 (offset_lt r).2
  rw [hostLoad, registerAddr, if_pos h1, h2, registerAt_offset]

theorem hostLoad_reserved (h : s.platform.wf = true) {k : Nat} (hk : k < 44) :
    hostLoad 4 (addrAt s.platform.blockBase (0x50 + 4 * k)) s = .next (observe 0#32 s) := by
  obtain ⟨h1, h2⟩ := legalAccess_offset (s := s) h (k := 0x50 + 4 * k) (by omega) (by omega)
  rw [hostLoad, addrAt, if_pos h1, h2, registerAt_reserved]

theorem hostStore_register (h : s.platform.wf = true) (r : RegName) (w : Word) :
    hostStore 4 (registerAddr s.platform.blockBase r) w s =
      .next (if s.status.busy then s else storeRegister r w s) := by
  obtain ⟨h1, h2⟩ := legalAccess_offset (s := s) h (offset_lt r).1 (offset_lt r).2
  rw [hostStore, registerAddr, if_pos h1, h2, registerAt_offset]
  split <;> rfl

theorem hostStore_reserved (h : s.platform.wf = true) {k : Nat} (hk : k < 44) (w : Word) :
    hostStore 4 (addrAt s.platform.blockBase (0x50 + 4 * k)) w s = .next s := by
  obtain ⟨h1, h2⟩ := legalAccess_offset (s := s) h (k := 0x50 + 4 * k) (by omega) (by omega)
  rw [hostStore, addrAt, if_pos h1, h2, registerAt_reserved]
  split <;> rfl

theorem hostMemStore_backed {a : Word} (hb : backs s.platform a.toNat = true)
    (h : 256 ≤ (a - s.platform.blockBase).toNat) (v : Byte) :
    hostMemStore a v s = .next (noteHostWrite a.toNat (setMem (Memory.write s.mem a.toNat v) s)) := by
  rw [hostMemStore, inBlock_false h, if_neg Bool.false_ne_true, if_pos hb]

theorem hostMemLoad_idle {a : Word} (hb : backs s.platform a.toNat = true)
    (h : 256 ≤ (a - s.platform.blockBase).toNat) (hi : s.status.busy = false) :
    hostMemLoad a s = .next (observe ((s.byteAt a).zeroExtend 32) s) := by
  rw [hostMemLoad, inBlock_false h, if_neg Bool.false_ne_true, if_pos hb, hi, Bool.false_and,
    if_neg Bool.false_ne_true]
  rfl

theorem hostMemLoad_busy {a : Word} (hb : backs s.platform a.toNat = true)
    (h : 256 ≤ (a - s.platform.blockBase).toNat) (hi : s.status.busy = true) :
    hostMemLoad a s = .next
      (if inRegion s.args.outAddr (pendingReach s).1 a.toNat then
        observe ((Config.busyByte s.draws).zeroExtend 32) (drawOne s)
      else observe ((s.byteAt a).zeroExtend 32) s) := by
  rw [hostMemLoad, inBlock_false h, if_neg Bool.false_ne_true, if_pos hb, hi, Bool.true_and]
  split <;> rfl

theorem noteHostWrite_busy (h : s.status.busy = true) (a : Nat) :
    noteHostWrite a s = { s with raced := addOnce a s.raced } := by rw [noteHostWrite, if_pos h]

theorem noteHostWrite_idle (h : s.status.busy = false) (a : Nat) : noteHostWrite a s = latchWrites [a] s := by
  rw [noteHostWrite, if_neg (by rw [h]; exact Bool.false_ne_true)]

/-! ### Steps, by their first input -/

theorem step_engine {s : State} (h : s.engineNext = true) : step s = engineStep s.takeInput := by
  unfold State.engineNext at h
  unfold step
  split at h <;> simp_all

theorem step_store {s : State} {n : Nat} {a w : Word} {rest : List Input} (h : s.inputs = .store n a w :: rest) :
    step s = hostStore n a w s.takeInput := by unfold step; rw [h]

theorem step_load {s : State} {n : Nat} {a : Word} {rest : List Input} (h : s.inputs = .load n a :: rest) :
    step s = hostLoad n a s.takeInput := by unfold step; rw [h]

theorem step_poll {s : State} {rest : List Input} (h : s.inputs = .poll :: rest) :
    step s = .next (hostPoll s.takeInput) := by unfold step; rw [h]

theorem tail_of {s : State} {x : Input} {rest : List Input} (h : s.inputs = x :: rest) :
  s.takeInput = { s with inputs := rest } := by unfold State.takeInput; rw [h]; rfl

theorem store_reg {s : State} {r : RegName} {w : Word} {rest : List Input} (hp : s.platform.wf = true)
    (h : s.inputs = .store 4 (s.regAddr r) w :: rest) :
    step s = .next (if s.status.busy then { s with inputs := rest } else storeRegister r w { s with inputs := rest }) := by
  rw [step_store h, tail_of h]
  exact hostStore_register (s := { s with inputs := rest }) hp r w

theorem load_reg {s : State} {r : RegName} {rest : List Input} (hp : s.platform.wf = true)
    (h : s.inputs = .load 4 (s.regAddr r) :: rest) :
    step s = .next (loadRegister r { s with inputs := rest }) := by
  rw [step_load h, tail_of h]
  exact hostLoad_register (s := { s with inputs := rest }) hp r

/-- One more repetition, at the end. -/
theorem repeat_succ (i : Instr) : ∀ (n : Nat) (s t : State), repeatCommand i n s = .next t →
    repeatCommand i (n + 1) s = exec i t
  | 0, s, t, h => by cases h; rw [repeatCommand]; cases exec i s <;> rfl
  | n + 1, s, t, h => by
    rw [repeatCommand] at h ⊢
    cases he : exec i s with
    | next u => rw [he] at h; simp only [] at h ⊢; exact repeat_succ i n u t h
    | fault f => rw [he] at h; cases h
    | refused r => rw [he] at h; cases h

end Sys2Proof.Machine
end

