-- ==== Sys2Proof/Laws/PerInstr.lean ====
section
/-! SUPPORT. Laws made per instruction (LAWS.json): the word a command encodes to is a legal command word
(spec/30_encoding.md R82). -/

namespace Sys2Proof.Laws.EncodedWordLegal

/-- The command's word is legal: RSV = 0 and OP listed. -/
def Statement (i : Instr) : Prop := legalCommandWord (encode i) = true

theorem nop : Statement .nop := by unfold Statement; decide
theorem curInit : Statement .curInit := by unfold Statement; decide
theorem getBit : Statement .getBit := by unfold Statement; decide
theorem getGamma : Statement .getGamma := by unfold Statement; decide
theorem unrle : Statement .unrle := by unfold Statement; decide
theorem scratchRead : Statement .scratchRead := by unfold Statement; decide
theorem unpackValue : Statement .unpackValue := by unfold Statement; decide
theorem tableRead : Statement .tableRead := by unfold Statement; decide
theorem regroup : Statement .regroup := by unfold Statement; decide
theorem hdelta : Statement .hdelta := by unfold Statement; decide
theorem vdelta : Statement .vdelta := by unfold Statement; decide
theorem undeltafilter : Statement .undeltafilter := by unfold Statement; decide
theorem decode : Statement .decode := by unfold Statement; decide

end Sys2Proof.Laws.EncodedWordLegal
end

