-- ==== Sys2Proof/Tests/Slice0.lean ====
section
/-! SUPPORT. The model's own tests: the encodings of spec/30_encoding.md written out bit by bit, an ill-formed term for each
check of WellFormed, one or two steps of every command (expected values from spec/95_test_vectors.md), and a witness for the
hypotheses of every statement in Certificates/Slice0/Obligations.lean. -/

namespace Sys2Proof.Tests

open Sys2Proof.Machine

/-! ### Decoding: RSV (24 bits), then OP (8 bits), from R80 and R81 -/

theorem test_decode_nop : decodeWord 0b000000000000000000000000_00000000#32 = .ok .nop := by rfl
theorem test_decode_curInit : decodeWord 0b000000000000000000000000_00000001#32 = .ok .curInit := by rfl
theorem test_decode_getBit : decodeWord 0b000000000000000000000000_00000010#32 = .ok .getBit := by rfl
theorem test_decode_getGamma : decodeWord 0b000000000000000000000000_00000011#32 = .ok .getGamma := by rfl
theorem test_decode_unrle : decodeWord 0b000000000000000000000000_00010000#32 = .ok .unrle := by rfl
theorem test_decode_scratchRead : decodeWord 0b000000000000000000000000_00010001#32 = .ok .scratchRead := by rfl
theorem test_decode_unpackValue : decodeWord 0b000000000000000000000000_00100000#32 = .ok .unpackValue := by rfl
theorem test_decode_tableRead : decodeWord 0b000000000000000000000000_00100001#32 = .ok .tableRead := by rfl
theorem test_decode_regroup : decodeWord 0b000000000000000000000000_00100010#32 = .ok .regroup := by rfl
theorem test_decode_hdelta : decodeWord 0b000000000000000000000000_00100011#32 = .ok .hdelta := by rfl
theorem test_decode_vdelta : decodeWord 0b000000000000000000000000_00100100#32 = .ok .vdelta := by rfl
theorem test_decode_undeltafilter : decodeWord 0b000000000000000000000000_00100101#32 = .ok .undeltafilter := by rfl
theorem test_decode_decode : decodeWord 0b000000000000000000000000_00110000#32 = .ok .decode := by rfl

/-- A reserved OP and a set RSV bit are each refused by name (R82). -/
theorem test_decode_illegal :
    decodeWord 0x00000004#32 = .error (.undefinedOpcode 0x04#8) ∧
    decodeWord 0x80000030#32 = .error (.reservedNotZero 0x800000#24) := ⟨rfl, rfl⟩

theorem test_decodeTableWord :
    decodeTableWord 32 0x25 = some .undeltafilter ∧ decodeTableWord 32 0x26 = none ∧
    decodeTableWord 8 0x30 = some .decode := ⟨rfl, rfl, rfl⟩

/-! ### WellFormed: an ill-formed term for each check -/

theorem test_wf_rsv : legalCommandWord 0x00000100#32 = false := by decide
theorem test_wf_opcode :
    [0x04#32, 0x0F#32, 0x12#32, 0x1F#32, 0x26#32, 0x2F#32, 0x31#32, 0xFF#32].map legalCommandWord = List.replicate 8 false := by
  decide +kernel
theorem test_wf_region : Region.wf ⟨0xFFFFFFFF, 2⟩ = false ∧ Region.wf ⟨0xFFFFFFFF, 1⟩ = true := by decide
theorem test_wf_platform :
    Platform.wf ⟨8, 0x00000080#32, []⟩ = false ∧ Platform.wf ⟨8, 0x00000100#32, [⟨0xFFFFFFFF, 2⟩]⟩ = false ∧
    Platform.wf Platform.reference = true := by decide
theorem test_wf_width : Platform.reference.legalAccess 2 0xF0000000#32 = false := by decide
theorem test_wf_alignment : Platform.reference.legalAccess 4 0xF0000002#32 = false := by decide
theorem test_wf_block :
    Platform.reference.legalAccess 4 0xF0000100#32 = false ∧ Platform.reference.legalAccess 4 0xEFFFFFFC#32 = false ∧
    Platform.reference.legalAccess 4 0xF00000FC#32 = true := by decide
theorem test_wf_byteAccess :
    Input.wf Platform.reference (.memLoad 0xF00000FF#32) = false ∧
    Input.wf Platform.reference (.memStore 0xF0000000#32 0#8) = false ∧
    Input.wf Platform.reference (.memLoad 0xF0000100#32) = true := by decide

/-! ### Small states -/

/-- A platform that backs every address. -/
def flat : Platform := ⟨Config.maxRgbaLength, 0xF0000000#32, [⟨0, 4294967296⟩]⟩

/-- A platform that backs addresses below 0x2000 only, with a capacity of 1023 bytes. -/
def small : Platform := ⟨1023, 0xF0000000#32, [⟨0, 0x2000⟩]⟩

theorem flat_backs (a : Word) : backs flat a.toNat = true := by
  have := a.isLt
  simp [backs, flat, regionHolds]
  omega

theorem flat_backed (base : Word) (n : Nat) : backedRegion flat base n := fun _ _ => flat_backs _

theorem avoids_nil (base : Word) (n : Nat) : avoids [] base n := fun _ _ h => by cases h

/-- After reset, with some host memory. -/
def home (m : Memory) : State := State.resetOn flat m

/-- The same, with something to come. -/
def homeWith (l : List Input) : State := { home [] with inputs := l }

/-- A command accepted, its Engine's turn not yet come. -/
def busyWith (i : Instr) (l : List Input) (s : State) : State := { acceptCommand (encode i) s with inputs := l }

/-- A cursor at 0x1000 with `n` bytes, at bit `b`. -/
def atCursor (m : Memory) (n : Word) (b : BitVec 3) : State := { home m with cur := ⟨0x1000#32, n, b, false⟩ }

/-- A command region of `n` bytes at 0x2000 and a data region of `d` bytes at 0x3000. -/
def atStream (m : Memory) (n d : Word) : State :=
  { home m with args := { Args.zero with cmdAddr := 0x2000#32, cmdLen := n, dataAddr := 0x3000#32, dataLen := d } }

/-- A 2 × 2 image of depth 1 at `out`, with a whole intermediate buffer of 4 bytes. -/
def atPlane (out : Word) (m : Memory) (buffer : List Byte) : State :=
  { home m with
    args := { Args.zero with
      outAddr := out, outCap := 4#32, width := 2#32, height := 2#32, depth := 1#32, stride := 2#32 }
    scrValid := true, scratch := buffer, unrleLen := 4#32 }

/-- All regions of a DECODE: the stream of `atStream` and an output of `cap` bytes at 0x4000. -/
def atImage (m : Memory) (n d cap w h depth stride : Word) : State :=
  { home m with args := ⟨0#32, 0x3000#32, d, 0x2000#32, n, 0x4000#32, cap, w, h, depth, stride⟩ }

/-- What a field of the next state holds. -/
def field {α : Type} (o : Host.Outcome State Fault Refusal) (f : State → α) : Option α :=
  match o with
  | .next t => some (f t)
  | .fault _ => none
  | .refused _ => none

/-- Bytes of host memory from `base` up. -/
def bytesFrom (base n : Nat) (s : State) : List Byte := (List.range n).map fun i => Memory.read s.mem (base + i)

/-- U-4: flag 0; 8, 2, 3, 1, 2 with data A1 to A5. -/
def streamU4 : State :=
  atStream [(0x2000, 0x10#8), (0x2001, 0x72#8), (0x2002, 0x01#8), (0x3000, 0xA1#8), (0x3001, 0xA2#8), (0x3002, 0xA3#8),
    (0x3003, 0xA4#8), (0x3004, 0xA5#8)] 3#32 5#32

/-- V-3: the stream of U-4, decoded as a 2 × 2 image of depth 2. -/
def imageV3 : State :=
  atImage [(0x2000, 0x10#8), (0x2001, 0x72#8), (0x2002, 0x01#8), (0x3000, 0xA1#8), (0x3001, 0xA2#8), (0x3002, 0xA3#8),
    (0x3003, 0xA4#8), (0x3004, 0xA5#8)] 3#32 5#32 12#32 2#32 2#32 2#32 4#32

/-! ### One step of every command -/

/-- N-1. -/
theorem test_nop : field (exec .nop (home [])) (fun t => statusWord t.status) = some 0x00000002#32 := by rfl

/-- B-4: a region that ends at 2^32 is legal, one byte more is not, and a null region is named first. -/
theorem test_curInit_range :
    field (exec .curInit { home [] with args := { Args.zero with cmdAddr := 0xFFFFFFFF#32, cmdLen := 2#32 } })
      (fun t => (statusWord t.status, t.cur.addr)) = some (0x00002002#32, 0#32) := by rfl
theorem test_curInit_null :
    field (exec .curInit { home [] with args := { Args.zero with cmdLen := 5#32 } }) (fun t => statusWord t.status) =
      some 0x00000202#32 := by rfl

/-- B-1: the eighth bit of A5 is 1 and ends the byte; with no byte left, the terminal 1. -/
theorem test_getBit_last :
    field (exec .getBit (atCursor [(0x1000, 0xA5#8)] 1#32 7#3)) (fun t => (t.result, t.cur)) =
      some (1#32, ⟨0x1001#32, 0#32, 0#3, false⟩) := by rfl
theorem test_getBit_terminal :
    field (exec .getBit (home [])) (fun t => (t.result, curStateWord t.cur)) = some (1#32, 0x00000100#32) := by rfl

/-- G-1: the codes of 5, 1, 2, then the region runs out. -/
theorem test_getGamma_five :
    field (exec .getGamma (atCursor [(0x1000, 0xB4#8)] 2#32 0#3)) (fun t => (t.result, t.cur)) =
      some (5#32, ⟨0x1000#32, 2#32, 5#3, false⟩) := by rfl
theorem test_getGamma_invalid :
    field (exec .getGamma (atCursor [] 1#32 1#3)) (fun t => (t.result, t.cur)) =
      some (0xFFFFFFFF#32, ⟨0x1001#32, 0#32, 0#3, true⟩) := by rfl

/-- U-4, and U-6: a copy run that overshoots the total though the data would suffice. -/
theorem test_unrle_runs :
    field (exec .unrle streamU4) (fun t => (t.scratch, t.unrleLen, t.dataPos, t.cur)) =
      some ([0x00#8, 0x00#8, 0xA1#8, 0xA2#8, 0xA3#8, 0x00#8, 0xA4#8, 0xA5#8], 8#32, 5#32, ⟨0x2002#32, 1#32, 2#3, false⟩) := by
  rfl
theorem test_unrle_overshoot :
    field (exec .unrle (atStream [(0x2000, 0x09#8), (0x2001, 0x05#8)] 2#32 6#32))
      (fun t => (t.status.code, t.scrValid, t.unrleLen, t.dataPos)) = some (.corruptStream, false, 4#32, 0#32) := by rfl

/-- Section 4.2 of the vectors: index 2 after U-4, and the first index that is out of range. -/
theorem test_scratchRead :
    field (exec .scratchRead { atPlane 0#32 [] [0#8, 0#8, 0xA1#8, 0xA2#8] with
      args := { Args.zero with operand := 2#32 } }) (fun t => t.result) = some 0x000000A1#32 := by rfl
theorem test_scratchRead_range :
    field (exec .scratchRead { atPlane 0#32 [] [0#8, 0#8, 0xA1#8, 0xA2#8] with
      args := { Args.zero with operand := 4#32 } }) (fun t => statusWord t.status) = some 0x00002302#32 := by rfl

/-- R175's example, with bits 31:8 set. -/
theorem test_unpackValue :
    field (exec .unpackValue { home [] with args := { Args.zero with operand := 0xABCD0011#32 } }) (fun t => t.result) =
      some 0x000000F7#32 := by rfl

/-- Section 5.2 of the vectors: T1[0x1B] with bits 31:10 set, and T4[0xE4]. -/
theorem test_tableRead_first :
    field (exec .tableRead { home [] with args := { Args.zero with operand := 0xFFFFFC1B#32 } }) (fun t => t.result) =
      some 0x004080C0#32 := by rfl
theorem test_tableRead_last :
    field (exec .tableRead { home [] with args := { Args.zero with operand := 0x000003E4#32 } }) (fun t => t.result) =
      some 0x03020100#32 := by rfl

/-- D-3: the worked regroup of R171. -/
theorem test_regroup :
    field (exec .regroup (atPlane 0x4000#32 [] [0x1B#8, 0xE4#8, 0x00#8, 0xFF#8])) (bytesFrom 0x4000 4) =
      some [0x9E#8, 0xB6#8, 0xCE#8, 0xE6#8] := by rfl

/-- D-1, step by step. -/
theorem test_hdelta :
    field (exec .hdelta (atPlane 0x4000#32 [(0x4000, 0x60#8), (0x4001, 0x60#8), (0x4002, 0x60#8), (0x4003, 0x60#8)]
      [0xFF#8, 0#8, 0#8, 0#8])) (bytesFrom 0x4000 4) = some [0x60#8, 0xC0#8, 0x60#8, 0x60#8] := by rfl
theorem test_vdelta :
    field (exec .vdelta (atPlane 0x4000#32 [(0x4000, 0x60#8), (0x4001, 0xC0#8), (0x4002, 0x60#8), (0x4003, 0x60#8)]
      [0xFF#8, 0#8, 0#8, 0#8])) (bytesFrom 0x4000 4) = some [0x60#8, 0xC0#8, 0xC0#8, 0x20#8] := by rfl
theorem test_undeltafilter :
    field (exec .undeltafilter (atPlane 0x4000#32 [] [0xFF#8, 0#8, 0#8, 0#8])) (bytesFrom 0x4000 4) =
      some [0x60#8, 0xC0#8, 0xC0#8, 0x20#8] := by rfl

/-- V-3, and V-1 with a bad depth. -/
theorem test_decode :
    field (exec .decode imageV3) (fun t => (bytesFrom 0x4000 9 t, t.unrleLen, t.scrValid)) =
      some ([0x0E#8, 0xFF#8, 0x23#8, 0x14#8, 0xFD#8, 0xFE#8, 0x34#8, 0x25#8, 0x00#8], 8#32, false) := by rfl
theorem test_decode_depth :
    field (exec .decode (atImage [] 2#32 0#32 4#32 2#32 2#32 5#32 2#32)) (fun t => statusWord t.status) =
      some 0x00000602#32 := by rfl

/-- The very next step runs the word that `withFetchWord` places. -/
theorem test_fetch :
    field (step (State.reset.withFetchWord 32 0x20)) (fun t => (statusWord t.status, t.cmd)) =
      some (0x00000002#32, 0x20#32) ∧
    field (step (State.reset.withFetchWord 32 0x26)) (fun t => statusWord t.status) = some 0x00002102#32 := ⟨rfl, rfl⟩

/-- R71 item 1: a byte of the region that UNRLE left to the cursor, written before GET_BIT: seen as written. -/
theorem test_hostWrite_seen :
    field (step { atCursor [] 2#32 0#3 with inputs := [.memStore 0x1000#32 0x01#8] })
      (fun t => (t.unstable, field (exec .getBit t) fun u => u.result)) = some ([], some 1#32) := by rfl

/-- R75: the same write between two cursor commands: the byte is unstable, the next one is not. -/
theorem test_hostWrite_latched :
    field (step { atCursor [] 2#32 0#3 with latched := true, inputs := [.memStore 0x1001#32 0x01#8] })
      (fun t => t.unstable) = some [0x1001] := by rfl

/-! ### Witnesses: the hypotheses of each statement, met together -/

theorem witness_IllegalWordCompletes :
    ∀ w ∈ [0x04#32, 0x0F#32, 0x12#32, 0x1F#32, 0x26#32, 0x2F#32, 0x31#32, 0xFF#32, 0x100#32, 0x80000030#32],
      ((home []).withFetchWord 32 w.toNat).engineNext = true ∧
      ((home []).withFetchWord 32 w.toNat).pending = some w ∧ legalCommandWord w = false := by
  simp only [List.forall_mem_cons, List.not_mem_nil, false_implies, implies_true, and_true]
  exact ⟨⟨rfl, rfl, rfl⟩, ⟨rfl, rfl, rfl⟩, ⟨rfl, rfl, rfl⟩, ⟨rfl, rfl, rfl⟩, ⟨rfl, rfl, rfl⟩, ⟨rfl, rfl, rfl⟩,
    ⟨rfl, rfl, rfl⟩, ⟨rfl, rfl, rfl⟩, ⟨rfl, rfl, rfl⟩, rfl, rfl, rfl⟩

/-- A command that completes, with no race and with a lawful one next to its region, and one that is stuck. -/
theorem witness_StepRunsDecodedCommand :
    (let s := busyWith .hdelta [.engine] (atPlane 0x4000#32 [] [0#8, 0#8, 0#8, 0#8])
     s.engineNext = true ∧ s.pending = some 0x23#32 ∧ decodeWord 0x23#32 = .ok .hdelta ∧ s.raced = [] ∧
      ∃ t, exec .hdelta s.takeInput = .next t) ∧
    (let s := busyWith .getBit [] { atCursor [] 1#32 0#3 with
       platform := small, cur := ⟨0x2000#32, 1#32, 0#3, false⟩ }
     s.engineNext = true ∧ s.pending = some 0x02#32 ∧ decodeWord 0x02#32 = .ok .getBit ∧
      exec .getBit s.takeInput = .fault .engineOutsideHostMemory) ∧
    (let s := { busyWith .hdelta [] (atPlane 0x4000#32 [] [0#8, 0#8, 0#8, 0#8]) with raced := [0x4004, 0x3FFF] }
     s.engineNext = true ∧ s.pending = some 0x23#32 ∧ decodeWord 0x23#32 = .ok .hdelta ∧
       ∃ t, exec .hdelta s.takeInput = .next t ∧
         ∀ a ∈ s.raced, touches .hdelta s.takeInput t a = false ∧ ¬ t.unfinished a) :=
  ⟨⟨rfl, rfl, rfl, rfl, _, rfl⟩, ⟨rfl, rfl, rfl, rfl⟩, rfl, rfl, rfl, _, rfl, fun a ha => by
    rcases List.mem_cons.1 ha with rfl | ha
    · exact ⟨rfl, fun h => Bool.noConfusion h.1⟩
    · rw [List.mem_singleton.1 ha]; exact ⟨rfl, fun h => Bool.noConfusion h.1⟩⟩

theorem witness_IdleEngineKeepsState :
    ((home []).engineNext = true ∧ (home []).pending = none) ∧
    (homeWith [.engine, .poll]).engineNext = true ∧ (homeWith [.engine, .poll]).pending = none :=
  ⟨⟨rfl, rfl⟩, rfl, rfl⟩

/-- The Host wrote the last byte of OUT while HDELTA was busy; and, beside it, the first byte after OUT. -/
theorem witness_RaceSettlesAtCompletion :
    (let s := { busyWith .hdelta [] (atPlane 0x4000#32 [] [0#8, 0#8, 0#8, 0#8]) with raced := [0x4003] }
     s.engineNext = true ∧ s.pending = some (encode .hdelta) ∧ ∃ t, exec .hdelta s.takeInput = .next t ∧
       touches .hdelta s.takeInput t 0x4003 = true) ∧
    (let s := { busyWith .hdelta [] (atPlane 0x4000#32 [] [0#8, 0#8, 0#8, 0#8]) with raced := [0x4004] }
     s.engineNext = true ∧ s.pending = some (encode .hdelta) ∧ ∃ t, exec .hdelta s.takeInput = .next t ∧
       ∀ a ∈ s.raced, touches .hdelta s.takeInput t a = false) :=
  ⟨⟨rfl, rfl, _, rfl, rfl⟩, rfl, rfl, _, rfl, fun a ha => by rw [List.mem_singleton.1 ha]; rfl⟩

theorem witness_CommandWriteAccepted :
    flat.wf = true ∧
    (let s := homeWith [.store 4 0xF0000000#32 0x30#32]
     s.status.busy = false ∧ s.inputs = [.store 4 (s.regAddr .cmd) 0x30#32]) ∧
    (let s := busyWith .nop [.store 4 0xF0000000#32 0x30#32] (home [])
     s.status.busy = true ∧ s.inputs = [.store 4 (s.regAddr .cmd) 0x30#32]) ∧
    (let s := homeWith [.load 4 0xF0000000#32]
     s.inputs = [.load 4 (s.regAddr .cmd)]) := ⟨rfl, ⟨rfl, rfl⟩, ⟨rfl, rfl⟩, rfl⟩

theorem witness_StatusRegister :
    flat.wf = true ∧
    (let s := homeWith [.load 4 0xF0000004#32]; s.inputs = [.load 4 (s.regAddr .status)]) ∧
    (let s := homeWith [.store 4 0xF0000004#32 0x2#32]
     s.inputs = [.store 4 (s.regAddr .status) 0x2#32] ∧ s.status.busy = false) ∧
    (let s := busyWith .nop [.store 4 0xF0000004#32 0x2#32] (home [])
     s.inputs = [.store 4 (s.regAddr .status) 0x2#32] ∧ s.status.busy = true) := ⟨rfl, rfl, ⟨rfl, rfl⟩, rfl, rfl⟩

theorem witness_OperandRegistersStoreAllBits :
    flat.wf = true ∧
    (let s := homeWith [.store 4 0xF000000C#32 0xFFFFFFFF#32]
     s.status.busy = false ∧ s.inputs = [.store 4 (s.regAddr .operand) 0xFFFFFFFF#32]) ∧
    (let s := homeWith [.store 4 0xF0000034#32 0#32]
     s.status.busy = false ∧ s.inputs = [.store 4 (s.regAddr .stride) 0#32]) := ⟨rfl, ⟨rfl, rfl⟩, rfl, rfl⟩

/-- The first and the last reserved offset, RO registers and STATUS, and accesses just outside what the block supports. -/
theorem witness_ReservedAndReadOnlyOffsets :
    flat.wf = true ∧
    (homeWith [.load 4 0xF0000050#32]).inputs = [.load 4 (addrAt flat.blockBase (0x50 + 4 * 0))] ∧
    (homeWith [.load 4 0xF00000FC#32]).inputs = [.load 4 (addrAt flat.blockBase (0x50 + 4 * 43))] ∧
    (homeWith [.store 4 0xF00000FC#32 1#32]).inputs = [.store 4 (addrAt flat.blockBase (0x50 + 4 * 43)) 1#32] ∧
    (homeWith [.store 4 0xF0000008#32 1#32]).inputs = [.store 4 ((home []).regAddr .result) 1#32] ∧
    (homeWith [.store 4 0xF000004C#32 1#32]).inputs = [.store 4 ((home []).regAddr .scrState) 1#32] ∧
    (homeWith [.store 4 0xF0000004#32 1#32]).inputs = [.store 4 ((home []).regAddr .status) 1#32] ∧
    (8 ≠ 4 ∧ (0xF0000001#32).toNat % 4 ≠ 0 ∧ 256 ≤ (0xF0000100#32 - flat.blockBase).toNat ∧
      256 ≤ (0xEFFFFFFF#32 - flat.blockBase).toNat) := by decide

theorem witness_BusyWritesIgnored :
    flat.wf = true ∧ (busyWith .nop [.store 4 0xF00000FC#32 1#32] (home [])).status.busy = true ∧
    (0xF00000FC#32).toNat % 4 = 0 ∧ (0xF00000FC#32 - flat.blockBase).toNat < 256 ∧
    (busyWith .nop [.store 4 0xF00000FC#32 1#32] (home [])).inputs = [.store 4 0xF00000FC#32 1#32] := by decide

/-- An exact load while not busy, one of CMD while busy, and one of a state register while busy. -/
theorem witness_RegisterLoads :
    flat.wf = true ∧
    (let s := homeWith [.load 4 0xF0000008#32]
     s.inputs = [.load 4 (addrAt s.platform.blockBase 0x08)] ∧ s.status.busy = false) ∧
    (let s := busyWith .nop [.load 4 0xF0000000#32] (home [])
     s.inputs = [.load 4 (addrAt s.platform.blockBase 0x00)] ∧ 0x00 ∉ [0x08, 0x38, 0x3C, 0x40, 0x44, 0x48, 0x4C]) ∧
    (let s := busyWith .nop [.load 4 0xF000004C#32] (home [])
     s.inputs = [.load 4 (addrAt s.platform.blockBase 0x4C)] ∧ s.status.busy = true) :=
  ⟨rfl, ⟨rfl, rfl⟩, ⟨rfl, by decide⟩, rfl, rfl⟩

theorem witness_WaitPollsStatus :
    ((homeWith [.poll]).inputs = [.poll] ∧ (homeWith [.poll]).status.busy = false) ∧
    (busyWith .nop [.poll] (home [])).inputs = [.poll] ∧ (busyWith .nop [.poll] (home [])).status.busy = true := by decide

/-- The first and the last address of host memory, and the two next to the block. -/
theorem witness_HostByteStoreThenLoad :
    ∀ a ∈ [0#32, 0xEFFFFFFF#32, 0xF0000100#32, 0xFFFFFFFF#32],
      let s := homeWith [.memStore a 1#8, .memLoad a]
      Memory.wf s.mem = true ∧ s.status.busy = false ∧ backs s.platform a.toNat = true ∧
        256 ≤ (a - s.platform.blockBase).toNat ∧ s.inputs = [.memStore a 1#8, .memLoad a] := by
  have h : ∀ a ∈ [0#32, 0xEFFFFFFF#32, 0xF0000100#32, 0xFFFFFFFF#32],
      backs (homeWith []).platform a.toNat = true ∧ 256 ≤ (a - (homeWith []).platform.blockBase).toNat := by
    simp only [List.forall_mem_cons, List.not_mem_nil, false_imp_iff, implies_true]
    exact ⟨⟨rfl, by decide⟩, ⟨rfl, by decide⟩, ⟨rfl, by decide⟩, ⟨rfl, by decide⟩, trivial⟩
  exact fun a ha => ⟨rfl, rfl, (h a ha).1, (h a ha).2, rfl⟩

/-- A store; loads of the byte after OUT, of the last byte of OUT, and while an illegal word is pending. -/
theorem witness_HostByteAccessWhileBusy :
    (let s := busyWith .undeltafilter [.memStore 0x4003#32 1#8] (atPlane 0x4000#32 [] [0#8, 0#8, 0#8, 0#8])
     s.status.busy = true ∧ backs s.platform (0x4003#32).toNat = true ∧
       256 ≤ (0x4003#32 - s.platform.blockBase).toNat ∧ Memory.wf s.mem = true ∧
       s.inputs = [.memStore 0x4003#32 1#8]) ∧
    (let s := busyWith .undeltafilter [.memLoad 0x4004#32] (atPlane 0x4000#32 [] [0#8, 0#8, 0#8, 0#8])
     s.inputs = [.memLoad 0x4004#32] ∧ s.pending = some (encode .undeltafilter) ∧
       (outReach .undeltafilter s.takeInput).1 = 4 ∧ ∀ k < 4, 0x4004#32 ≠ addrAt s.args.outAddr k) ∧
    (let s := busyWith .undeltafilter [.memLoad 0x4003#32] (atPlane 0x4000#32 [] [0#8, 0#8, 0#8, 0#8])
     s.inputs = [.memLoad 0x4003#32] ∧ s.pending = some (encode .undeltafilter) ∧
       3 < (outReach .undeltafilter s.takeInput).1 ∧ 0x4003#32 = addrAt s.args.outAddr 3) ∧
    (let s := { acceptCommand 0x100#32 (home []) with inputs := [.memLoad 0x4003#32] }
     s.status.busy = true ∧ s.inputs = [.memLoad 0x4003#32] ∧ ∀ i, s.pending ≠ some (encode i)) :=
  ⟨⟨rfl, flat_backs _, by decide, rfl, rfl⟩, ⟨rfl, rfl, rfl, by decide⟩, ⟨rfl, rfl, by decide, by decide⟩, rfl, rfl,
    fun i => by cases i <;> decide⟩

theorem witness_HostByteAccessStops :
    ((homeWith [.memLoad 0xF00000FF#32]).inputs = [.memLoad 0xF00000FF#32] ∧
      (0xF00000FF#32 - flat.blockBase).toNat < 256) ∧
    ({ homeWith [.memStore 0x2000#32 1#8] with platform := small }).inputs = [.memStore 0x2000#32 1#8] ∧
      256 ≤ (0x2000#32 - small.blockBase).toNat ∧ backs small (0x2000#32).toNat = false := by decide

theorem witness_ResetClearsInstance :
    ((homeWith [.reset]).inputs = [.reset] ∧ (homeWith [.reset]).status.busy = false) ∧
    (busyWith .decode [.reset] imageV3).inputs = [.reset] := by decide

/-- A command that could write OUT, and an illegal word. -/
theorem witness_BusyResetDiscardsCommand :
    (let s := busyWith .undeltafilter [.reset] (atPlane 0x4000#32 [] [0#8, 0#8, 0#8, 0#8])
     s.inputs = [.reset] ∧ s.status.busy = true ∧ s.pending = some (encode .undeltafilter) ∧
       (outReach .undeltafilter s.takeInput).1 = 4) ∧
    (let s := { acceptCommand 0x100#32 (home [(1, 1#8)]) with inputs := [.reset] }
     s.inputs = [.reset] ∧ s.status.busy = true ∧ s.pending = some 0x100#32 ∧ legalCommandWord 0x100#32 = false) :=
  ⟨⟨rfl, rfl, rfl, rfl⟩, rfl, rfl, rfl, rfl⟩

/-- A busy state with a whole intermediate buffer has the invariant, and a step. -/
theorem witness_StepKeepsInvariant :
    (busyWith .undeltafilter [] (atPlane 0x4000#32 [] [0#8, 0#8, 0#8, 0#8])).Inv ∧
    ∃ t, step (busyWith .undeltafilter [] (atPlane 0x4000#32 [] [0#8, 0#8, 0#8, 0#8])) = .next t :=
  ⟨⟨rfl, fun _ h => (Option.some.inj h).symm, by decide, fun _ => rfl, ⟨by decide, by decide, by decide⟩,
    fun _ => by decide, fun h => Bool.noConfusion h, rfl, fun h => Bool.noConfusion h⟩, _, rfl⟩

theorem witness_StepKeepsPlatform : ∃ t, step (busyWith .nop [] (home [])) = .next t := ⟨_, rfl⟩

/-- A command that completes with Success and writes OUT, one that does not write it, and one that fails: the
hypotheses of CommandsKeepHostRegisters, CommandsCompleteWithTheirCodes, ResultWrittenOnSuccessOnly,
FailureWritesNoHostByte and HostBytesWrittenAreOut. -/
theorem witness_commands :
    (∃ t, exec .undeltafilter (atPlane 0x4000#32 [] [0#8, 0#8, 0#8, 0#8]) = .next t ∧ t.status.code = .success ∧
      Instr.undeltafilter ∉ [Instr.getBit, .getGamma, .unpackValue, .tableRead, .scratchRead]) ∧
    (∃ t, exec .unrle streamU4 = .next t ∧
      Instr.unrle ∉ [Instr.regroup, .hdelta, .vdelta, .undeltafilter, .decode]) ∧
    ∃ t, exec .scratchRead (home []) = .next t ∧ t.status.code ≠ .success :=
  ⟨⟨_, rfl, rfl, by decide⟩, ⟨_, rfl, by decide⟩, _, rfl, by decide⟩

theorem witness_BackedCommandsComplete :
    regionsBacked .getGamma (atCursor [] 0xFFFFFFFF#32 7#3) ∧ regionsBacked .unrle streamU4 ∧
    regionsBacked .undeltafilter (atPlane 0x4000#32 [] [0#8, 0#8, 0#8, 0#8]) ∧ regionsBacked .decode imageV3 :=
  ⟨flat_backed _ _, ⟨flat_backed _ _, flat_backed _ _⟩, flat_backed _ _, flat_backed _ _, flat_backed _ _, flat_backed _ _⟩

theorem witness_OnlyUnbackedAccessesStop :
    exec .getBit { home [] with platform := small, cur := ⟨0x2000#32, 1#32, 0#3, false⟩ } =
      .fault .engineOutsideHostMemory := rfl

/-- On a platform that backs addresses below 0x2000 only: the cursor, the command region, a copy run's data and OUT each
reach 0x2000. -/
theorem witness_UnbackedAccessHasNoStep :
    (let s := { home [] with platform := small, cur := ⟨0x2000#32, 1#32, 0#3, false⟩ }
     s.cur.rem ≠ 0#32 ∧ backs s.platform s.cur.addr.toNat = false) ∧
    (let s := { atImage [] 1#32 0#32 4#32 2#32 2#32 1#32 2#32 with platform := small }
     decodeAllowed s ∧ s.args.cmdLen ≠ 0#32 ∧ backs s.platform s.args.cmdAddr.toNat = false) ∧
    (let s := { atStream [(0x1000, 0x89#8), (0x1001, 0x02#8)] 2#32 4#32 with
       platform := small, args := { Args.zero with cmdAddr := 0x1000#32, cmdLen := 2#32, dataAddr := 0x1FFF#32, dataLen := 4#32 } }
     unrleAllowed s ∧ cmdReady s ∧ dataReady s (copiedLength true []) ∧ [].sum + 2 ≤ 4 ∧ 4 ≤ s.platform.unrleCap ∧
       copiedLength true [] + 2 ≤ s.args.dataLen.toNat ∧ s.commandBits (commandStream true 4 ([] ++ [2])) ∧
       flagAfter true [] = true ∧
       ∃ i < 2, backs s.platform (addrAt s.args.dataAddr (copiedLength true [] + i)).toNat = false) ∧
    (let s := { atPlane 0x1FFD#32 [] [0#8, 0#8, 0#8, 0#8] with platform := small }
     outputAllowed s ∧ ¬ outBacked s ∧ s.args.stride.toNat ≤ 3 ∧
       3 < min (s.args.height.toNat * s.args.stride.toNat) s.unrleLen.toNat ∧
       backs s.platform (addrAt s.args.outAddr 3).toNat = false) ∧
    (let s := { atPlane 0x1FFF#32 [] [0#8, 0#8, 0#8, 0#8] with platform := small }
     outputAllowed s ∧ s.args.depth.toNat ≤ 1 ∧ 1 < min s.args.stride.toNat s.unrleLen.toNat ∧
       backs s.platform (addrAt s.args.outAddr 1).toNat = false) ∧
    (let s := { atImage [(0x1000, 0x08#8), (0x1001, 0x01#8)] 2#32 0#32 4#32 2#32 2#32 1#32 2#32 with
       platform := small, args := ⟨0#32, 0x3000#32, 0#32, 0x1000#32, 2#32, 0x4000#32, 4#32, 2#32, 2#32, 1#32, 2#32⟩ }
     decodeAllowed s ∧ ∃ u, exec .unrle s = .next u ∧ u.status.code = .success ∧ outputAllowed u ∧ ¬ outBacked u) := by
  refine ⟨⟨by decide, by decide⟩, ⟨?_, by decide, by decide⟩, ⟨?_, ⟨?_, ?_⟩, ⟨?_, ?_⟩, by decide, by decide, by decide,
    ?_, rfl, 1, by decide, by decide⟩, ⟨?_, fun h => absurd (h 3 (by decide)) (by decide), by decide, by decide,
    by decide⟩, ⟨?_, by decide, by decide, by decide⟩, ?_, _, rfl, rfl, ?_, fun h => absurd (h 0 (by decide)) (by decide)⟩
  · exact ⟨⟨by decide, by decide, by decide, by decide⟩, by decide, by decide, by decide, by decide, by decide, by decide⟩
  · exact ⟨by decide, by decide, by decide, by decide⟩
  · exact avoids_nil _ _
  · unfold backedRegion; decide
  · exact avoids_nil _ _
  · unfold backedRegion; decide
  · unfold State.commandBits; decide +kernel
  · exact ⟨by decide, by decide, by decide, by decide, by decide, by decide, by decide, by decide, by decide⟩
  · exact ⟨by decide, by decide, by decide, by decide, by decide, by decide, by decide, by decide, by decide⟩
  · exact ⟨⟨by decide, by decide, by decide, by decide⟩, by decide, by decide, by decide, by decide, by decide, by decide⟩
  · exact ⟨by decide, by decide, by decide, by decide, by decide, by decide, by decide, by decide, by decide⟩

/-- A null region; one that ends one byte past 2^32; one that ends at 2^32. -/
theorem witness_CurInitStartsCursor :
    Args.zero.cmdAddr = 0#32 ∧
    (0xFFFFFFFF#32 ≠ 0#32 ∧ 4294967296 < (0xFFFFFFFF#32).toNat + (2#32).toNat) ∧
    (0xFFFFFFFF#32 ≠ 0#32 ∧ (0xFFFFFFFF#32).toNat + (1#32).toNat ≤ 4294967296) := by decide

/-- An empty cursor; the first and the last bit of a byte, the Host having written the bytes beside it. -/
theorem witness_GetBitReadsCursor :
    (home []).cur.rem = 0#32 ∧
    (∀ b ∈ [0#3, 7#3], (atCursor [] 1#32 b).cur.rem ≠ 0#32 ∧
      backs (atCursor [] 1#32 b).platform (atCursor [] 1#32 b).cur.addr.toNat = true) ∧
    (let s := { atCursor [] 1#32 0#3 with raced := [0x0FFF], unstable := [0x1001] }
     s.cur.addr.toNat ∉ s.raced ++ s.unstable) := by
  refine ⟨rfl, ?_, ?_⟩ <;> decide

theorem atCursor_ready (m : Memory) {n : Word} {b : BitVec 3} (hn : n ≠ 0#32) (hr : n.toNat ≤ 0xFFFFF000) :
    cursorReady (atCursor m n b) where
  duty := avoids_nil _ _
  backed := flat_backed _ _
  ok := ⟨fun h => Bool.noConfusion h, fun h => absurd h hn, by
    show (0x1000#32).toNat + n.toNat ≤ 4294967296
    simp
    omega⟩

/-- One byte: the first bit, the eighth, and the first after it; the Host wrote the bytes beside it meanwhile. -/
theorem witness_CursorDeliversRegion :
    cursorReady (atCursor [(0x1000, 0xA5#8)] 1#32 0#3) ∧ (atCursor [(0x1000, 0xA5#8)] 1#32 0#3).cur.bit = 0#3 ∧
    (atCursor [(0x1000, 0xA5#8)] 1#32 0#3).cur.exh = false ∧
    7 < 8 * (atCursor [(0x1000, 0xA5#8)] 1#32 0#3).cur.rem.toNat ∧
    8 * (atCursor [(0x1000, 0xA5#8)] 1#32 0#3).cur.rem.toNat ≤ 8 ∧
    cursorReady { atCursor [(0x1000, 0xA5#8)] 1#32 0#3 with raced := [0x0FFF], unstable := [0x1001] } :=
  ⟨atCursor_ready _ (by decide) (by decide), rfl, rfl, by decide, by decide, by unfold State.dutyKept avoids; decide,
    flat_backed _ _, (atCursor_ready [] (n := 1#32) (b := 0#3) (by decide) (by decide)).ok⟩

/-- The codes of 1 and of 0xFFFFFFFF (G-8). -/
theorem witness_GammaCodeRoundTrip :
    (cursorReady (atCursor [(0x1000, 0x01#8)] 1#32 0#3) ∧ (atCursor [(0x1000, 0x01#8)] 1#32 0#3).cur.exh = false ∧
      (atCursor [(0x1000, 0x01#8)] 1#32 0#3).bitsAhead (gammaCode 1)) ∧
    (let s := atCursor [(0x1003, 0x80#8), (0x1004, 0xFF#8), (0x1005, 0xFF#8), (0x1006, 0xFF#8), (0x1007, 0x7F#8)] 8#32 0#3
     cursorReady s ∧ s.cur.exh = false ∧ s.bitsAhead (gammaCode 0xFFFFFFFF)) :=
  ⟨⟨atCursor_ready _ (by decide) (by decide), rfl, by unfold State.bitsAhead; decide⟩,
    atCursor_ready _ (by decide) (by decide), rfl, by unfold State.bitsAhead; decide +kernel⟩

/-- G-2, cut short in the explicit bits; and one byte of a code that begins with eight zeros. -/
theorem witness_TruncatedCodeIsInvalid :
    (let s := atCursor [(0x1001, 0x04#8)] 2#32 0#3
     cursorReady s ∧ bitsLeft s.cur < (gammaCode 1024).length ∧
       s.bitsAhead ((gammaCode 1024).take (bitsLeft s.cur))) ∧
    (let s := atCursor [] 1#32 0#3
     cursorReady s ∧ bitsLeft s.cur < (gammaCode 256).length ∧ s.bitsAhead ((gammaCode 256).take (bitsLeft s.cur))) :=
  ⟨⟨atCursor_ready _ (by decide) (by decide), by decide +kernel, by unfold State.bitsAhead; decide +kernel⟩,
    atCursor_ready _ (by decide) (by decide), by decide +kernel, by unfold State.bitsAhead; decide +kernel⟩

/-- G-6: 32 zeros. -/
theorem witness_LongPrefixIsInvalid :
    let s := atCursor [(0x1004, 0x01#8)] 9#32 0#3
    32 ≤ (List.replicate 32 false).length ∧ cursorReady s ∧
      s.bitsAhead (List.replicate (List.replicate 32 false).length false ++ true :: List.replicate 32 false) :=
  ⟨by decide, atCursor_ready _ (by decide) (by decide), by unfold State.bitsAhead; decide +kernel⟩

theorem witness_GetGammaCompletes : cursorBacked (atCursor [] 2#32 3#3) := flat_backed _ _

/-- Each of the four checks. -/
theorem witness_UnrleChecksInOrder :
    ¬ unrleAllowed (home []) ∧
    ¬ unrleAllowed { home [] with args := { Args.zero with dataAddr := 1#32 } } ∧
    ¬ unrleAllowed { home [] with args := { Args.zero with
        dataAddr := 0xFFFFFFFF#32, dataLen := 2#32, cmdAddr := 1#32 } } ∧
    ¬ unrleAllowed { home [] with args := { Args.zero with
        dataAddr := 1#32, cmdAddr := 0xFFFFFFFF#32, cmdLen := 2#32 } } :=
  ⟨fun h => absurd h.dataAddr (by decide), fun h => absurd h.cmdAddr (by decide),
    fun h => absurd h.dataRange (by decide), fun h => absurd h.cmdRange (by decide)⟩

theorem streamU4_allowed : unrleAllowed streamU4 := ⟨by decide, by decide, by decide, by decide⟩

/-- The regions of `atStream` are ready while nothing was raced. -/
theorem atStream_cmdReady (m : Memory) (n d : Word) : cmdReady (atStream m n d) := ⟨avoids_nil _ _, flat_backed _ _⟩
theorem atStream_dataReady (m : Memory) (n d : Word) (k : Nat) : dataReady (atStream m n d) k :=
  ⟨avoids_nil _ _, flat_backed _ _⟩

/-- U-4, the Host having written the bytes next to the two regions meanwhile. -/
theorem witness_UnrleExpandsStream :
    let s := { streamU4 with raced := [0x1FFF, 0x2003, 0x2FFF, 0x3005] }
    unrleAllowed s ∧ cmdReady s ∧ dataReady s (copiedLength false [2, 3, 1, 2]) ∧
    (∀ r ∈ [2, 3, 1, 2], 0 < r) ∧ 0 < [2, 3, 1, 2].sum ∧ [2, 3, 1, 2].sum < 0xFFFFFFFF ∧
    [2, 3, 1, 2].sum ≤ s.platform.unrleCap ∧
    copiedLength false [2, 3, 1, 2] ≤ s.args.dataLen.toNat ∧
    s.commandBits (commandStream false [2, 3, 1, 2].sum [2, 3, 1, 2]) :=
  ⟨⟨by decide, by decide, by decide, by decide⟩, ⟨by unfold avoids; decide, flat_backed _ _⟩,
    ⟨by unfold avoids; decide, flat_backed _ _⟩, by decide, by decide, by decide, by decide, by decide,
    by unfold State.commandBits; decide +kernel⟩

/-- U-5: a zero-fill run of 3 with 2 bytes left; U-2: a copy run of 2 with 1 data byte left. -/
theorem witness_BadRunIsCorruptStream :
    (let s := atStream [(0x2000, 0x89#8), (0x2001, 0x0C#8), (0x3000, 1#8), (0x3001, 2#8)] 2#32 2#32
     unrleAllowed s ∧ cmdReady s ∧ dataReady s (copiedLength true [2]) ∧
       ((∀ q ∈ [2], 0 < q) ∧ [2].sum < 4 ∧ 4 < 0xFFFFFFFF ∧ 4 ≤ s.platform.unrleCap ∧ 0 < 3 ∧ 3 < 0xFFFFFFFF) ∧
       copiedLength true [2] ≤ s.args.dataLen.toNat ∧
       s.commandBits (commandStream true 4 ([2] ++ [3])) ∧ 4 < [2].sum + 3) ∧
    (let s := atStream [(0x2000, 0x11#8), (0x2001, 0x44#8), (0x2002, 0x02#8)] 3#32 5#32
     unrleAllowed s ∧ cmdReady s ∧ dataReady s (copiedLength true [4, 2]) ∧
       ((∀ q ∈ [4, 2], 0 < q) ∧ [4, 2].sum < 8 ∧ 8 < 0xFFFFFFFF ∧ 8 ≤ s.platform.unrleCap ∧ 0 < 2 ∧ 2 < 0xFFFFFFFF) ∧
       copiedLength true [4, 2] ≤ s.args.dataLen.toNat ∧
       s.commandBits (commandStream true 8 ([4, 2] ++ [2])) ∧ flagAfter true [4, 2] = true ∧
       s.args.dataLen.toNat < copiedLength true [4, 2] + 2) :=
  ⟨⟨⟨by decide, by decide, by decide, by decide⟩, atStream_cmdReady _ _ _, atStream_dataReady _ _ _ _, by decide,
      by decide, by unfold State.commandBits; decide +kernel, by decide⟩,
    ⟨by decide, by decide, by decide, by decide⟩, atStream_cmdReady _ _ _, atStream_dataReady _ _ _ _, by decide,
    by decide, by unfold State.commandBits; decide +kernel, rfl, by decide⟩

/-- The total: an empty region (U-8), a code cut short, a prefix of 32 zeros (U-13), the code of 0xFFFFFFFF (U-17). -/
theorem witness_InvalidCodeIsCorruptStream_total :
    (let s := atStream [] 0#32 0#32
     unrleAllowed s ∧ cmdReady s ∧ s.invalidAfter [false] ⟨0x2000#32, 0#32, 0#3, true⟩) ∧
    (let s := atStream [(0x2000, 0x40#8)] 1#32 0#32
     s.invalidAfter [false] ⟨0x2001#32, 0#32, 0#3, true⟩) ∧
    (let s := atStream [(0x2004, 0x02#8)] 9#32 0#32
     s.invalidAfter [false] ⟨0x2008#32, 1#32, 2#3, false⟩) ∧
    (let s := atStream [(0x2004, 0xFF#8), (0x2005, 0xFF#8), (0x2006, 0xFF#8), (0x2007, 0xFF#8)] 8#32 0#32
     s.invalidAfter [false] ⟨0x2008#32, 0#32, 0#3, false⟩) :=
  ⟨⟨⟨by decide, by decide, by decide, by decide⟩, atStream_cmdReady _ _ _,
      .inr ⟨1, by decide, by decide +kernel, by unfold State.commandBits; decide +kernel, by decide⟩⟩,
    .inr ⟨32, by decide, by decide +kernel, by unfold State.commandBits; decide +kernel, by decide⟩,
    .inl ⟨List.replicate 32 false ++ true :: List.replicate 32 false, .inr ⟨List.replicate 32 false, by decide, rfl⟩,
      by unfold State.commandBits; decide +kernel, by decide +kernel⟩,
    .inl ⟨gammaCode 0xFFFFFFFF, .inl rfl, by unfold State.commandBits; decide +kernel, by decide +kernel⟩⟩

/-- A run cut short after a run (U-7), and the code of 0xFFFFFFFF as the first run. -/
theorem witness_InvalidCodeIsCorruptStream_run :
    (let s := atStream [(0x2000, 0x88#8)] 2#32 0#32
     unrleAllowed s ∧ cmdReady s ∧ dataReady s (copiedLength false [2]) ∧
       ((∀ q ∈ [2], 0 < q) ∧ [2].sum < 4 ∧ 4 < 0xFFFFFFFF ∧ 4 ≤ s.platform.unrleCap) ∧
       copiedLength false [2] ≤ s.args.dataLen.toNat ∧ (commandStream false 4 [2]).length ≤ 8 * s.args.cmdLen.toNat ∧
       s.invalidAfter (commandStream false 4 [2]) ⟨0x2002#32, 0#32, 0#3, true⟩) ∧
    (let s := atStream [(0x2000, 0x08#8), (0x2004, 0xE0#8), (0x2005, 0xFF#8), (0x2006, 0xFF#8), (0x2007, 0xFF#8),
       (0x2008, 0x1F#8)] 9#32 0#32
     (commandStream false 4 []).length ≤ 8 * s.args.cmdLen.toNat ∧
       s.invalidAfter (commandStream false 4 []) ⟨0x2008#32, 1#32, 5#3, false⟩) :=
  ⟨⟨⟨by decide, by decide, by decide, by decide⟩, atStream_cmdReady _ _ _, atStream_dataReady _ _ _ _, by decide,
      by decide, by decide +kernel,
      .inr ⟨128, by decide, by decide +kernel, by unfold State.commandBits; decide +kernel, by decide⟩⟩,
    by decide +kernel,
    .inl ⟨gammaCode 0xFFFFFFFF, .inl rfl, by unfold State.commandBits; decide +kernel, by decide +kernel⟩⟩

/-- U-10, with a capacity one below the total. -/
theorem witness_TotalAboveCapacityFails :
    let s := { atStream [(0x1001, 0x08#8), (0x1004, 0x01#8)] 6#32 0#32 with
      platform := small, args := { Args.zero with cmdAddr := 0x1000#32, cmdLen := 6#32, dataAddr := 1#32 } }
    unrleAllowed s ∧ cmdReady s ∧ s.platform.unrleCap < 1024 ∧ 1024 < 0xFFFFFFFF ∧
      s.commandBits (false :: gammaCode 1024) :=
  ⟨⟨by decide, by decide, by decide, by decide⟩, ⟨avoids_nil _ _, by unfold backedRegion; decide⟩, by decide, by decide,
    by unfold State.commandBits; decide +kernel⟩

theorem witness_UnrleLeavesWholeBufferOrNone : unrleAllowed streamU4 ∧ cmdBacked streamU4 ∧ dataBacked streamU4 :=
  ⟨streamU4_allowed, flat_backed _ _, flat_backed _ _⟩

/-- No buffer; the first index out of range; the last one in range. -/
theorem witness_ScratchReadReturnsByte :
    (home []).scrValid = false ∧
    (let s := { atPlane 0#32 [] [0#8, 0#8, 0#8, 9#8] with args := { Args.zero with operand := 4#32 } }
     s.scrValid = true ∧ s.unrleLen.toNat ≤ s.args.operand.toNat) ∧
    (let s := { atPlane 0#32 [] [0#8, 0#8, 0#8, 9#8] with args := { Args.zero with operand := 3#32 } }
     s.scrValid = true ∧ s.args.operand.toNat < s.unrleLen.toNat ∧ s.scratch[s.args.operand.toNat]? = some 9#8) := by
  decide

/-- A plane whose region ends at 2^32 passes every check. -/
theorem plane_allowed : outputAllowed (atPlane 0xFFFFFFFC#32 [] [0xFF#8, 0#8, 0#8, 0#8]) :=
  ⟨by decide, by decide, by decide, by decide, by decide, by decide, by decide, by decide, by decide⟩

theorem plane_ready : outReady (atPlane 0xFFFFFFFC#32 [] [0xFF#8, 0#8, 0#8, 0#8]) :=
  ⟨⟨avoids_nil _ _, flat_backed _ _⟩, rfl⟩

/-- Each of the eight checks of OutputChecks. -/
theorem witness_OutputChecksInOrder :
    ¬ outputAllowed (atPlane 0#32 [] []) ∧
    ¬ outputAllowed { home [] with args := { Args.zero with outCap := 0x40000001#32 } } ∧
    ¬ outputAllowed { home [] with args := { Args.zero with height := 1#32 } } ∧
    ¬ outputAllowed { home [] with args := { Args.zero with depth := 5#32 } } ∧
    ¬ outputAllowed (atPlane 0xFFFFFFFD#32 [] []) ∧
    ¬ outputAllowed { atPlane 0x4000#32 [] [] with scrValid := false } ∧
    ¬ outputAllowed { atPlane 0x4000#32 [] [] with unrleLen := 5#32 } ∧
    ¬ outputAllowed { atPlane 0x4000#32 [] [] with unrleLen := 3#32 } :=
  ⟨fun h => absurd h.outAddr (by decide), fun h => absurd h.outCap (by decide), fun h => absurd h.width (by decide),
    fun h => absurd h.depth (by decide), fun h => absurd h.range (by decide), fun h => absurd h.valid (by decide),
    fun h => absurd h.capacity (by decide), fun h => absurd h.length (by decide)⟩

/-- The hypotheses of RegroupResult, HdeltaResult, VdeltaResult, UndeltafilterIsThreeCommands and OutputNeedsNoZeroing,
with an index in each range, and the Host having written the bytes next to OUT meanwhile. -/
theorem witness_planes :
    (let s := atPlane 0xFFFFFFFC#32 [] [0xFF#8, 0#8, 0#8, 0#8]
     outputAllowed s ∧ outReady s ∧ outBacked s ∧ s.args.depth.toNat ≤ 1 ∧
       1 < min s.args.stride.toNat s.unrleLen.toNat ∧ s.args.stride.toNat ≤ 3 ∧
       3 < min (s.args.height.toNat * s.args.stride.toNat) s.unrleLen.toNat) ∧
    outReady { atPlane 0xFFFFFFFC#32 [] [0xFF#8, 0#8, 0#8, 0#8] with raced := [0xFFFFFFFB, 0] } ∧
    Memory.wf [(0xFFFFFFFF, 7#8)] = true :=
  ⟨⟨plane_allowed, plane_ready, flat_backed _ _, by decide, by decide, by decide, by decide⟩,
    ⟨⟨by unfold avoids; decide, flat_backed _ _⟩, rfl⟩, by decide⟩

/-- A 2 × 2 plane: 01 03, 07 0F; its forward differences are 01 02, 06 0C. -/
theorem witness_DeltaUndoInvertsForwardFilter :
    let s := atPlane 0x4000#32 [(0x4000, 1#8), (0x4001, 2#8), (0x4002, 6#8), (0x4003, 0xC#8)] [0#8, 0#8, 0#8, 0#8]
    let plane : Nat → Nat → Byte := fun y x => if y = 0 then (if x = 0 then 1#8 else 3#8) else
      if x = 0 then 7#8 else 0xF#8
    outputAllowed s ∧ outReady s ∧ s.args.height.toNat * s.args.stride.toNat ≤ s.unrleLen.toNat ∧
      ∀ y < s.args.height.toNat, ∀ x < s.args.stride.toNat,
        s.outByte (y * s.args.stride.toNat + x) = forwardFilter s.args.depth.toNat plane y x :=
  ⟨⟨by decide, by decide, by decide, by decide, by decide, by decide, by decide, by decide, by decide⟩,
    ⟨⟨avoids_nil _ _, flat_backed _ _⟩, rfl⟩, by decide, by decide⟩

/-- The first check of DECODE raises, and, with every other check passed, the last one. -/
theorem witness_DecodeValidationOrder :
    ¬ decodeAllowed (home []) ∧
    ¬ decodeAllowed { imageV3 with args := { imageV3.args with outAddr := 0xFFFFFFF5#32 } } :=
  ⟨fun h => absurd h.unrle.dataAddr (by decide), fun h => absurd h.outRange (by decide)⟩

theorem imageV3_allowed : decodeAllowed imageV3 :=
  ⟨⟨by decide, by decide, by decide, by decide⟩, by decide, by decide, by decide, by decide, by decide, by decide⟩

theorem witness_DecodeReleasesScratch : ∃ t, exec .decode imageV3 = .next t := ⟨_, rfl⟩

/-- UNRLE succeeds and UNDELTAFILTER completes; UNRLE fails on an empty command region; UNRLE, and after UNRLE
UNDELTAFILTER, has no step. -/
theorem witness_DecodeIsUnrleThenUndeltafilter :
    (decodeAllowed imageV3 ∧ ∃ u, exec .unrle imageV3 = .next u ∧ u.status.code = .success ∧
      ∃ v, exec .undeltafilter u = .next v) ∧
    (let s := atImage [] 0#32 0#32 4#32 2#32 2#32 1#32 2#32
     decodeAllowed s ∧ ∃ u, exec .unrle s = .next u ∧ u.status.code ≠ .success) ∧
    (let s := { atImage [] 1#32 0#32 4#32 2#32 2#32 1#32 2#32 with platform := small }
     decodeAllowed s ∧ exec .unrle s = .fault .engineOutsideHostMemory) ∧
    (let s := { atImage [(0x1000, 0x08#8), (0x1001, 0x01#8)] 2#32 0#32 4#32 2#32 2#32 1#32 2#32 with
       platform := small, args := ⟨0#32, 0x3000#32, 0#32, 0x1000#32, 2#32, 0x4000#32, 4#32, 2#32, 2#32, 1#32, 2#32⟩ }
     decodeAllowed s ∧ ∃ u, exec .unrle s = .next u ∧ u.status.code = .success ∧
       exec .undeltafilter u = .fault .engineOutsideHostMemory) :=
  ⟨⟨imageV3_allowed, _, rfl, rfl, _, rfl⟩,
    ⟨⟨⟨by decide, by decide, by decide, by decide⟩, by decide, by decide, by decide, by decide, by decide, by decide⟩,
      _, rfl, by decide⟩,
    ⟨⟨⟨by decide, by decide, by decide, by decide⟩, by decide, by decide, by decide, by decide, by decide, by decide⟩,
      rfl⟩,
    ⟨⟨by decide, by decide, by decide, by decide⟩, by decide, by decide, by decide, by decide, by decide, by decide⟩,
    _, rfl, rfl, rfl⟩

/-- V-3, the Host having written the bytes next to the three regions meanwhile. -/
theorem witness_DecodeProducesPixels :
    let s := { imageV3 with raced := [0x1FFF, 0x2003, 0x2FFF, 0x3005, 0x3FFF, 0x4008] }
    decodeAllowed s ∧ cmdReady s ∧ dataReady s (copiedLength false [2, 3, 1, 2]) ∧
    regionReady s s.args.outAddr [2, 3, 1, 2].sum ∧ Memory.wf s.mem = true ∧
    (∀ r ∈ [2, 3, 1, 2], 0 < r) ∧ 0 < [2, 3, 1, 2].sum ∧ [2, 3, 1, 2].sum ≤ s.args.outCap.toNat ∧
    [2, 3, 1, 2].sum ≤ s.platform.unrleCap ∧ [2, 3, 1, 2].sum % 4 = 0 ∧
    copiedLength false [2, 3, 1, 2] ≤ s.args.dataLen.toNat ∧
    s.commandBits (commandStream false [2, 3, 1, 2].sum [2, 3, 1, 2]) :=
  ⟨⟨⟨by decide, by decide, by decide, by decide⟩, by decide, by decide, by decide, by decide, by decide, by decide⟩,
    ⟨by unfold avoids; decide, flat_backed _ _⟩, ⟨by unfold avoids; decide, flat_backed _ _⟩,
    ⟨by unfold avoids; decide, flat_backed _ _⟩, rfl, by decide, by decide, by decide, by decide, by decide, by decide,
    by unfold State.commandBits; decide +kernel⟩

end Sys2Proof.Tests
end

section
/-! SUPPORT. What a step can do, said once for the Engine's turn and once for each of the Host's accesses; and that none
of them changes the platform (spec/00_scope.md R9). -/

namespace Sys2Proof.Machine

variable {s t : State}

/-! ### What an Engine's turn and an access of the Host can do -/

/-- The Engine's turn that has a next state: it was idle (R249), or the word was illegal (R82), or the command completed
and its races were settled (R237). -/
theorem engineStep_next (h : engineStep s = .next t) :
    (s.pending = none ∧ t = s) ∨
    (∃ w e, s.pending = some w ∧ decodeWord w = .error e ∧ t = endRace (complete .illegalCommand s)) ∨
    ∃ w i u, s.pending = some w ∧ decodeWord w = .ok i ∧ exec i s = .next u ∧ t = settle i s u := by
  unfold engineStep at h
  cases hp : s.pending with
  | none => rw [hp] at h; cases h; exact .inl ⟨rfl, rfl⟩
  | some w =>
    rw [hp] at h
    cases hd : decodeWord w with
    | error e => simp only [hd] at h; cases h; exact .inr (.inl ⟨w, e, rfl, hd, rfl⟩)
    | ok i =>
      simp only [hd] at h
      cases he : exec i s with
      | next u => rw [he] at h; cases h; exact .inr (.inr ⟨w, i, u, rfl, hd, he, rfl⟩)
      | fault f => rw [he] at h; cases h
      | refused r => rw [he] at h; cases h

/-- A supported load reads a register, or 0 at a reserved offset (R39, R68). -/
theorem hostLoad_next {n : Nat} {a : Word} (h : hostLoad n a s = .next t) :
    (∃ r, t = loadRegister r s) ∨ t = observe 0#32 s := by
  unfold hostLoad at h
  split at h
  · split at h
    · cases h; exact .inl ⟨_, rfl⟩
    · cases h; exact .inr rfl
  · cases h

/-- A supported store is ignored, while busy or at a reserved offset (R39, R44), or stores to a register while not
busy. -/
theorem hostStore_next {n : Nat} {a w : Word} (h : hostStore n a w s = .next t) :
    t = s ∨ (s.status.busy = false ∧ ∃ r, t = storeRegister r w s) := by
  unfold hostStore at h
  split at h
  · split at h
    · cases h; exact .inl rfl
    · rename_i hb
      split at h
      · cases h; exact .inr ⟨Bool.eq_false_iff.2 hb, _, rfl⟩
      · cases h; exact .inl rfl
  · cases h

/-- A load of a byte of host memory shows the Host a word, and draws at most a free value for it (R61, R71 item 3). -/
theorem hostMemLoad_next {a : Word} (h : hostMemLoad a s = .next t) :
    ∃ w, t = observe w (drawOne s) ∨ t = observe w s := by
  unfold hostMemLoad at h
  split at h
  · cases h
  · split at h
    · split at h
      · cases h; exact ⟨_, .inl rfl⟩
      · cases h; exact ⟨_, .inr rfl⟩
    · cases h

/-- A store of a byte of host memory writes it and notes the write (R61, R71). -/
theorem hostMemStore_next {a : Word} {v : Byte} (h : hostMemStore a v s = .next t) :
    t = noteHostWrite a.toNat (setMem (Memory.write s.mem a.toNat v) s) := by
  unfold hostMemStore at h
  split at h
  · cases h
  · split at h
    · cases h; rfl
    · cases h

/-! ### The platform, under every operation of a step -/

@[simp] theorem loadRegister_platform (r : RegName) (s : State) : (loadRegister r s).platform = s.platform := by
  unfold loadRegister; split <;> rfl

@[simp] theorem storeRegister_platform (r : RegName) (w : Word) (s : State) :
    (storeRegister r w s).platform = s.platform := by cases r <;> rfl

@[simp] theorem noteHostWrite_platform (a : Nat) (s : State) : (noteHostWrite a s).platform = s.platform := by
  unfold noteHostWrite; split <;> rfl

@[simp] theorem hostPoll_platform (s : State) : (hostPoll s).platform = s.platform := by
  unfold hostPoll
  split <;> exact loadRegister_platform .status s

@[simp] theorem platformReset_platform (s : State) : (platformReset s).platform = s.platform := rfl

@[simp] theorem settle_platform (i : Instr) (s t : State) : (settle i s t).platform = t.platform := by
  rw [(settle_kept i s t).1]
  exact endRace_platform t

theorem exec_platform {i : Instr} (h : exec i s = .next t) : t.platform = s.platform := by
  obtain ⟨u, c, hu, rfl⟩ := exec_kept h
  rw [complete_platform, hu.frame]

theorem engineStep_platform (h : engineStep s = .next t) : t.platform = s.platform := by
  rcases engineStep_next h with ⟨-, rfl⟩ | ⟨w, e, -, -, rfl⟩ | ⟨w, i, u, -, -, hu, rfl⟩
  · rfl
  · rw [endRace_platform, complete_platform]
  · rw [settle_platform, exec_platform hu]

theorem hostLoad_platform {n : Nat} {a : Word} (h : hostLoad n a s = .next t) : t.platform = s.platform := by
  rcases hostLoad_next h with ⟨r, rfl⟩ | rfl
  · exact loadRegister_platform r s
  · exact observe_platform s _

theorem hostStore_platform {n : Nat} {a w : Word} (h : hostStore n a w s = .next t) : t.platform = s.platform := by
  rcases hostStore_next h with rfl | ⟨-, r, rfl⟩
  · rfl
  · exact storeRegister_platform r w s

theorem hostMemLoad_platform {a : Word} (h : hostMemLoad a s = .next t) : t.platform = s.platform := by
  obtain ⟨w, rfl | rfl⟩ := hostMemLoad_next h
  · rw [observe_platform, drawOne_platform]
  · rw [observe_platform]

theorem hostMemStore_platform {a : Word} {v : Byte} (h : hostMemStore a v s = .next t) :
    t.platform = s.platform := by
  rw [hostMemStore_next h, noteHostWrite_platform, setMem_platform]

/-! ### The step -/

/-- Settles O23, by what the step's first input is. -/
theorem stepKeepsPlatform : Obligations.StepKeepsPlatform := by
  intro s t h
  rw [← takeInput_platform s]
  unfold step at h
  cases hi : s.inputs with
  | nil => rw [hi] at h; exact engineStep_platform h
  | cons input rest =>
    rw [hi] at h
    cases input with
    | engine => exact engineStep_platform h
    | load n a => exact hostLoad_platform h
    | store n a w => exact hostStore_platform h
    | poll => cases h; exact hostPoll_platform s.takeInput
    | memLoad a => exact hostMemLoad_platform h
    | memStore a v => exact hostMemStore_platform h
    | reset => cases h; exact platformReset_platform s.takeInput

end Sys2Proof.Machine
end

section
/-! SUPPORT. The invariant under every operation of a step (spec/10_state.md R23, R24, R36 to R38): which changes leave
it alone, and why acceptance, completion and reset restore it. -/

namespace Sys2Proof.Machine

variable {s t : State}

/-! ### Changes the invariant does not see -/

/-- The two states differ only in fields the invariant does not speak of. -/
def sameForInv (s t : State) : Prop :=
  t = { s with
    result := t.result, args := t.args, dataPos := t.dataPos, draws := t.draws, scratchEpoch := t.scratchEpoch,
    unstable := t.unstable, latched := t.latched, inputs := t.inputs, observed := t.observed }

theorem State.Inv.of_same (h : s.Inv) (hf : sameForInv s t) : t.Inv := by
  rw [hf]
  exact ⟨h.busy_pending, h.pending_cmd, h.code_pending, h.done_idle, h.cursor, h.scratch_valid, h.scratch_released,
    h.mem_wf, h.raced_idle⟩

/-- Of host memory the invariant asks its canonical form only. -/
theorem State.Inv.of_memFrame (h : s.Inv) (hf : memFrame s t) (hw : Memory.wf t.mem = true) : t.Inv := by
  rw [hf]
  exact ⟨h.busy_pending, h.pending_cmd, h.code_pending, h.done_idle, h.cursor, h.scratch_valid, h.scratch_released,
    hw, h.raced_idle⟩

theorem State.Inv.scratchOk (h : s.Inv) : scratchOk s := ⟨h.scratch_valid, h.scratch_released⟩

/-! ### Completion and the Engine's turn -/

theorem pending_notMem_codesOf (i : Instr) : Code.pending ∉ codesOf i := by cases i <;> decide

/-- A command that completes has kept what every command keeps, and its code is not Pending (R238). -/
theorem exec_completed {i : Instr} (h : exec i s = .next t) :
    ∃ u c, commandKept s u ∧ c ≠ .pending ∧ t = complete c u := by
  rcases exec_next h with ⟨u, hu, ht⟩ | ⟨c, u, hu, ht⟩
  · exact ⟨u, .success, hu.kept, by decide, ht⟩
  · exact ⟨u, c, hu.kept, fun hc => pending_notMem_codesOf i (hc ▸ hu.code), ht⟩

/-- Completion ends BUSY, the pending command and the races together (R238, R71 item 3). -/
theorem State.Inv.completed {c : Code} (h : s.Inv) (hk : commandKept s t) (hc : c ≠ .pending) :
    (endRace (complete c t)).Inv where
  busy_pending := rfl
  pending_cmd _ hp := nomatch hp
  code_pending := iff_of_false hc Bool.false_ne_true
  done_idle hb := nomatch hb
  cursor := hk.cursor h.cursor
  scratch_valid := (hk.scratch h.scratchOk).1
  scratch_released := (hk.scratch h.scratchOk).2
  mem_wf := hk.wf h.mem_wf
  raced_idle _ := rfl

/-- Settling a race changes host memory at most, and keeps its form. -/
theorem State.Inv.settle {i : Instr} (h : (endRace t).Inv) : (settle i s t).Inv := by
  obtain ⟨hf, hw, -⟩ := settle_kept i s t
  exact h.of_memFrame hf (hw h.mem_wf)

theorem State.Inv.engineStep (h : s.Inv) (he : engineStep s = .next t) : t.Inv := by
  rcases engineStep_next he with ⟨-, rfl⟩ | ⟨w, e, -, -, rfl⟩ | ⟨w, i, u, -, -, hu, rfl⟩
  · exact h
  · exact h.completed (.refl s) (by decide)
  · obtain ⟨v, c, hv, hc, rfl⟩ := exec_completed hu
    exact (h.completed hv hc).settle

/-! ### The Host's accesses -/

/-- Acceptance sets BUSY, the pending command, CMD and CODE together (R23). -/
theorem State.Inv.acceptCommand (h : s.Inv) (w : Word) : (acceptCommand w s).Inv where
  busy_pending := rfl
  pending_cmd _ hp := (Option.some.inj hp).symm
  code_pending := iff_of_true rfl rfl
  done_idle _ := rfl
  cursor := h.cursor
  scratch_valid := h.scratch_valid
  scratch_released := h.scratch_released
  mem_wf := h.mem_wf
  raced_idle hb := nomatch hb

theorem writeStatus_eq (w : Word) (st : Status) :
    writeStatus w st = ⟨st.busy, st.done && !w.getLsbD 1, st.code⟩ := by
  unfold writeStatus
  cases w.getLsbD 1 <;> simp

/-- A store to a register other than CMD and STATUS changes the operand registers at most (R39, R45). -/
theorem storeRegister_frame {r : RegName} (hc : r ≠ .cmd) (hs : r ≠ .status) (w : Word) (s : State) :
    storeRegister r w s = { s with args := (storeRegister r w s).args } := by
  cases r
  case cmd => exact absurd rfl hc
  case status => exact absurd rfl hs
  all_goals rfl

theorem State.Inv.storeRegister (h : s.Inv) (hb : s.status.busy = false) (r : RegName) (w : Word) :
    (storeRegister r w s).Inv := by
  by_cases hc : r = .cmd
  · subst hc; exact h.acceptCommand w
  by_cases hs : r = .status
  · subst hs
    rw [Machine.storeRegister, writeStatus_eq]
    exact ⟨h.busy_pending, h.pending_cmd, h.code_pending, fun hbusy => absurd hbusy (by simp [hb]), h.cursor,
      h.scratch_valid, h.scratch_released, h.mem_wf, h.raced_idle⟩
  · rw [storeRegister_frame hc hs]
    exact h.of_same rfl

theorem State.Inv.loadRegister (h : s.Inv) (r : RegName) : (loadRegister r s).Inv := by
  unfold Machine.loadRegister
  split <;> exact h.of_same rfl

theorem State.Inv.hostPoll (h : s.Inv) : (hostPoll s).Inv := by
  unfold Machine.hostPoll
  split
  · exact (h.loadRegister .status).of_same rfl
  · exact h.loadRegister .status

theorem State.Inv.noteHostWrite (h : s.Inv) (a : Nat) : (noteHostWrite a s).Inv := by
  cases hb : s.status.busy with
  | true =>
    rw [noteHostWrite_busy hb]
    exact ⟨h.busy_pending, h.pending_cmd, h.code_pending, h.done_idle, h.cursor, h.scratch_valid, h.scratch_released,
      h.mem_wf, fun hidle => absurd (hb.symm.trans hidle) (by decide)⟩
  | false =>
    rw [noteHostWrite_idle hb]
    exact h.of_same rfl

theorem State.Inv.hostLoad {n : Nat} {a : Word} (h : s.Inv) (hl : hostLoad n a s = .next t) : t.Inv := by
  rcases hostLoad_next hl with ⟨r, rfl⟩ | rfl
  · exact h.loadRegister r
  · exact h.of_same rfl

theorem State.Inv.hostStore {n : Nat} {a w : Word} (h : s.Inv) (hs : hostStore n a w s = .next t) : t.Inv := by
  rcases hostStore_next hs with rfl | ⟨hb, r, rfl⟩
  · exact h
  · exact h.storeRegister hb r w

theorem State.Inv.hostMemLoad {a : Word} (h : s.Inv) (hl : hostMemLoad a s = .next t) : t.Inv := by
  obtain ⟨w, rfl | rfl⟩ := hostMemLoad_next hl <;> exact h.of_same rfl

theorem State.Inv.hostMemStore {a : Word} {v : Byte} (h : s.Inv) (hs : hostMemStore a v s = .next t) : t.Inv := by
  rw [hostMemStore_next hs]
  exact (h.of_memFrame (memFrame_setMem _ s) (Memory.wf_write h.mem_wf a v)).noteHostWrite a.toNat

/-! ### Reset -/

/-- The registers of R47 meet the invariant on every platform. -/
theorem State.Inv.resetOn (p : Platform) {m : Memory} (hm : Memory.wf m = true) : (State.resetOn p m).Inv where
  busy_pending := rfl
  pending_cmd _ hp := nomatch hp
  code_pending := iff_of_false (fun h => nomatch (h : Code.success = .pending)) Bool.false_ne_true
  done_idle hb := nomatch hb
  cursor := ⟨fun _ => rfl, fun _ => rfl, Nat.zero_le _⟩
  scratch_valid hv := nomatch hv
  scratch_released _ := rfl
  mem_wf := hm
  raced_idle _ := rfl

theorem State.Inv.platformReset (h : s.Inv) : (platformReset s).Inv :=
  (State.Inv.resetOn s.platform ((settleReset_kept s).1 h.mem_wf)).of_same rfl

/-- Settles O21. -/
theorem resetHasInvariant : Obligations.ResetHasInvariant := State.Inv.resetOn Platform.reference rfl

/-! ### The step -/

/-- Settles O22, by what the step's first input is. -/
theorem stepKeepsInvariant : Obligations.StepKeepsInvariant := by
  intro s t hs h
  have hi : s.takeInput.Inv := hs.of_same rfl
  unfold step at h
  cases hin : s.inputs with
  | nil => rw [hin] at h; exact hi.engineStep h
  | cons input rest =>
    rw [hin] at h
    cases input with
    | engine => exact hi.engineStep h
    | load n a => exact hi.hostLoad h
    | store n a w => exact hi.hostStore h
    | poll => cases h; exact hi.hostPoll
    | memLoad a => exact hi.hostMemLoad h
    | memStore a v => exact hi.hostMemStore h
    | reset => cases h; exact hi.platformReset

end Sys2Proof.Machine
end

section
/-! SUPPORT. The registers as the Host sees them: which word each offset holds and what a load, a store and a reset make
of it (spec/10_state.md R22 to R39, R43 to R47), and the two stops of the Host (R39, spec/00_scope.md R9). -/

namespace Sys2Proof.Machine

variable {s t : State}

/-! ### Stores to a register -/

/-- The RW registers other than CMD (R26 to R30). -/
def operandRegisters : List RegName :=
  [.operand, .dataAddr, .dataLen, .cmdAddr, .cmdLen, .outAddr, .outCap, .width, .height, .depth, .stride]

/-- The registers the Host cannot write (R25, R31 to R37). -/
def readOnlyRegisters : List RegName := [.result, .unrleLen, .dataPos, .curAddr, .curRem, .curState, .scrState]

theorem operandRegisters_ne {r : RegName} (hr : r ∈ operandRegisters) : r ≠ .cmd ∧ r ≠ .status := by
  constructor <;> rintro rfl <;> revert hr <;> decide

/-- A stored operand register reads as the word stored, and every other register as before (R45). -/
theorem registerWord_storeRegister {r : RegName} (hr : r ∈ operandRegisters) (q : RegName) (w : Word) (s : State) :
    registerWord q (storeRegister r w s) = if q = r then w else registerWord q s := by
  simp only [operandRegisters, List.mem_cons, List.not_mem_nil, or_false] at hr
  rcases hr with rfl | rfl | rfl | rfl | rfl | rfl | rfl | rfl | rfl | rfl | rfl
  all_goals cases q <;> rfl

theorem storeRegister_readOnly {r : RegName} (hr : r ∈ readOnlyRegisters) (w : Word) (s : State) :
    storeRegister r w s = s := by
  simp only [readOnlyRegisters, List.mem_cons, List.not_mem_nil, or_false] at hr
  rcases hr with rfl | rfl | rfl | rfl | rfl | rfl | rfl <;> rfl

theorem storeRegister_status (w : Word) (s : State) :
    storeRegister .status w s =
      { s with status := ⟨s.status.busy, s.status.done && !w.getLsbD 1, s.status.code⟩ } := by
  rw [storeRegister, writeStatus_eq]

/-- No register holds what is still to come. -/
theorem registerWord_inputs (q : RegName) (s : State) (l : List Input) :
    registerWord q { s with inputs := l } = registerWord q s := by cases q <;> rfl

/-- A register store is ignored while busy (R44). -/
theorem store_reg_busy {r : RegName} {w : Word} {rest : List Input} (hp : s.platform.wf = true)
    (hb : s.status.busy = true) (h : s.inputs = .store 4 (s.regAddr r) w :: rest) :
    step s = .next { s with inputs := rest } := by
  rw [store_reg hp h, if_pos hb]

theorem store_reg_idle {r : RegName} {w : Word} {rest : List Input} (hp : s.platform.wf = true)
    (hb : s.status.busy = false) (h : s.inputs = .store 4 (s.regAddr r) w :: rest) :
    step s = .next (storeRegister r w { s with inputs := rest }) := by
  rw [store_reg hp h, hb, if_neg Bool.false_ne_true]

/-- Settles O10. -/
theorem operandRegistersStoreAllBits : Obligations.OperandRegistersStoreAllBits := by
  intro s r w rest hp hb hr h
  obtain ⟨hc, hs⟩ := operandRegisters_ne hr
  refine ⟨_, store_reg_idle hp hb h, storeRegister_frame hc hs w { s with inputs := rest }, ?_, fun q hq => ?_⟩
  · rw [registerWord_storeRegister hr, if_pos rfl]
  · rw [registerWord_storeRegister hr, if_neg hq, registerWord_inputs]

/-! ### CMD and STATUS -/

theorem loadRegister_idle (hb : s.status.busy = false) (r : RegName) :
    loadRegister r s = observe (registerWord r s) s := by
  rw [loadRegister, hb, Bool.false_and, if_neg Bool.false_ne_true]

/-- A register R43 does not name is read exactly, busy or not. -/
theorem loadRegister_shown {r : RegName} (hr : hiddenWhileBusy r = false) (s : State) :
    loadRegister r s = observe (registerWord r s) s := by
  rw [loadRegister, hr, Bool.and_false, if_neg Bool.false_ne_true]

theorem loadRegister_hidden {r : RegName} (hb : s.status.busy = true) (hr : hiddenWhileBusy r = true) :
    loadRegister r s = observe (Config.busyWord s.draws) (drawOne s) := by
  rw [loadRegister, hb, hr, Bool.and_self, if_pos rfl]

/-- Settles O8. -/
theorem commandWriteAccepted : Obligations.CommandWriteAccepted := by
  intro s w rest hp
  refine ⟨fun hb h => store_reg_idle hp hb h, fun hb h => store_reg_busy hp hb h, fun h => ?_⟩
  rw [load_reg hp h, loadRegister_shown rfl]
  rfl

/-- STATUS bit by bit (R24). -/
theorem statusWord_getLsbD (st : Status) (i : Nat) :
    (statusWord st).getLsbD i =
      if i = 0 then st.busy else if i = 1 then st.done else if i < 8 then false else
        (codeNumber st.code).getLsbD (i - 8) := by
  show BitVec.getLsbD (w := 16 + 8 + 6 + 1 + 1)
    (0#16 ++ codeNumber st.code ++ 0#6 ++ BitVec.ofBool st.done ++ BitVec.ofBool st.busy) i = _
  simp only [BitVec.getLsbD_append, BitVec.getLsbD_ofBool, BitVec.getLsbD_zero]
  rcases i with _ | _ | i
  · simp
  · simp
  · by_cases hi : i < 6
    · simp [hi]
    · simpa [hi, show ¬ i + 1 + 1 < 8 by omega] using BitVec.lt_of_getLsbD

theorem statusWord_reserved_low (st : Status) : (statusWord st).extractLsb' 2 6 = 0#6 := by
  ext i hi
  rw [BitVec.getElem_extractLsb', statusWord_getLsbD]
  rw [if_neg (by omega), if_neg (by omega), if_pos (by omega), BitVec.getElem_zero]

theorem statusWord_code (st : Status) : (statusWord st).extractLsb' 8 8 = codeNumber st.code := by
  ext i hi
  rw [BitVec.getElem_extractLsb', statusWord_getLsbD]
  rw [if_neg (by omega), if_neg (by omega), if_neg (by omega), Nat.add_sub_cancel_left,
    BitVec.getLsbD_eq_getElem hi]

theorem statusWord_reserved_high (st : Status) : (statusWord st).extractLsb' 16 16 = 0#16 := by
  ext i hi
  rw [BitVec.getElem_extractLsb', statusWord_getLsbD]
  rw [if_neg (by omega), if_neg (by omega), if_neg (by omega), BitVec.getLsbD_of_ge _ _ (by omega),
    BitVec.getElem_zero]

/-- Settles O9. -/
theorem statusRegister : Obligations.StatusRegister := by
  intro s w rest hp
  refine ⟨fun h => ⟨statusWord s.status, ?_, statusWord_getLsbD _ 0, statusWord_getLsbD _ 1,
    statusWord_reserved_low _, ?_, statusWord_reserved_high _⟩, fun h hb => ?_, fun h hb => store_reg_busy hp hb h⟩
  · rw [load_reg hp h, loadRegister_shown rfl]
    rfl
  · rw [statusWord_code]
    cases s.status.code <;> decide
  · rw [store_reg_idle hp hb h, storeRegister_status, hb]

/-! ### Every offset of the block -/

/-- Settles O12: the offset may be reserved as well as a register's. -/
theorem busyWritesIgnored : Obligations.BusyWritesIgnored := by
  intro s a w rest _ hb ha hblock h
  have hlegal : ({ s with inputs := rest } : State).platform.legalAccess 4 a = true :=
    (legalAccess_iff _ _ _).2 ⟨rfl, ha, hblock⟩
  rw [step_store h, tail_of h, hostStore, if_pos hlegal, if_pos hb]

/-- Settles O11. -/
theorem reservedAndReadOnlyOffsets : Obligations.ReservedAndReadOnlyOffsets := by
  intro s w rest hp
  refine ⟨fun k hk h => ?_, fun k hk h => ?_, fun r hr h => ?_, fun h => ?_,
    fun n a ha => ⟨fun h => ?_, fun h => ?_⟩⟩
  · rw [step_load h, tail_of h]
    exact hostLoad_reserved (s := { s with inputs := rest }) hp hk
  · rw [step_store h, tail_of h]
    exact hostStore_reserved (s := { s with inputs := rest }) hp hk w
  · rw [store_reg hp h, storeRegister_readOnly hr, ite_self]
  · cases hb : s.status.busy with
    | true => exact ⟨s.status.done, hb ▸ store_reg_busy hp hb h⟩
    | false => exact ⟨s.status.done && !w.getLsbD 1, by rw [store_reg_idle hp hb h, storeRegister_status, hb]⟩
  · rw [step_load h, hostLoad, takeInput_platform, illegalAccess ha, if_neg Bool.false_ne_true]
  · rw [step_store h, hostStore, takeInput_platform, illegalAccess ha, if_neg Bool.false_ne_true]

/-- The offsets R43 hides while busy are those of the state registers. -/
theorem hiddenOffset_iff (r : RegName) :
    r.offset ∈ [0x08, 0x38, 0x3C, 0x40, 0x44, 0x48, 0x4C] ↔ hiddenWhileBusy r = true := by
  cases r <;> decide

/-- Settles O13: the list of the statement is, for each register, its offset and the word it holds. -/
theorem registerLoads : Obligations.RegisterLoads := by
  intro s offset r w hp hrow
  obtain ⟨q, -, hq⟩ :=
    (List.mem_map (f := fun q => (RegName.offset q, q, registerWord q s)) (l := registers)).1 hrow
  obtain ⟨rfl, rfl, rfl⟩ : q.offset = offset ∧ q = r ∧ registerWord q s = w := by simpa using hq
  refine ⟨rfl, rfl, fun rest h => ⟨fun hexact => ?_, fun hb hhid => ?_⟩⟩
  · rw [hiddenOffset_iff, Bool.not_eq_true] at hexact
    have hload : loadRegister q { s with inputs := rest } =
        observe (registerWord q { s with inputs := rest }) { s with inputs := rest } :=
      hexact.elim (fun hb => loadRegister_idle (s := { s with inputs := rest }) hb q) (loadRegister_shown · _)
    rw [load_reg hp h, hload, registerWord_inputs]
    rfl
  · refine ⟨Config.busyWord s.draws, ?_⟩
    rw [load_reg hp h, loadRegister_hidden (s := { s with inputs := rest }) hb ((hiddenOffset_iff q).1 hhid)]
    rfl

theorem step_memLoad {a : Word} {rest : List Input} (h : s.inputs = .memLoad a :: rest) :
    step s = hostMemLoad a s.takeInput := by unfold step; rw [h]

theorem step_memStore {a : Word} {v : Byte} {rest : List Input} (h : s.inputs = .memStore a v :: rest) :
    step s = hostMemStore a v s.takeInput := by unfold step; rw [h]

/-- A byte access to the block is refused (R39, R68). -/
theorem hostByte_inBlock {a : Word} (h : inBlock a s = true) (v : Byte) :
    hostMemLoad a s = .refused .unsupportedRegisterAccess ∧
      hostMemStore a v s = .refused .unsupportedRegisterAccess := by
  rw [hostMemLoad, hostMemStore, h, if_pos rfl, if_pos rfl]
  exact ⟨rfl, rfl⟩

/-- A byte access outside HOST_MEMORY has no step (R9). -/
theorem hostByte_unbacked {a : Word} (h : inBlock a s = false) (hb : backs s.platform a.toNat = false) (v : Byte) :
    hostMemLoad a s = .fault .hostOutsideHostMemory ∧ hostMemStore a v s = .fault .hostOutsideHostMemory := by
  rw [hostMemLoad, hostMemStore, h, hb]
  exact ⟨rfl, rfl⟩

/-- Settles O18. -/
theorem hostByteAccessStops : Obligations.HostByteAccessStops := by
  intro s a v rest h
  have hstep : step s = hostMemLoad a s.takeInput ∨ step s = hostMemStore a v s.takeInput :=
    h.imp step_memLoad step_memStore
  refine ⟨fun hin => ?_, fun hout hb => ?_⟩
  · obtain ⟨hload, hstore⟩ := hostByte_inBlock (s := s.takeInput) (decide_eq_true hin) v
    exact hstep.elim (·.trans hload) (·.trans hstore)
  · obtain ⟨hload, hstore⟩ := hostByte_unbacked (s := s.takeInput) (inBlock_false hout) hb v
    exact hstep.elim (·.trans hload) (·.trans hstore)

/-! ### Reset -/

theorem registerWord_resetOn (r : RegName) (p : Platform) (m : Memory) :
    registerWord r (State.resetOn p m) = 0#32 := by
  cases r
  case status => exact (by decide : statusWord ⟨false, false, .success⟩ = 0#32)
  case curState => exact (by decide : curStateWord ⟨0#32, 0#32, 0#3, false⟩ = 0#32)
  case scrState => exact (by decide : scrStateWord false = 0#32)
  all_goals rfl

theorem registerWord_platformReset (r : RegName) (s : State) : registerWord r (platformReset s) = 0#32 := by
  rw [← registerWord_resetOn r s.platform []]
  cases r <;> rfl

theorem platformReset_mem_idle (hb : s.status.busy = false) : (platformReset s).mem = s.mem := by
  show (settleReset s).mem = s.mem
  rw [(settleReset_kept s).2.2 hb]

theorem step_reset {rest : List Input} (h : s.inputs = .reset :: rest) :
    step s = .next (platformReset { s with inputs := rest }) := by
  rw [← tail_of h]; unfold step; rw [h]

/-- Settles O19. -/
theorem resetClearsInstance : Obligations.ResetClearsInstance := by
  refine ⟨fun r => registerWord_resetOn r _ _, rfl, rfl, fun s rest h => ?_⟩
  refine ⟨_, step_reset h, fun r => registerWord_platformReset r _, rfl, rfl, ?_, rfl, rfl, rfl⟩
  exact platformReset_mem_idle (s := { s with inputs := rest })

/-! ### What a command leaves to the Host -/

/-- Settles O24: the frame every command keeps names none of these fields. -/
theorem commandsKeepHostRegisters : Obligations.CommandsKeepHostRegisters := by
  intro i s t h
  obtain ⟨u, c, hu, rfl⟩ := exec_kept h
  have hf := hu.frame
  exact ⟨by rw [complete_args, hf], by rw [complete_cmd, hf], by rw [complete_platform, hf],
    by rw [complete_inputs, hf], by rw [complete_observed, hf], by rw [complete_raced, hf]⟩

/-- Settles O26, by how the command ended. -/
theorem resultWrittenOnSuccessOnly : Obligations.ResultWrittenOnSuccessOnly := by
  intro i s t h
  rcases exec_next h with ⟨u, hdone, rfl⟩ | ⟨c, u, hfailed, rfl⟩
  · exact ⟨hdone.result, fun hc => absurd rfl hc⟩
  · exact ⟨fun _ => hfailed.result, fun _ => hfailed.result⟩

end Sys2Proof.Machine
end

section
/-! SUPPORT. The host bytes a command writes and the accesses at which it stops (spec/20_memory.md R61, R63): none is
written outside OUT below UNRLE_LEN, and an access outside HOST_MEMORY that is reached has no step. -/

namespace Sys2Proof.Machine

variable {s t : State}

/-! ### What a command writes, and what can stop it -/

/-- Settles O28: a command that ended well wrote OUT below UNRLE_LEN, one that raised wrote nothing. -/
theorem hostBytesWrittenAreOut : Obligations.HostBytesWrittenAreOut := by
  intro i s t h
  rcases exec_next h with ⟨u, hdone, rfl⟩ | ⟨c, u, hfailed, rfl⟩
  · exact ⟨hdone.outside, hdone.mem⟩
  · exact ⟨fun a _ => congrArg (Memory.read · a.toNat) hfailed.mem, fun _ => hfailed.mem⟩

/-- Settles O30. -/
theorem onlyUnbackedAccessesStop : Obligations.OnlyUnbackedAccessesStop :=
  fun i s => ⟨exec_not_refused i s, fun _ h => exec_stop h⟩

/-! ### The cursor at an unbacked address -/

theorem readByte_unbacked {a : Word} (hb : backs s.platform a.toNat = false) (unsettled : List Nat) :
    readByte unsettled a s = .stop .engineOutsideHostMemory := by
  rw [readByte, hb, if_neg Bool.false_ne_true]

theorem getBit_unbacked (h0 : s.cur.rem ≠ 0#32) (hb : backs s.platform s.cur.addr.toNat = false) :
    getBit s = .stop .engineOutsideHostMemory := by
  rw [getBit, if_neg h0, cursorRead, readByte_unbacked hb, andThen_stop]

/-- The unary count reads at least one bit, so it stops where that bit does. -/
theorem getGamma_unbacked (h0 : s.cur.rem ≠ 0#32) (hb : backs s.platform s.cur.addr.toNat = false) :
    getGamma s = .stop .engineOutsideHostMemory := by
  rw [getGamma, gammaZeros, getBit_unbacked h0 hb, andThen_stop, andThen_stop]

theorem exec_getBit_unbacked (h0 : s.cur.rem ≠ 0#32) (hb : backs s.platform s.cur.addr.toNat = false) :
    exec .getBit s = .fault .engineOutsideHostMemory := by
  rw [exec_eq, commandBody, getBit_unbacked h0 hb, andThen_stop, latching_stop, finish_stop]

theorem exec_getGamma_unbacked (h0 : s.cur.rem ≠ 0#32) (hb : backs s.platform s.cur.addr.toNat = false) :
    exec .getGamma s = .fault .engineOutsideHostMemory := by
  rw [exec_eq, commandBody, getGamma_unbacked h0 hb, andThen_stop, latching_stop, finish_stop]

/-! ### The RunLengthExpander at an unbacked address -/

/-- The fresh cursor stands at CMD_ADDR, so the flag is already out of reach (R140). -/
theorem unrleCore_unbacked (h0 : s.args.cmdLen ≠ 0#32) (hb : backs s.platform s.args.cmdAddr.toNat = false) :
    unrleCore s = .stop .engineOutsideHostMemory := by
  rw [unrleCore, getBit_unbacked (s := startUnrle s) h0 hb, andThen_stop]

/-- A copy run behind good runs, with a data byte out of reach (R140). -/
theorem unrleCore_copy_unbacked {flag : Bool} {total r : Nat} {runs : List Nat} (ha : unrleAllowed s)
    (hc : cmdReady s) (hd : dataReady s (copiedLength flag runs)) (hpos : ∀ q ∈ runs, 0 < q) (hr : 0 < r)
    (hsum : runs.sum + r ≤ total) (ht : total < 0xFFFFFFFF) (hcap : total ≤ s.platform.unrleCap)
    (hdata : copiedLength flag runs + r ≤ s.args.dataLen.toNat)
    (hbits : s.commandBits (commandStream flag total (runs ++ [r]))) (hflag : flagAfter flag runs = true)
    (hb : ∃ i < r, backs s.platform (addrAt s.args.dataAddr (copiedLength flag runs + i)).toNat = false) :
    unrleCore s = .stop .engineOutsideHostMemory := by
  rw [commandStream_append] at hbits
  obtain ⟨fuel, hfuel, hready, hahead, hcore⟩ := unrleCore_runs hc ((addrOK_iff _ _).2 ha.cmdRange) hd hpos
    (by omega) (by omega) ht hcap (by omega) hbits
  have hdp : (afterRuns s flag total runs).dataPos.toNat = copiedLength flag runs :=
    ofNat_toNat_of_lt (by have := s.args.dataLen.isLt; omega)
  rw [hcore, hflag, unrleRuns_unbacked (m := []) hfuel hready rfl hr hsum ht (hdp ▸ hdata) (hdp ▸ hb) hahead,
    andThen_stop]

theorem exec_unrle_stop (ha : unrleAllowed s) (h : unrleCore s = .stop .engineOutsideHostMemory) :
    exec .unrle s = .fault .engineOutsideHostMemory := by
  rw [exec_unrle ha, h, finish_stop]

theorem exec_decode_stop (ha : decodeAllowed s) (h : decodeCore s = .stop .engineOutsideHostMemory) :
    exec .decode s = .fault .engineOutsideHostMemory := by
  rw [exec_decode ha, h, releasing_stop, finish_stop]

/-! ### OUT at an unbacked address -/

/-- A piece that never raises, and ends well only with all it reaches backed, stops where something is not. -/
theorem stop_of_reach {r : Res Unit} {P : Prop}
    (h : r.Sat (fun _ _ => P) (fun _ _ => False) fun f => f = .engineOutsideHostMemory) (hP : ¬ P) :
    r = .stop .engineOutsideHostMemory := by
  cases r with
  | ok a t => exact absurd h hP
  | fail c t => exact h.elim
  | stop f => exact congrArg Res.stop h

theorem regroupCore_unbacked (hq : s.unrleLen.toNat % 4 = 0) (hb : ¬ outBacked s) :
    regroupCore s = .stop .engineOutsideHostMemory := stop_of_reach (regroupCore_reach s hq) hb

theorem undeltaCore_unbacked (hq : s.unrleLen.toNat % 4 = 0) (hb : ¬ outBacked s) :
    undeltaCore s = .stop .engineOutsideHostMemory := by
  rw [undeltaCore, regroupCore_unbacked hq hb, andThen_stop]

/-- The pair of bytes an update adds, as the statements speak of it, in the terms of `addByte_reach`. -/
theorem not_both_outByteBacked {i j : Nat} (h : backs s.platform (addrAt s.args.outAddr i).toNat = false ∨
    backs s.platform (addrAt s.args.outAddr j).toNat = false) : ¬ (outByteBacked s i ∧ outByteBacked s j) := by
  rintro ⟨hi, hj⟩
  rcases h with h | h
  · exact Bool.noConfusion (hi.symm.trans h)
  · exact Bool.noConfusion (hj.symm.trans h)

theorem hdeltaCore_unbacked {x : Nat} (hd : 0 < s.args.depth.toNat) (hge : s.args.depth.toNat ≤ x)
    (hlt : x < min s.args.stride.toNat s.unrleLen.toNat)
    (hb : ¬ (outByteBacked s x ∧ outByteBacked s (x - s.args.depth.toNat))) :
    hdeltaCore s = .stop .engineOutsideHostMemory :=
  stop_of_reach (hdeltaCore_reach s hd) fun h => hb (h x hge hlt)

theorem vdeltaCore_unbacked {x : Nat} (hge : s.args.stride.toNat ≤ x)
    (hlt : x < min (s.args.height.toNat * s.args.stride.toNat) s.unrleLen.toNat)
    (hb : ¬ (outByteBacked s x ∧ outByteBacked s (x - s.args.stride.toNat))) :
    vdeltaCore s = .stop .engineOutsideHostMemory :=
  stop_of_reach (vdeltaCore_reach s) fun h => hb (h x hge hlt)

/-- UNRLE that completes with Success is its expander run to the end: a code raised is never Success. -/
theorem unrleCore_of_success (ha : unrleAllowed s) (h : exec .unrle s = .next t) (hc : t.status.code = .success) :
    ∃ u, unrleCore s = .ok () u ∧ t = complete .success u := by
  rw [exec_unrle ha] at h
  cases hcore : unrleCore s with
  | ok a u => rw [hcore] at h; cases h; exact ⟨u, rfl, rfl⟩
  | fail c u =>
    rw [hcore] at h
    cases h
    rcases ((unrleCore_sat s).of_fail hcore).1 with rfl | rfl <;> cases hc
  | stop f => rw [hcore] at h; cases h

/-- Behind a good expansion whose length passes, DECODE goes on to Step 1 and stops there (R210). -/
theorem decodeCore_out_unbacked (ha : unrleAllowed s) (h : exec .unrle s = .next t) (hc : t.status.code = .success)
    (ho : outputAllowed t) (hb : ¬ outBacked t) : decodeCore s = .stop .engineOutsideHostMemory := by
  obtain ⟨u, hu, rfl⟩ := unrleCore_of_success ha h hc
  rw [decodeCore, hu, andThen_ok, checked_none ((lengthTests_none (s := u)).2 ⟨ho.capacity, ho.length⟩)]
  exact undeltaCore_unbacked ho.length hb

/-- Settles O31, one clause for each kind of byte out of reach. -/
theorem unbackedAccessHasNoStep : Obligations.UnbackedAccessHasNoStep := by
  intro s
  refine ⟨fun h0 hb => ⟨exec_getBit_unbacked h0 hb, exec_getGamma_unbacked h0 hb⟩, fun ha h0 hb => ?command, ?copy,
    fun ho hb => ?out, fun ho ⟨x, hge, hlt, hx⟩ => ?row, fun ho ⟨x, hge, hlt, hx⟩ => ?rows,
    fun u ha hu hc ho hb => ?decode⟩
  case command =>
    have hcore := unrleCore_unbacked h0 hb
    exact ⟨exec_unrle_stop ha hcore, fun hd => exec_decode_stop hd (by rw [decodeCore, hcore, andThen_stop])⟩
  case copy =>
    intro flag total runs r ha hc hd hpos hr hsum ht hcap hdata hbits hflag hb
    exact exec_unrle_stop ha (unrleCore_copy_unbacked ha hc hd hpos hr hsum ht hcap hdata hbits hflag hb)
  case out =>
    rw [exec_regroup ho, exec_undelta ho, regroupCore_unbacked ho.length hb, undeltaCore_unbacked ho.length hb]
    exact ⟨rfl, rfl⟩
  case row => rw [exec_hdelta ho, hdeltaCore_unbacked ho.depth.1 hge hlt (not_both_outByteBacked hx), finish_stop]
  case rows => rw [exec_vdelta ho, vdeltaCore_unbacked hge hlt (not_both_outByteBacked hx), finish_stop]
  case decode => exact exec_decode_stop ha (decodeCore_out_unbacked ha.unrle hu hc ho hb)

end Sys2Proof.Machine
end

section
/-! SUPPORT. The Host's writes and loads of host bytes, beside the command in progress and between two commands
(spec/20_memory.md R61, R63, R71, R75): what a store notes, what a load sees, and what completion settles. -/

namespace Sys2Proof.Machine

variable {s t : State}

/-! ### The pending command and what it may write -/

theorem decodeWord_encode (i : Instr) : decodeWord (encode i) = .ok i := by cases i <;> decide

/-- A word is its two fields (R80). -/
theorem rsvField_append_opField (w : Word) : rsvField w ++ opField w = w := by
  ext i hi
  rw [BitVec.getElem_append]
  split
  · rw [opField, BitVec.getElem_extractLsb', Nat.zero_add, BitVec.getLsbD_eq_getElem]
  · simp [rsvField, BitVec.getLsbD_eq_getElem hi, show 8 + (i - 8) = i by omega]

theorem opcode_of_lookup {op : Byte} {i : Instr} (h : opcodeMap.lookup op = some i) : op = opcode i := by
  revert op
  cases i <;> decide

/-- A word that decodes is the encoding of its command: RSV is 0 and OP is the command's opcode (R82). -/
theorem eq_encode_of_decodeWord {w : Word} {i : Instr} (h : decodeWord w = .ok i) : w = encode i := by
  unfold decodeWord at h
  split at h
  · rename_i hrsv
    split at h
    · rename_i hop
      cases h
      rw [← rsvField_append_opField w, hrsv, opcode_of_lookup hop, encode]
    · cases h
  · cases h

theorem pendingReach_encode {i : Instr} (hp : s.pending = some (encode i)) : pendingReach s = outReach i s := by
  rw [pendingReach, hp]
  simp only [decodeWord_encode]

/-- What the pending word may write is what a command that encodes to it may write: an illegal word writes nothing
(R82). -/
theorem inRegion_pendingReach (s : State) (a : Word) :
    inRegion s.args.outAddr (pendingReach s).1 a.toNat = true ↔
      ∃ i, s.pending = some (encode i) ∧ ∃ k < (outReach i s).1, a = addrAt s.args.outAddr k := by
  constructor
  · intro h
    have hpos : (pendingReach s).1 ≠ 0 := fun h0 => by
      simp only [inRegion, h0, Bool.and_eq_true, decide_eq_true_eq] at h
      omega
    cases hp : s.pending with
    | none => simp [pendingReach, hp] at hpos
    | some w =>
      cases hd : decodeWord w with
      | error e => simp [pendingReach, hp, hd] at hpos
      | ok i =>
        obtain rfl := eq_encode_of_decodeWord hd
        rw [pendingReach_encode hp, inRegion_outReach] at h
        exact ⟨i, rfl, h⟩
  · rintro ⟨i, hp, h⟩
    rw [pendingReach_encode hp, inRegion_outReach]
    exact h

/-! ### Completion -/

theorem engineStep_completes {i : Instr} (hp : s.pending = some (encode i)) (he : exec i s = .next t) :
    engineStep s = .next (settle i s t) := by
  simp only [engineStep, hp, decodeWord_encode, he]

theorem settle_untouched {i : Instr} (h : ∀ a ∈ s.raced, touches i s t a = false) : settle i s t = endRace t := by
  rw [settle, if_neg]
  simpa using h

/-- Settles O7: what clobbering can reach is `settle_kept`, what becomes unstable is `mem_latchWrites`. -/
theorem raceSettlesAtCompletion : Obligations.RaceSettlesAtCompletion := by
  intro s t i hn hp he
  obtain ⟨hargs, -, -, -, -, hraced⟩ := commandsKeepHostRegisters i s.takeInput t he
  obtain ⟨hframe, -, houtside⟩ := settle_kept i s.takeInput t
  rw [hargs] at houtside
  refine ⟨settle i s.takeInput t, ?_, ?_, fun b => ?_, houtside, outReach_of_next he, fun h => ?_⟩
  · rw [step_engine hn, engineStep_completes (s := s.takeInput) hp he]
  · rw [hframe]
    rfl
  · rw [hframe, ← mayBeLatched_iff, ← takeInput_raced s, ← hraced]
    exact mem_latchWrites t.raced t
  · rw [settle_untouched h, endRace_mem]

/-! ### The Host's byte accesses -/

theorem byteAt_setMem_self (hw : Memory.wf s.mem = true) (a : Word) (v : Byte) :
    (setMem (Memory.write s.mem a.toNat v) s).byteAt a = v := by
  rw [byteAt_setMem hw, if_pos rfl]

/-- While not busy a store leaves the byte, and may leave it unstable (R71 item 1, R75). -/
theorem step_memStore_idle {a : Word} {v : Byte} {rest : List Input} (hi : s.status.busy = false)
    (hb : backs s.platform a.toNat = true) (hblock : 256 ≤ (a - s.platform.blockBase).toNat)
    (h : s.inputs = .memStore a v :: rest) :
    step s = .next (latchWrites [a.toNat] (setMem (Memory.write s.mem a.toNat v) { s with inputs := rest })) := by
  rw [step_memStore h, tail_of h, hostMemStore_backed (s := { s with inputs := rest }) hb hblock,
    noteHostWrite_idle (s := setMem _ { s with inputs := rest }) hi]

/-- While busy a store leaves the byte and is noted as a race (R71 item 3). -/
theorem step_memStore_busy {a : Word} {v : Byte} {rest : List Input} (hbusy : s.status.busy = true)
    (hb : backs s.platform a.toNat = true) (hblock : 256 ≤ (a - s.platform.blockBase).toNat)
    (h : s.inputs = .memStore a v :: rest) :
    step s = .next { setMem (Memory.write s.mem a.toNat v) s with
      raced := addOnce a.toNat s.raced, inputs := rest } := by
  rw [step_memStore h, tail_of h, hostMemStore_backed (s := { s with inputs := rest }) hb hblock,
    noteHostWrite_busy (s := setMem _ { s with inputs := rest }) hbusy]
  rfl

/-- While not busy a load shows the byte (R61). -/
theorem step_memLoad_idle {a : Word} {rest : List Input} (hi : s.status.busy = false)
    (hb : backs s.platform a.toNat = true) (hblock : 256 ≤ (a - s.platform.blockBase).toNat)
    (h : s.inputs = .memLoad a :: rest) :
    step s = .next (observe ((s.byteAt a).zeroExtend 32) { s with inputs := rest }) := by
  rw [step_memLoad h, tail_of h]
  exact hostMemLoad_idle (s := { s with inputs := rest }) hb hblock hi

/-- While busy a load of a byte the pending command may write draws a free value (R71 item 3). -/
theorem step_memLoad_busy {a : Word} {rest : List Input} (hbusy : s.status.busy = true)
    (hb : backs s.platform a.toNat = true) (hblock : 256 ≤ (a - s.platform.blockBase).toNat)
    (h : s.inputs = .memLoad a :: rest) :
    step s = .next (if inRegion s.args.outAddr (pendingReach s.takeInput).1 a.toNat then
      observe ((Config.busyByte s.draws).zeroExtend 32) (drawOne { s with inputs := rest })
      else observe ((s.byteAt a).zeroExtend 32) { s with inputs := rest }) := by
  rw [step_memLoad h, tail_of h]
  exact hostMemLoad_busy (s := { s with inputs := rest }) hb hblock hbusy

/-- Settles O16: the two steps in turn, with the word the load shows and what the store made unstable. -/
theorem hostByteStoreThenLoad : Obligations.HostByteStoreThenLoad := by
  intro s a v rest hw hi hb hblock h
  have hread := byteAt_setMem_self hw a v
  refine ⟨_, _, step_memStore_idle hi hb hblock h, step_memLoad_idle hi hb hblock rfl, ?_, rfl,
    hread, fun b hne => byteAt_setMem_ne hne v, rfl, fun b => ?_⟩
  · exact congrArg (fun w : Byte => s.observed ++ [w.zeroExtend 32]) hread
  · rw [← mayBeLatched_iff, ← List.mem_singleton]
    exact mem_latchWrites [a.toNat] (setMem (Memory.write s.mem a.toNat v) s)

/-- Settles O17: whether a load shows the byte is `inRegion_pendingReach`. -/
theorem hostByteAccessWhileBusy : Obligations.HostByteAccessWhileBusy := by
  intro s a rest hbusy hb hblock
  refine ⟨fun v hw h => ?store, fun h => ⟨fun hfree => ?outside, fun i k hp hk ha => ?inside⟩⟩
  case store =>
    exact ⟨_, step_memStore_busy hbusy hb hblock h, rfl, byteAt_setMem_self hw a v,
      fun b hne => byteAt_setMem_ne hne v, fun b => mem_addOnce⟩
  case outside =>
    have hout : ¬ inRegion s.args.outAddr (pendingReach s.takeInput).1 a.toNat = true := by
      intro hin
      obtain ⟨i, hp, k, hk, ha⟩ := (inRegion_pendingReach s.takeInput a).1 hin
      exact hfree i hp k hk ha
    rw [step_memLoad_busy hbusy hb hblock h, if_neg hout]
    rfl
  case inside =>
    have hin : inRegion s.args.outAddr (pendingReach s.takeInput).1 a.toNat = true :=
      (inRegion_pendingReach s.takeInput a).2 ⟨i, hp, k, hk, ha⟩
    exact ⟨Config.busyByte s.draws, by rw [step_memLoad_busy hbusy hb hblock h, if_pos hin]; rfl⟩

end Sys2Proof.Machine
end

section
/-! SUPPORT. The command word (spec/30_encoding.md R80 to R82): its fields, which words decode, which are legal, and the
Engine's turn on an illegal one. -/

namespace Sys2Proof.Machine

variable {s : State} {w : Word}

/-! ### The fields of an encoded command -/

@[simp] theorem rsvField_encode (i : Instr) : rsvField (encode i) = 0#24 := BitVec.extractLsb'_append_eq_left

@[simp] theorem opField_encode (i : Instr) : opField (encode i) = opcode i := BitVec.extractLsb'_append_eq_right

/-- A word is a command's encoding by its two fields (R80). -/
theorem eq_encode_iff {i : Instr} : w = encode i ↔ rsvField w = 0#24 ∧ opField w = opcode i := by
  constructor
  · rintro rfl
    exact ⟨rsvField_encode i, opField_encode i⟩
  · rintro ⟨hrsv, hop⟩
    rw [← rsvField_append_opField w, hrsv, hop, encode]

/-! ### Which words decode -/

/-- The decoder inverts the encoder on its whole range, and accepts nothing else (R82). -/
theorem decodeWord_eq_ok_iff {i : Instr} : decodeWord w = .ok i ↔ w = encode i :=
  ⟨eq_encode_of_decodeWord, fun h => h ▸ decodeWord_encode i⟩

/-- The opcodes listed in WellFormed are those the encoder writes (R81). -/
theorem mem_definedOpcodes_iff {op : Byte} : op ∈ definedOpcodes ↔ ∃ i, op = opcode i := by
  constructor
  · intro h
    simp only [definedOpcodes, List.mem_cons, List.not_mem_nil, or_false] at h
    rcases h with h | h | h | h | h | h | h | h | h | h | h | h | h
    exacts [⟨.nop, h⟩, ⟨.curInit, h⟩, ⟨.getBit, h⟩, ⟨.getGamma, h⟩, ⟨.unrle, h⟩, ⟨.scratchRead, h⟩, ⟨.unpackValue, h⟩,
      ⟨.tableRead, h⟩, ⟨.regroup, h⟩, ⟨.hdelta, h⟩, ⟨.vdelta, h⟩, ⟨.undeltafilter, h⟩, ⟨.decode, h⟩]
  · rintro ⟨i, rfl⟩
    cases i <;> decide

/-- The gaps between the listed opcodes (R82). -/
theorem notMem_definedOpcodes_iff {op : Byte} :
    op ∉ definedOpcodes ↔ 0x04 ≤ op.toNat ∧ op.toNat ≤ 0x0F ∨ 0x12 ≤ op.toNat ∧ op.toNat ≤ 0x1F ∨
      0x26 ≤ op.toNat ∧ op.toNat ≤ 0x2F ∨ 0x31 ≤ op.toNat := by
  simp only [definedOpcodes, List.mem_cons, List.not_mem_nil, or_false, ← BitVec.toNat_inj, BitVec.toNat_ofNat]
  omega

theorem legalCommandWord_iff : legalCommandWord w = true ↔ rsvField w = 0#24 ∧ opField w ∈ definedOpcodes := by
  simp [legalCommandWord, rsvField, opField]

theorem legalCommandWord_false_iff :
    legalCommandWord w = false ↔ rsvField w ≠ 0#24 ∨ opField w ∉ definedOpcodes := by
  rw [← Bool.not_eq_true, legalCommandWord_iff, not_and_or]

/-- The words that decode are the legal ones (R82). -/
theorem decodeWord_ok_iff_legal : (∃ i, decodeWord w = .ok i) ↔ legalCommandWord w = true := by
  simp only [decodeWord_eq_ok_iff, eq_encode_iff, exists_and_left, ← mem_definedOpcodes_iff, legalCommandWord_iff]

/-- The decoder is total, so the words it refuses are the illegal ones (R82). -/
theorem decodeWord_error_iff_illegal : (∃ e, decodeWord w = .error e) ↔ legalCommandWord w = false := by
  rw [← Bool.not_eq_true, ← decodeWord_ok_iff_legal]
  cases decodeWord w <;> simp

/-- Settles O3: the decoder accepts the encodings (`decodeWord_eq_ok_iff`) and refuses the illegal words
(`decodeWord_error_iff_illegal`). -/
theorem decodeAcceptsOnlyEncodings : Obligations.DecodeAcceptsOnlyEncodings := fun _ =>
  ⟨fun _ => decodeWord_eq_ok_iff, decodeWord_error_iff_illegal, legalCommandWord_false_iff⟩

/-- Settles O1: each of the thirteen words is its command's encoding. -/
theorem opcodeMapDecodes : Obligations.OpcodeMapDecodes :=
  ⟨decodeWord_encode .nop, decodeWord_encode .curInit, decodeWord_encode .getBit, decodeWord_encode .getGamma,
    decodeWord_encode .unrle, decodeWord_encode .scratchRead, decodeWord_encode .unpackValue,
    decodeWord_encode .tableRead, decodeWord_encode .regroup, decodeWord_encode .hdelta, decodeWord_encode .vdelta,
    decodeWord_encode .undeltafilter, decodeWord_encode .decode⟩

/-- Settles O2. -/
theorem encodedCommandsDecode : Obligations.EncodedCommandsDecode := fun i =>
  ⟨rsvField_encode i, decodeWord_encode i⟩

/-! ### An illegal word -/

/-- The Engine's turn on an illegal word completes it with IllegalCommand and ends its races (R82). -/
theorem engineStep_illegal (hp : s.pending = some w) (hw : legalCommandWord w = false) :
    engineStep s = .next (endRace (complete .illegalCommand s)) := by
  obtain ⟨e, he⟩ := decodeWord_error_iff_illegal.2 hw
  simp only [engineStep, hp, he, execIllegal]

/-- Settles O4: what becomes unstable is what `endRace` latches of the raced bytes (`mem_latchWrites`). -/
theorem illegalWordCompletes : Obligations.IllegalWordCompletes := by
  intro w
  refine ⟨fun i => decodeWord_eq_ok_iff.trans eq_encode_iff, decodeWord_ok_iff_legal, ?illegal,
    fun s hn hp hw =>
    ⟨(latchWrites s.raced (complete .illegalCommand s.takeInput)).unstable, ?step, fun b => ?unstable⟩⟩
  case illegal => rw [legalCommandWord_false_iff, notMem_definedOpcodes_iff]
  case step =>
    rw [step_engine hn, engineStep_illegal (s := s.takeInput) hp hw]
    rfl
  case unstable =>
    rw [← mayBeLatched_iff]
    exact mem_latchWrites s.raced (complete .illegalCommand s.takeInput)

end Sys2Proof.Machine
end

section
/-! SUPPORT. Host programs (spec/30_encoding.md R94, R95): what a turn of the WAIT loop does, and the registers and
commands of a program as the numbers of spec/10_state.md R22 and spec/30_encoding.md R81. -/

namespace Sys2Proof.Machine

variable {s : State}

/-! ### WAIT -/

theorem hostPoll_idle (hb : s.status.busy = false) : hostPoll s = observe (statusWord s.status) s := by
  rw [hostPoll, hb, if_neg Bool.false_ne_true, loadRegister_shown rfl, registerWord]

theorem hostPoll_busy (hb : s.status.busy = true) :
    hostPoll s = { observe (statusWord s.status) s with inputs := .engine :: .poll :: s.inputs } := by
  rw [hostPoll, hb, if_pos rfl, loadRegister_shown rfl, registerWord]

/-- Settles O14. -/
theorem waitPollsStatus : Obligations.WaitPollsStatus := by
  intro s rest h
  rw [step_poll h, tail_of h]
  constructor
  · intro hb
    rw [hostPoll_idle (s := { s with inputs := rest }) hb]
    rfl
  · intro hb
    rw [hostPoll_busy (s := { s with inputs := rest }) hb]
    rfl

/-! ### The encoding of a program -/

theorem encodeProgram_append (base : Word) (p q : List HostInstr) :
    encodeProgram base (p ++ q) = encodeProgram base p ++ encodeProgram base q := List.map_append

/-- The registers of R22 with their offsets as words. -/
def offsetTable : List (RegName × Word) := registers.map fun r => (r, BitVec.ofNat 32 r.offset)

theorem eq_offset_of_mem {r : RegName} {offset : Word} (h : (r, offset) ∈ offsetTable) :
    offset = BitVec.ofNat 32 r.offset := by
  obtain ⟨q, -, hq⟩ := List.mem_map.1 h
  cases hq
  rfl

/-- The commands of R81 with the words of R80. -/
def wordTable : List (Instr × Word) := opcodeMap.map fun row => (row.2, encode row.2)

theorem eq_encode_of_mem {i : Instr} {w : Word} (h : (i, w) ∈ wordTable) : w = encode i := by
  obtain ⟨row, -, hrow⟩ := List.mem_map.1 h
  cases hrow
  rfl

/-- Settles O15: the tables of numbers in the statement are `offsetTable` and `wordTable`, by evaluation. -/
theorem hostProgramEncoding : Obligations.HostProgramEncoding := by
  intro base v p q
  refine ⟨encodeProgram_append base p q, fun r offset h => ?registers, fun i w h => ?commands, rfl, rfl⟩
  case registers =>
    rw [eq_offset_of_mem h]
    exact ⟨rfl, rfl⟩
  case commands =>
    rw [eq_encode_of_mem h]
    rfl

end Sys2Proof.Machine
end

section
/-! SUPPORT. REGROUP on a plane whose bytes are ready (spec/42_deinterleave.md R177, spec/30_encoding.md R92). -/

namespace Sys2Proof.Machine

variable {s t : State}

/-- A step that changes host memory only, completed: of the rest STATUS and the pending command alone differ (R238). -/
theorem outOnly.complete (h : outOnly s t) (c : Code) :
    complete c t = { s with mem := t.mem, status := ⟨false, true, c⟩, pending := none } :=
  congrArg (Machine.complete c) h.1

/-- Settles O51: the bytes are `regroupCore_out`, and as bit pairs `regrouped_eq`. -/
theorem regroupResult : Obligations.RegroupResult := by
  intro s ha hr
  obtain ⟨u, hu, ho, hbytes⟩ := regroupCore_out hr ha.length
  refine ⟨complete .success u, ?_, ho.complete .success, fun i hi => ?_, ho.2.2⟩
  · rw [exec_regroup ha, hu, finish_ok]
  · have hlt := s.unrleLen.isLt
    calc (complete .success u).outByte i = u.outByte i := rfl
      _ = regrouped s i := by rw [hbytes i (by omega), if_pos hi]
      _ = regroupedByte (scratchAt s) s.unrleLen.toNat i := regrouped_eq s i

end Sys2Proof.Machine
end

section
/-! SUPPORT. The BitReader and the Elias-gamma decoder as commands (spec/40_bitreader.md): NOP, the three ways CUR_INIT
completes, what GET_BIT gives at each position of a cursor's region and behind its end, and GET_GAMMA on codes. -/

namespace Sys2Proof.Machine

variable {s t : State}

/-! ### NOP and CUR_INIT -/

/-- Settles O32. -/
theorem nopCompletes : Obligations.NopCompletes := ⟨rfl, fun s => exec_eq .nop s⟩

/-- The tests of CUR_INIT in their order, as numbers (R113). -/
theorem firstFailure_curInitTests (s : State) :
    firstFailure (curInitTests s) =
      if s.args.cmdAddr = 0#32 then some .cmdBufferIsNull
      else if 4294967296 < s.args.cmdAddr.toNat + s.args.cmdLen.toNat then some .addressRange else none := by
  simp only [curInitTests, cmdNullTest, cmdRangeTest, firstFailure_cons, firstFailure_nil, beq_iff_eq,
    Bool.not_eq_true', ← Bool.not_eq_true, addrOK_iff, Nat.not_le, Config.addressCount]

theorem exec_curInit_raises {c : Code} (h : firstFailure (curInitTests s) = some c) :
    exec .curInit s = .next (complete c (latchCursor s)) := by
  rw [exec_eq, commandBody, checked_some h, latching_fail, finish_fail]

theorem exec_curInit_starts (h : firstFailure (curInitTests s) = none) :
    exec .curInit s = .next (complete .success (latchCursor (startCursor s))) := by
  rw [exec_eq, commandBody, checked_none h, latching_ok, finish_ok]

/-- Settles O33, one clause for each value of `firstFailure_curInitTests`. -/
theorem curInitStartsCursor : Obligations.CurInitStartsCursor := by
  refine ⟨rfl, fun s => ⟨fun h0 => ?null, fun h0 hlt => ?range, fun h0 hle => ?fresh⟩⟩
  case null => exact exec_curInit_raises (by rw [firstFailure_curInitTests, if_pos h0])
  case range => exact exec_curInit_raises (by rw [firstFailure_curInitTests, if_neg h0, if_pos hlt])
  case fresh => exact exec_curInit_starts (by rw [firstFailure_curInitTests, if_neg h0, if_neg (Nat.not_lt.2 hle)])

/-! ### GET_BIT -/

/-- A bit as RESULT shows it (R114). -/
def bitWord (b : Bool) : Word := if b then 1#32 else 0#32

theorem zeroExtend_ofBool (b : Bool) : (BitVec.ofBool b).zeroExtend 32 = bitWord b := by cases b <;> rfl

/-- GET_BIT completed: the bit in RESULT and the cursor at `c` (R114). -/
def afterBit (b : Bool) (c : Cursor) (s : State) : State :=
  complete .success (latchCursor (setResult (bitWord b) (setCursor c s)))

@[simp] theorem afterBit_cur (b : Bool) (c : Cursor) (s : State) : (afterBit b c s).cur = c := rfl
@[simp] theorem afterBit_result (b : Bool) (c : Cursor) (s : State) : (afterBit b c s).result = bitWord b := rfl
@[simp] theorem afterBit_afterBit (a b : Bool) (c d : Cursor) (s : State) :
    afterBit b d (afterBit a c s) = afterBit b d s := rfl

theorem exec_getBit_of_ok {b : Bool} {c : Cursor} (h : getBit s = .ok b (setCursor c t)) :
    exec .getBit s = .next (afterBit b c t) := by
  rw [exec_eq, commandBody, h, andThen_ok, latching_ok, finish_ok, zeroExtend_ofBool, afterBit]

/-- The cursor's byte, where the platform backs it: exact unless the Host wrote it when it must not, else a free value
(R71 item 3, R75). -/
theorem cursorRead_backed (hb : backs s.platform s.cur.addr.toNat = true) :
    ∃ v d, cursorRead s = .ok v { s with draws := d } ∧
      (s.cur.addr.toNat ∉ s.raced ++ s.unstable → d = s.draws ∧ v = s.byteAt s.cur.addr) := by
  by_cases hu : s.cur.addr.toNat ∈ s.raced ++ s.unstable
  · refine ⟨Config.unsettledByte s.draws, s.draws + 1, ?_, fun hn => absurd hu hn⟩
    rw [cursorRead, readByte, if_pos hb, if_pos (List.contains_iff_mem.2 hu)]
    rfl
  · exact ⟨s.byteAt s.cur.addr, s.draws, readByte_settled hb hu, fun _ => ⟨rfl, rfl⟩⟩

/-- Settles O34: the terminal 1 is `getBit_empty`; else the byte is what `cursorRead_backed` says. -/
theorem getBitReadsCursor : Obligations.GetBitReadsCursor := by
  refine ⟨rfl, fun s => ⟨fun h0 => exec_getBit_of_ok (getBit_empty h0), fun h0 hb => ?_⟩⟩
  obtain ⟨v, d, hread, hsettled⟩ := cursorRead_backed hb
  have hbit : getBit s =
      .ok (v.getLsbD s.cur.bit.toNat) (setCursor (advancedCursor s.cur) { s with draws := d }) := by
    rw [getBit, if_neg h0, hread, andThen_ok]
  refine ⟨v.getLsbD s.cur.bit.toNat, d, exec_getBit_of_ok hbit, fun hu => ?_⟩
  obtain ⟨hd, hv⟩ := hsettled hu
  exact ⟨hd, by rw [hv]⟩

/-! ### GET_BIT again and again -/

/-- Bit `n` ahead of the cursor as GET_BIT delivers it: behind the region's end, the terminal 1 (R110). -/
def deliveredBit (s : State) (n : Nat) : Bool :=
  if n < bitsLeft s.cur then s.streamBit (s.cur.bit.toNat + n) else true

/-- The cursor after `n` calls of GET_BIT: it moves on within its region, and the first call behind the end spends it
(R110). -/
def reachedCursor (c : Cursor) (n : Nat) : Cursor := if n ≤ bitsLeft c then cursorAfter c n else spentCursor c

theorem reachedCursor_le {c : Cursor} {n : Nat} (h : n ≤ bitsLeft c) : reachedCursor c n = cursorAfter c n := if_pos h

theorem reachedCursor_gt {c : Cursor} {n : Nat} (h : bitsLeft c < n) : reachedCursor c n = spentCursor c :=
  if_neg (Nat.not_le.2 h)

@[simp] theorem bitsLeft_spentCursor (c : Cursor) : bitsLeft (spentCursor c) = 0 := bitsLeft_zero (spentCursor_rem c)

theorem bitsLeft_reachedCursor (c : Cursor) (n : Nat) : bitsLeft (reachedCursor c n) = bitsLeft c - n := by
  by_cases h : n ≤ bitsLeft c
  · rw [reachedCursor_le h, bitsLeft_cursorAfter]
  · rw [reachedCursor_gt (Nat.not_le.1 h), bitsLeft_spentCursor]
    omega

theorem spentCursor_of_empty {c : Cursor} (h : bitsLeft c = 0) : spentCursor c = exhaustedCursor c := by
  rw [spentCursor, h, cursorAfter_zero]

theorem spentCursor_spentCursor (c : Cursor) : spentCursor (spentCursor c) = spentCursor c :=
  spentCursor_of_empty (bitsLeft_spentCursor c)

theorem spentCursor_cursorAfter {c : Cursor} {n : Nat} (h : n ≤ bitsLeft c) :
    spentCursor (cursorAfter c n) = spentCursor c := by
  rw [spentCursor, bitsLeft_cursorAfter, cursorAfter_add, Nat.add_sub_cancel' h, spentCursor]

/-- One call more. -/
theorem reachedCursor_succ (c : Cursor) (n : Nat) : reachedCursor (reachedCursor c n) 1 = reachedCursor c (n + 1) := by
  rcases Nat.lt_trichotomy n (bitsLeft c) with hlt | heq | hgt
  · rw [reachedCursor_le (show n ≤ bitsLeft c by omega), reachedCursor_le (by rw [bitsLeft_cursorAfter]; omega),
      cursorAfter_add, reachedCursor_le hlt]
  · rw [reachedCursor_le heq.le, reachedCursor_gt (by rw [bitsLeft_cursorAfter]; omega),
      spentCursor_cursorAfter heq.le, reachedCursor_gt (by omega)]
  · rw [reachedCursor_gt hgt, reachedCursor_gt (by rw [bitsLeft_spentCursor]; omega), spentCursor_spentCursor,
      reachedCursor_gt (by omega)]

/-- One bit of a ready cursor, whether or not a byte is left (R110). -/
theorem getBit_ready (h : cursorReady s) : getBit s = .ok (deliveredBit s 0) (setCursor (reachedCursor s.cur 1) s) := by
  by_cases h0 : s.cur.rem = 0#32
  · have hl := bitsLeft_zero h0
    rw [getBit_spent h0, deliveredBit, if_neg (by omega), reachedCursor_gt (by omega), ranOut]
  · have hl := bitsLeft_pos h0
    rw [deliveredBit, if_pos hl, reachedCursor_le hl]
    exact getBit_ahead (l := []) h ⟨hl, fun i hi => by obtain rfl : i = 0 := Nat.lt_one_iff.1 hi; rfl⟩

theorem exec_getBit_ready (h : cursorReady s) :
    exec .getBit s = .next (afterBit (deliveredBit s 0) (reachedCursor s.cur 1) s) :=
  exec_getBit_of_ok (getBit_ready h)

/-- Readiness is about the cursor's bytes, and GET_BIT writes none of them. -/
theorem cursorReady_afterBit (h : cursorReady s) (b : Bool) (n : Nat) :
    cursorReady (afterBit b (reachedCursor s.cur n) s) := by
  have hmoved : cursorReady (setCursor (reachedCursor s.cur n) s) := by
    by_cases hn : n ≤ bitsLeft s.cur
    · rw [reachedCursor_le hn]
      exact cursorReady_movedOn h hn
    · rw [reachedCursor_gt (Nat.not_le.1 hn)]
      exact cursorReady_ranOut h
  exact ⟨hmoved.duty, hmoved.backed, hmoved.ok⟩

/-- The next bit after `n` calls is bit `n` ahead before them. -/
theorem deliveredBit_afterBit (s : State) (b : Bool) (n : Nat) :
    deliveredBit (afterBit b (reachedCursor s.cur n) s) 0 = deliveredBit s n := by
  unfold deliveredBit
  rw [afterBit_cur, bitsLeft_reachedCursor]
  by_cases hn : n < bitsLeft s.cur
  · rw [if_pos (by omega), if_pos hn, reachedCursor_le hn.le]
    exact streamBit_movedOn s n 0
  · rw [if_neg (by omega), if_neg hn]

/-- GET_BIT performed `n + 1` times: only the last bit and the cursor reached remain (R110, R116). -/
theorem repeat_getBit (h : cursorReady s) : ∀ n : Nat,
    repeatCommand .getBit (n + 1) s = .next (afterBit (deliveredBit s n) (reachedCursor s.cur (n + 1)) s)
  | 0 => by rw [repeat_succ .getBit 0 s s rfl, exec_getBit_ready h]
  | n + 1 => by
    rw [repeat_succ .getBit (n + 1) s _ (repeat_getBit h n), exec_getBit_ready (cursorReady_afterBit h _ (n + 1)),
      deliveredBit_afterBit, afterBit_cur, reachedCursor_succ, afterBit_afterBit]

/-- Settles O35: a fresh cursor over N bytes has 8N bits left, and bit `n` ahead of it is bit `n` of its region. -/
theorem cursorDeliversRegion : Obligations.CursorDeliversRegion := by
  intro s n hr hbit _
  have hleft : bitsLeft s.cur = 8 * s.cur.rem.toNat := by simp [bitsLeft, hbit]
  refine ⟨_, repeat_getBit hr n, fun hn => ?inside, fun hn => ?behind⟩
  case inside =>
    rw [afterBit_result, afterBit_cur, deliveredBit, if_pos (hleft ▸ hn), reachedCursor_le (hleft ▸ hn), hbit]
    exact ⟨by rw [bitWord, BitVec.toNat_zero, Nat.zero_add], rfl⟩
  case behind =>
    rw [afterBit_result, afterBit_cur, deliveredBit, if_neg (by omega), reachedCursor_gt (by omega), ← hleft]
    exact ⟨rfl, rfl⟩

/-! ### GET_GAMMA -/

theorem exec_getGamma_of_ok {w : Word} (h : getGamma s = .ok w t) :
    exec .getGamma s = .next (complete .success (latchCursor (setResult w t))) := by
  rw [exec_eq, commandBody, h, andThen_ok, latching_ok, finish_ok]

theorem bitsAhead_append_nil {code : List Bool} (h : s.bitsAhead code) : s.bitsAhead (code ++ []) := by
  rwa [List.append_nil]

/-- Settles O36, by `getGamma_code`. -/
theorem gammaCodeRoundTrip : Obligations.GammaCodeRoundTrip := by
  intro s v h1 hv hr hx ha
  obtain ⟨hg, -⟩ := getGamma_code hr hx (v := v) (by omega) (by omega) (bitsAhead_append_nil ha)
  rw [gammaCode_length] at hg
  exact exec_getGamma_of_ok hg

/-- A spent cursor stands at the end of its region (R36, R110). -/
theorem spentCursor_eq {c : Cursor} (h : cursorOk c) :
    spentCursor c = ⟨addrAt c.addr c.rem.toNat, 0#32, 0#3, true⟩ := by
  obtain ⟨-, hbit, -⟩ := h
  have hend : c.bit.toNat + bitsLeft c = 8 * c.rem.toNat := by
    unfold bitsLeft
    by_cases h0 : c.rem = 0#32
    · simp [h0, hbit h0]
    · have := word_ne_zero h0
      have := bit_le c.bit
      omega
  simp [spentCursor, exhaustedCursor, cursorAfter, hend]

/-- Settles O37, by `getGamma_short`. -/
theorem truncatedCodeIsInvalid : Obligations.TruncatedCodeIsInvalid := by
  intro s v _ hr hlt ha
  have hg := getGamma_short hr hlt ha
  rw [ranOut, spentCursor_eq hr.ok] at hg
  exact exec_getGamma_of_ok hg

/-- A cursor with a bit ahead is not exhausted (R36). -/
theorem exh_false_of_bitsLeft {c : Cursor} (h : cursorOk c) (hpos : 0 < bitsLeft c) : c.exh = false := by
  obtain ⟨hrem, -, -⟩ := h
  rw [← Bool.not_eq_true]
  intro hx
  rw [bitsLeft_zero (hrem hx)] at hpos
  exact absurd hpos (Nat.lt_irrefl 0)

/-- Settles O38: such a code is one of the `invalidCode`s, and `getGamma_invalid` consumes all of it. -/
theorem longPrefixIsInvalid : Obligations.LongPrefixIsInvalid := by
  intro s bits hlong hr ha
  have hlen : (List.replicate bits.length false ++ true :: bits).length = 2 * bits.length + 1 := by
    simp only [List.length_append, List.length_replicate, List.length_cons]
    omega
  have hahead := ha.1
  have hx := exh_false_of_bitsLeft hr.ok (show 0 < bitsLeft s.cur by omega)
  have hg := getGamma_invalid hr hx (.inr ⟨bits, hlong, rfl⟩) (bitsAhead_append_nil ha)
  rw [hlen] at hg
  exact exec_getGamma_of_ok hg

/-- A gamma decode that leaves the cursor exhausted gives INVALID, whatever it read (R111). -/
theorem getGamma_exhausted {w : Word} (h : getGamma s = .ok w t) (hx : t.cur.exh = true) :
    w = Config.gammaInvalid := by
  unfold getGamma at h
  cases hz : gammaZeros (8 * s.cur.rem.toNat + 1) 0 s with
  | fail c u => rw [hz] at h; cases h
  | stop f => rw [hz] at h; cases h
  | ok digits u =>
    rw [hz, andThen_ok] at h
    cases hb : gammaBits digits (2 ^ digits) u with
    | fail c v => rw [hb] at h; cases h
    | stop f => rw [hb] at h; cases h
    | ok value v =>
      rw [hb] at h
      cases h
      rw [gammaResult, if_pos hx]

/-- Settles O39: the decode never raises and stops only at an unbacked byte (`getGamma_kept`). -/
theorem getGammaCompletes : Obligations.GetGammaCompletes := by
  intro s hbacked
  have hsat := getGamma_kept s
  cases hg : getGamma s with
  | fail c t => exact (hsat.of_fail hg).elim
  | stop f =>
    obtain ⟨-, hunbacked⟩ := hsat.of_stop hg
    exact absurd hbacked hunbacked
  | ok w t =>
    obtain ⟨⟨hframe, -, -⟩, hw⟩ := hsat.of_ok hg
    refine ⟨w, t.cur, t.draws, ?_, getGamma_exhausted hg, hw⟩
    rw [exec_getGamma_of_ok hg, hframe]
    rfl

end Sys2Proof.Machine
end

section
/-! SUPPORT. The RunLengthExpander as a command (spec/41_unrle.md): UNRLE's checks, the ways UNRLE completes on a stream,
and SCRATCH_READ. -/

namespace Sys2Proof.Machine

variable {s t : State}

/-! ### UNRLE, its checks and its completion -/

/-- The first check of UNRLE that raises, where one does (R141). -/
theorem firstFailure_unrleTests (h : ¬ unrleAllowed s) :
    firstFailure (unrleTests s) = some (if s.args.dataAddr = 0#32 then .dataBufferIsNull
      else if s.args.cmdAddr = 0#32 then .cmdBufferIsNull else .addressRange) := by
  simp only [unrleTests, dataNullTest, cmdNullTest, dataRangeTest, cmdRangeTest, firstFailure_cons, firstFailure_nil,
    beq_iff_eq, Bool.not_eq_true', ← Bool.not_eq_true, addrOK_iff]
  by_cases hdata : s.args.dataAddr = 0#32
  · rw [if_pos hdata, if_pos hdata]
  by_cases hcmd : s.args.cmdAddr = 0#32
  · rw [if_neg hdata, if_neg hdata, if_pos hcmd, if_pos hcmd]
  rw [if_neg hdata, if_neg hdata, if_neg hcmd, if_neg hcmd]
  by_cases hrange : s.args.dataAddr.toNat + s.args.dataLen.toNat ≤ Config.addressCount
  · rw [if_neg (not_not.2 hrange), if_pos fun hrange' => h ⟨hdata, hcmd, hrange, hrange'⟩]
  · rw [if_pos hrange]

/-- Settles O40: the code is that of `firstFailure_unrleTests`, and nothing has run before it is raised. -/
theorem unrleChecksInOrder : Obligations.UnrleChecksInOrder := fun s h => by
  rw [exec_eq, commandBody, checked_some (firstFailure_unrleTests h), finish_fail, complete, completedStatus]

/-- An expander run to its end completes UNRLE with Success (R238). -/
theorem exec_unrle_of_ok (ha : unrleAllowed s) (h : unrleCore s = .ok () t) :
    exec .unrle s = .next (complete .success t) := by
  rw [exec_unrle ha, h, finish_ok]

/-- A code raised by the expander completes UNRLE with it (R238). -/
theorem exec_unrle_of_fail {c : Code} (ha : unrleAllowed s) (h : unrleCore s = .fail c t) :
    exec .unrle s = .next (complete c t) := by
  rw [exec_unrle ha, h, finish_fail]

/-- UNRLE's last check: the command region does not wrap (R62, R141). -/
theorem unrleAllowed.cmdAddrOK (ha : unrleAllowed s) : addrOK s.args.cmdAddr s.args.cmdLen = true :=
  (addrOK_iff _ _).2 ha.cmdRange

/-! ### A well-formed stream -/

/-- Settles O41, by `unrleCore_stream`. -/
theorem unrleExpandsStream : Obligations.UnrleExpandsStream := by
  intro s flag runs ha hc hd hpos h0 ht hcap hdata hbits
  rw [exec_unrle_of_ok ha (unrleCore_stream hc ha.cmdAddrOK hd hpos h0 ht hcap hdata hbits), afterRuns_eq]
  rfl

/-! ### Failing streams -/

/-- DATA_POS behind good runs, as a number. -/
theorem afterRuns_dataPos_toNat {flag : Bool} {total : Nat} {runs : List Nat}
    (h : copiedLength flag runs ≤ s.args.dataLen.toNat) :
    (afterRuns s flag total runs).dataPos.toNat = copiedLength flag runs :=
  ofNat_toNat_of_lt (by have := s.args.dataLen.isLt; omega)

/-- The code of one run more behind good runs: the cursor stands after the longer stream (R84). -/
theorem movedOn_afterRuns (s : State) (flag : Bool) (total : Nat) (runs : List Nat) (r : Nat) :
    movedOn (afterRuns s flag total runs) (gammaCode r).length =
      setCursor (cursorAfter ⟨s.args.cmdAddr, s.args.cmdLen, 0#3, false⟩
        (commandStream flag total (runs ++ [r])).length) (afterRuns s flag total runs) := by
  have hcur : (afterRuns s flag total runs).cur =
      cursorAfter ⟨s.args.cmdAddr, s.args.cmdLen, 0#3, false⟩ (commandStream flag total runs).length := rfl
  rw [movedOn, hcur, cursorAfter_add, commandStream_append, List.length_append, List.flatMap_singleton]

/-- The expander on good runs and then a bad one, an overshoot or a copy run beyond the data (R143). -/
theorem unrleCore_badRun {flag : Bool} {total r : Nat} {runs : List Nat} (ha : unrleAllowed s) (hc : cmdReady s)
    (hd : dataReady s (copiedLength flag runs)) (hpos : ∀ q ∈ runs, 0 < q) (hsum : runs.sum < total)
    (ht : total < 0xFFFFFFFF) (hcap : total ≤ s.platform.unrleCap) (hr0 : 0 < r) (hr : r < 0xFFFFFFFF)
    (hdata : copiedLength flag runs ≤ s.args.dataLen.toNat)
    (hbits : s.commandBits (commandStream flag total (runs ++ [r])))
    (hbad : total < runs.sum + r ∨ flagAfter flag runs = true ∧ s.args.dataLen.toNat < copiedLength flag runs + r) :
    unrleCore s = .fail .corruptStream (movedOn (afterRuns s flag total runs) (gammaCode r).length) := by
  rw [commandStream_append] at hbits
  obtain ⟨fuel, hfuel, hready, hahead, hcore⟩ := unrleCore_runs hc ha.cmdAddrOK hd hpos (by omega) hsum.le ht hcap
    hdata hbits
  rw [← afterRuns_dataPos_toNat (total := total) hdata] at hbad
  rw [hcore, unrleRuns_bad (m := []) hfuel hsum hready rfl hr0 hr hbad hahead, andThen_fail]

/-- Settles O42, by `unrleCore_badRun`. -/
theorem badRunIsCorruptStream : Obligations.BadRunIsCorruptStream := by
  intro s flag total runs r ha hc hd hpos hsum ht hcap hr0 hr hdata hbits hbad
  rw [exec_unrle_of_fail ha (unrleCore_badRun ha hc hd hpos hsum ht hcap hr0 hr hdata hbits hbad), movedOn_afterRuns,
    afterRuns_eq]
  rfl

/-- Settles O43: the total by `unrleCore_invalidTotal`, a run by `unrleCore_invalidRun`. -/
theorem invalidCodeIsCorruptStream : Obligations.InvalidCodeIsCorruptStream := by
  intro s flag c ha hc
  refine ⟨fun hi => ?total, fun total runs hd hpos hsum ht hcap hdata hl hi => ?run⟩
  case total =>
    rw [exec_unrle_of_fail ha (unrleCore_invalidTotal hc ha.cmdAddrOK hi), startUnrle_eq]
    rfl
  case run =>
    rw [exec_unrle_of_fail ha (unrleCore_invalidRun hc ha.cmdAddrOK hd hpos hsum ht hcap hdata hl hi), afterRuns_eq]
    rfl

/-- The expander on a total it cannot allocate: no run is read (R140). -/
theorem unrleCore_aboveCapacity {flag : Bool} {total : Nat} (ha : unrleAllowed s) (hc : cmdReady s)
    (hcap : s.platform.unrleCap < total) (ht : total < 0xFFFFFFFF) (hbits : s.commandBits (flag :: gammaCode total)) :
    unrleCore s = .fail .allocationFailed
      (setUnrleLen (BitVec.ofNat 32 total) (movedOn (startUnrle s) (1 + (gammaCode total).length))) := by
  obtain ⟨hcore, -⟩ := unrleCore_total (m := []) hc ha.cmdAddrOK (by omega) ht (by rwa [List.append_nil])
  rw [hcore, expandRuns, ofNat_toNat_of_lt (by omega)]
  exact if_pos hcap

/-- Settles O44, by `unrleCore_aboveCapacity`. -/
theorem totalAboveCapacityFails : Obligations.TotalAboveCapacityFails := by
  intro s flag total ha hc hcap ht hbits
  rw [exec_unrle_of_fail ha (unrleCore_aboveCapacity ha hc hcap ht hbits), startUnrle_eq]
  rfl

/-! ### Any stream -/

/-- Settles O45: the three ends of the expander that `unrleCore_sat` allows, the stop shut out by backing. -/
theorem unrleLeavesWholeBufferOrNone : Obligations.UnrleLeavesWholeBufferOrNone := by
  intro s ha hcmd hdata
  have hsat := unrleCore_sat s
  cases hcore : unrleCore s with
  | ok a t =>
    obtain ⟨hframe, hvalid, hlen, hpos, hcap, hdp, -⟩ := hsat.of_ok hcore
    exact ⟨_, exec_unrle_of_ok ha hcore, by rw [hframe]; rfl, by rw [hframe]; rfl, by rw [hframe]; rfl,
      .inl ⟨rfl, hvalid, hlen, hpos, hcap, hdp⟩⟩
  | fail c t =>
    obtain ⟨hcode, hframe, hvalid, hscratch, -⟩ := hsat.of_fail hcore
    exact ⟨_, exec_unrle_of_fail ha hcore, by rw [hframe]; rfl, by rw [hframe]; rfl, by rw [hframe]; rfl,
      .inr ⟨hcode, hvalid, hscratch⟩⟩
  | stop f =>
    obtain ⟨-, hunbacked⟩ := hsat.of_stop hcore
    exact absurd ⟨hcmd, hdata⟩ hunbacked

/-! ### SCRATCH_READ -/

/-- The tests of SCRATCH_READ in their order (R142). -/
theorem firstFailure_scratchReadTests (s : State) :
    firstFailure (scratchReadTests s) =
      if s.scrValid = false then some .scratchInvalid
      else if s.unrleLen.toNat ≤ s.args.operand.toNat then some .operandRange else none := by
  simp only [scratchReadTests, firstFailure_cons, firstFailure_nil, Bool.not_eq_true', decide_eq_true_eq]
  rfl

theorem exec_scratchRead_raises {c : Code} (h : firstFailure (scratchReadTests s) = some c) :
    exec .scratchRead s = .next (complete c s) := by
  rw [exec_eq, commandBody, checked_some h, finish_fail]

theorem exec_scratchRead_reads (h : firstFailure (scratchReadTests s) = none) :
    exec .scratchRead s =
      .next (complete .success (setResult ((scratchAt s (operandIndex s)).zeroExtend 32) s)) := by
  rw [exec_eq, commandBody, checked_none h, finish_ok]

/-- A byte of Scratch that has been determined (R38). -/
theorem scratchAt_of_getElem? {i : Nat} {b : Byte} (h : s.scratch[i]? = some b) : scratchAt s i = b := by
  rw [scratchAt, h, Option.getD_some]

/-- Settles O46, one clause for each value of `firstFailure_scratchReadTests`. -/
theorem scratchReadReturnsByte : Obligations.ScratchReadReturnsByte := by
  refine ⟨rfl, fun s => ⟨fun hv => ?invalid, fun hv hle => ?range, fun b hv hlt hb => ?byte⟩⟩
  case invalid => exact exec_scratchRead_raises (by rw [firstFailure_scratchReadTests, if_pos hv])
  case range =>
    exact exec_scratchRead_raises (by rw [firstFailure_scratchReadTests, if_neg (by rw [hv]; decide), if_pos hle])
  case byte =>
    rw [exec_scratchRead_reads (by
      rw [firstFailure_scratchReadTests, if_neg (by rw [hv]; decide), if_neg (Nat.not_le.2 hlt)]),
      operandIndex, scratchAt_of_getElem? hb]
    rfl

end Sys2Proof.Machine
end

section
/-! SUPPORT. UNPACK_VALUE and TABLE_READ (spec/42_deinterleave.md R170, R175, R176): the byte transform and its inverse
as numbers, and the bytes of a table word. -/

namespace Sys2Proof.Machine

/-! ### UnpackValue and Pack as numbers -/

/-- Complementing a byte counts down from 0xFF. -/
theorem toNat_xor_ones (c : Byte) : (c ^^^ 0xFF#8).toNat = 0xFF - c.toNat := by
  rw [show (0xFF#8 : Byte) = BitVec.allOnes 8 from rfl, BitVec.xor_allOnes, BitVec.toNat_not]

theorem getLsbD_zero_iff (c : Byte) : c.getLsbD 0 = true ↔ c.toNat % 2 = 1 := by
  rw [BitVec.getLsbD, Nat.testBit_zero, decide_eq_true_eq]

theorem unpackValue_toNat (c : Byte) :
    (unpackValue c).toNat = if c.toNat % 2 = 0 then c.toNat / 2 else 0xFF - (c.toNat - 1) / 2 := by
  have hhalf : (c >>> 1).toNat = c.toNat / 2 := by rw [BitVec.toNat_ushiftRight, Nat.shiftRight_one]
  rw [unpackValue]
  by_cases hodd : c.getLsbD 0 = true
  · have := (getLsbD_zero_iff c).1 hodd
    rw [if_pos hodd, if_neg (by omega), toNat_xor_ones, hhalf]
    omega
  · have := mt (getLsbD_zero_iff c).2 hodd
    rw [if_neg hodd, if_pos (by omega), hhalf]

theorem packValue_toNat (v : Byte) :
    (packValue v).toNat = if v.toNat < 0x80 then 2 * v.toNat else 2 * (0xFF - v.toNat) + 1 := by
  have hdouble : ∀ x : Byte, x.toNat < 0x80 → (x <<< 1).toNat = 2 * x.toNat := fun x hx => by
    rw [BitVec.toNat_shiftLeft, Nat.shiftLeft_eq]
    omega
  have hv := v.isLt
  rw [packValue]
  by_cases hlow : v.toNat < 0x80
  · rw [if_pos hlow, if_pos hlow, hdouble v hlow]
  · have hflip := toNat_xor_ones v
    rw [if_neg hlow, if_neg hlow, BitVec.toNat_or, hdouble _ (by omega), hflip]
    exact (Nat.two_pow_add_eq_or_of_lt (i := 1) (by decide) _).symm

/-- Settles O48: each map's number, put into the other's. -/
theorem unpackPackInverse : Obligations.UnpackPackInverse := by
  intro c
  have hc := c.isLt
  refine ⟨rfl, unpackValue_toNat c, rfl, BitVec.eq_of_toNat_eq ?pack, BitVec.eq_of_toNat_eq ?unpack⟩
  case pack =>
    rw [packValue_toNat, unpackValue_toNat]
    split <;> split <;> omega
  case unpack =>
    rw [unpackValue_toNat, packValue_toNat]
    split <;> split <;> omega

/-- Settles O47: the byte is OPERAND mod 256, and `unpackValue_toNat` gives its number. -/
theorem unpackValueResult : Obligations.UnpackValueResult := by
  refine ⟨rfl, fun s => ?_⟩
  have hbyte : (operandByte s).toNat = s.args.operand.toNat % 256 := by
    rw [operandByte, BitVec.extractLsb'_toNat, Nat.shiftRight_zero]
  have hvalue := unpackValue_toNat (operandByte s)
  rw [hbyte, Nat.mod_mod_of_dvd _ (by decide)] at hvalue
  rw [exec_eq, commandBody, finish_ok, ← hvalue, BitVec.ofNat_toNat]
  rfl

/-! ### The table words -/

/-- A bit pair shifted up within a byte loses nothing. -/
theorem pair_shifted_toNat (x : BitVec 2) {n : Nat} (hn : n ≤ 6) :
    (x.zeroExtend 8 <<< n : Byte).toNat = x.toNat * 2 ^ n := by
  have hx : x.toNat * 2 ^ n < 2 ^ 8 :=
    calc x.toNat * 2 ^ n ≤ 3 * 2 ^ 6 :=
          Nat.mul_le_mul (Nat.le_of_lt_succ x.isLt) (Nat.pow_le_pow_right (by decide) hn)
      _ < 2 ^ 8 := by decide
  rw [BitVec.toNat_shiftLeft, Nat.shiftLeft_eq, BitVec.zeroExtend, BitVec.toNat_setWidth_of_le (by decide),
    Nat.mod_eq_of_lt hx]

/-- Byte `k` of a table word: bit pair `k` of the index, shifted up by 6, 4, 2 or 0 (R40). -/
theorem romTable_byte_toNat (sel : BitVec 2) (a : Byte) (k : Fin 4) :
    (wordByte (romTable sel a) k).toNat = (a.extractLsb' (2 * k) 2).toNat * 2 ^ (6 - 2 * sel.toNat) := by
  have hsel : sel = 0#2 ∨ sel = 1#2 ∨ sel = 2#2 ∨ sel = 3#2 := by revert sel; decide
  rcases hsel with rfl | rfl | rfl | rfl
  · rw [table1_byte, pair_shifted_toNat _ (by decide)]; rfl
  · rw [table2_byte, pair_shifted_toNat _ (by decide)]; rfl
  · rw [table3_byte, pair_shifted_toNat _ (by decide)]; rfl
  · rw [table4_byte, ← BitVec.shiftLeft_zero (BitVec.zeroExtend 8 _), pair_shifted_toNat _ (by decide)]; rfl

/-- Settles O49, by `romTable_byte_toNat`. -/
theorem tableReadResult : Obligations.TableReadResult :=
  ⟨rfl, fun s => ⟨romTable (operandSelect s) (operandByte s), exec_eq .tableRead s,
    fun k hk => romTable_byte_toNat (operandSelect s) (operandByte s) ⟨k, hk⟩⟩⟩

end Sys2Proof.Machine
end

section
/-! SUPPORT. The checks of REGROUP, HDELTA, VDELTA and UNDELTAFILTER (spec/42_deinterleave.md R174), and the three
steps as commands one after another (R180). -/

namespace Sys2Proof.Machine

variable {s t : State}

/-! ### The checks -/

/-- The first of the eight checks that raises, where one does; the code of the last also stands for no raise (R174). -/
theorem firstFailure_outputTests (s : State) :
    (firstFailure (outputTests s)).getD .invalidUnrleLength =
      if s.args.outAddr = 0#32 then .rgbaBufferIsNull
      else if Config.maxRgbaLength < s.args.outCap.toNat then .dimensionsTooLarge
      else if s.args.width = 0#32 ∨ s.args.height = 0#32 then .invalidDimensions
      else if s.args.depth.toNat < 1 ∨ 4 < s.args.depth.toNat then .invalidDepthBytes
      else if 4294967296 < s.args.outAddr.toNat + s.args.outCap.toNat then .addressRange
      else if s.scrValid = false then .scratchInvalid
      else if s.args.outCap.toNat < s.unrleLen.toNat then .rgbaBufferTooSmall else .invalidUnrleLength := by
  have hrange : addrOK s.args.outAddr s.args.outCap = false ↔
      4294967296 < s.args.outAddr.toNat + s.args.outCap.toNat := by
    rw [← Bool.not_eq_true, addrOK_iff, Nat.not_le, Config.addressCount]
  simp only [outputTests, dimensionTests, outRangeTest, lengthTests, List.cons_append, List.nil_append,
    firstFailure_cons, firstFailure_nil, apply_ite (Option.getD · Code.invalidUnrleLength), Option.getD_some,
    Option.getD_none, ite_self, beq_iff_eq, Bool.or_eq_true, decide_eq_true_eq, Bool.not_eq_true', hrange]

/-- A check that raises completes each of the four commands with its code (R174, R239). -/
theorem exec_outputTests_raises {i : Instr} {c : Code} (hi : i ∈ [Instr.regroup, .hdelta, .vdelta, .undeltafilter])
    (h : firstFailure (outputTests s) = some c) : exec i s = .next (complete c s) := by
  simp only [List.mem_cons, List.not_mem_nil, or_false] at hi
  rcases hi with rfl | rfl | rfl | rfl <;> rw [exec_eq, commandBody, checked_some h, finish_fail]

/-- Settles O50: some check raises, and `firstFailure_outputTests` says which comes first. -/
theorem outputChecksInOrder : Obligations.OutputChecksInOrder := by
  intro s i hi hna
  cases hf : firstFailure (outputTests s) with
  | none => exact absurd (outputTests_none.1 hf) hna
  | some c =>
    rw [exec_outputTests_raises hi hf, ← firstFailure_outputTests, hf]
    rfl

/-! ### One step after another -/

/-- Completion leaves every register the checks look at (R238). -/
theorem outputAllowed.complete (h : outputAllowed s) (c : Code) : outputAllowed (complete c s) :=
  allowed_of h rfl rfl rfl

/-- HDELTA behind a completed command does its step on what that command left (R178, R238). -/
theorem exec_hdelta_complete (ha : outputAllowed s) (h : hdeltaCore s = .ok () t) (c : Code) :
    exec .hdelta (complete c s) = .next (complete .success t) := by
  rw [exec_hdelta (ha.complete c), hdeltaCore_complete, h]
  rfl

/-- VDELTA likewise (R179, R238). -/
theorem exec_vdelta_complete (ha : outputAllowed s) (h : vdeltaCore s = .ok () t) (c : Code) :
    exec .vdelta (complete c s) = .next (complete .success t) := by
  rw [exec_vdelta (ha.complete c), vdeltaCore_complete, h]
  rfl

/-- A step on a backed OUT ends well: it never raises, and stops only outside HOST_MEMORY (R61, R183). -/
theorem endsIn_of_outBacked {r : Res Unit} (hb : outBacked s)
    (h : r.Sat (fun _ t => outKept s t) (fun _ _ => False)
      (fun f => f = .engineOutsideHostMemory ∧ ¬ outBacked s)) : endsIn r (outKept s) :=
  endsIn_of_sat (h.mono (fun _ _ h => h) (fun _ _ h => h) fun _ hstop => hstop.2 hb)

/-- A step's frame, completed (R238). -/
theorem outKept.complete (h : outKept s t) (c : Code) :
    complete c t = { s with mem := t.mem, draws := t.draws, status := ⟨false, true, c⟩, pending := none } :=
  congrArg (Machine.complete c) h.1

/-- Settles O54: the three steps end well on a backed OUT, and none sees the completion of the one before it. -/
theorem undeltafilterIsThreeCommands : Obligations.UndeltafilterIsThreeCommands := by
  intro s ha hb
  obtain ⟨a, hregroup, hka⟩ := endsIn_of_outBacked hb (regroupCore_outKept s)
  obtain ⟨b, hhdelta, hkb⟩ := endsIn_of_outBacked hb (hdeltaCore_outKept hka)
  obtain ⟨t, hvdelta, hkt⟩ := endsIn_of_outBacked hb (vdeltaCore_outKept hkb)
  refine ⟨complete .success a, complete .success b, complete .success t, ?regroup,
    exec_hdelta_complete (allowed_outKept ha hka) hhdelta _, exec_vdelta_complete (allowed_outKept ha hkb) hvdelta _,
    ?undelta, hkt.complete _, hkt.2.2⟩
  case regroup => rw [exec_regroup ha, hregroup, finish_ok]
  case undelta => rw [exec_undelta ha, undeltaCore, hregroup, andThen_ok, hhdelta, andThen_ok, hvdelta, finish_ok]

end Sys2Proof.Machine
end

section
/-! SUPPORT. HDELTA and VDELTA on a plane whose bytes are ready (spec/42_deinterleave.md R172, R173), and that together
they undo the forward delta filter (R182). -/

namespace Sys2Proof.Machine

variable {s t u : State} {plane : Nat → Nat → Byte}

/-! ### Every host byte as a byte of OUT -/

/-- Every address is one index of OUT, whatever OUT_ADDR: indices wrap (R10). -/
theorem addrAt_sub_toNat (base a : Word) : addrAt base (a - base).toNat = a := by
  rw [addrAt, BitVec.ofNat_toNat, BitVec.setWidth_eq, BitVec.add_comm, BitVec.sub_add_cancel]

/-- A step that leaves every index of OUT outside `changed` leaves every host byte that is at none of these. -/
theorem outOnly.byteAt_kept (h : outOnly s t) {changed : Nat → Prop}
    (hkept : ∀ k < 4294967296, ¬ changed k → t.outByte k = s.outByte k) {a : Word}
    (ha : ∀ k, changed k → a ≠ addrAt s.args.outAddr k) : t.byteAt a = s.byteAt a := by
  have haddr := addrAt_sub_toNat s.args.outAddr a
  have hbyte := hkept (a - s.args.outAddr).toNat (a - s.args.outAddr).isLt fun hc => ha _ hc haddr.symm
  rwa [State.outByte, State.outByte, h.args, haddr] at hbyte

theorem outOnly.allowed (h : outOnly s t) (ha : outputAllowed s) : outputAllowed t :=
  allowed_of ha h.args (by rw [h.1]; rfl) h.unrleLen

/-! ### HDELTA -/

/-- What Step 2 leaves: each byte of row 0 behind the first pixel added to the byte one pixel to its left (R172). -/
def rowSums (s t : State) : Prop :=
  outOnly s t ∧ ∀ k < 4294967296, t.outByte k =
    if s.args.depth.toNat ≤ k ∧ k < min s.args.stride.toNat s.unrleLen.toNat then
      s.outByte k + t.outByte (k - s.args.depth.toNat) else s.outByte k

theorem rowSums.added (h : rowSums s t) {x : Nat} (hd : s.args.depth.toNat ≤ x)
    (hx : x < min s.args.stride.toNat s.unrleLen.toNat) :
    t.outByte x = s.outByte x + t.outByte (x - s.args.depth.toNat) := by
  have hlt := s.unrleLen.isLt
  rw [h.2 x (by omega), if_pos ⟨hd, hx⟩]

theorem rowSums.kept (h : rowSums s t) {k : Nat} (hk : k < 4294967296)
    (hn : ¬ (s.args.depth.toNat ≤ k ∧ k < min s.args.stride.toNat s.unrleLen.toNat)) :
    t.outByte k = s.outByte k := by
  rw [h.2 k hk, if_neg hn]

theorem rowSums.byteAt_kept (h : rowSums s t) {a : Word}
    (ha : ∀ x, s.args.depth.toNat ≤ x → x < min s.args.stride.toNat s.unrleLen.toNat →
      a ≠ addrAt s.args.outAddr x) : t.byteAt a = s.byteAt a :=
  h.1.byteAt_kept (fun _ hk hn => h.kept hk hn) fun k hc => ha k hc.1 hc.2

/-- HDELTA whose checks pass on a ready OUT completes with Step 2 done (R178). -/
theorem exec_hdelta_rowSums (ha : outputAllowed s) (hr : outReady s) :
    ∃ u, exec .hdelta s = .next (complete .success u) ∧ rowSums s u := by
  obtain ⟨u, hu, hsums⟩ := hdeltaCore_out hr ha.depth.1
  exact ⟨u, by rw [exec_hdelta ha, hu, finish_ok], hsums⟩

/-- Settles O52: completion changes no byte of what `rowSums` says of Step 2. -/
theorem hdeltaResult : Obligations.HdeltaResult := by
  intro s ha hr
  obtain ⟨u, hexec, hsums⟩ := exec_hdelta_rowSums ha hr
  exact ⟨complete .success u, hexec, hsums.1.complete _, fun x hd hx => hsums.added hd hx,
    fun a hout => hsums.byteAt_kept hout⟩

/-! ### VDELTA -/

theorem columnSums.added {bound i : Nat} (h : columnSums s bound t) (hs : s.args.stride.toNat ≤ i)
    (hi : i < min bound s.unrleLen.toNat) :
    t.outByte i = s.outByte i + t.outByte (i - s.args.stride.toNat) := by
  have hlt := s.unrleLen.isLt
  rw [h.2 i (by omega), if_pos ⟨hs, by omega, by omega⟩]

theorem columnSums.kept {bound k : Nat} (h : columnSums s bound t) (hk : k < 4294967296)
    (hn : ¬ (s.args.stride.toNat ≤ k ∧ k < min bound s.unrleLen.toNat)) : t.outByte k = s.outByte k := by
  rw [h.2 k hk, if_neg fun hc => hn ⟨hc.1, by omega⟩]

theorem columnSums.byteAt_kept {bound : Nat} (h : columnSums s bound t) {a : Word}
    (ha : ∀ i, s.args.stride.toNat ≤ i → i < min bound s.unrleLen.toNat → a ≠ addrAt s.args.outAddr i) :
    t.byteAt a = s.byteAt a :=
  h.1.byteAt_kept (fun _ hk hn => h.kept hk hn) fun k hc => ha k hc.1 hc.2

/-- Settles O53: completion changes no byte of what `columnSums` says of Step 3. -/
theorem vdeltaResult : Obligations.VdeltaResult := by
  intro s ha hr
  obtain ⟨u, hu, hsums⟩ := vdeltaCore_out hr
  exact ⟨complete .success u, by rw [exec_vdelta ha, hu, finish_ok], hsums.1.complete _,
    fun i hs hi => hsums.added hs hi, fun a hout => hsums.byteAt_kept hout⟩

/-! ### The forward filter undone -/

/-- OUT holds the plane of HEIGHT rows of STRIDE bytes. -/
def holdsPlane (s : State) (plane : Nat → Nat → Byte) : Prop :=
  ∀ y x, y < s.args.height.toNat → x < s.args.stride.toNat →
    s.outByte (y * s.args.stride.toNat + x) = plane y x

/-- Byte `x` of row `y` stands within `h` rows of `w` bytes. -/
theorem index_lt_plane {y h x w : Nat} (hy : y < h) (hx : x < w) : y * w + x < h * w :=
  calc y * w + x < y * w + w := Nat.add_lt_add_left hx _
    _ = (y + 1) * w := (Nat.succ_mul y w).symm
    _ ≤ h * w := Nat.mul_le_mul_right w hy

/-- Step 2 on a filtered plane restores row 0, pixel by pixel from the left (R172, R182). -/
theorem rowSums.row_zero (h : rowSums s u) (hd : 1 ≤ s.args.depth.toNat)
    (hfirst : ∀ x < s.args.stride.toNat, s.outByte x = forwardFilter s.args.depth.toNat plane 0 x)
    (hlen : s.args.stride.toNat ≤ s.unrleLen.toNat) (x : Nat) (hx : x < s.args.stride.toNat) :
    u.outByte x = plane 0 x := by
  have hlt := s.unrleLen.isLt
  have hold := hfirst x hx
  rw [forwardFilter] at hold
  by_cases hpix : x < s.args.depth.toNat
  · rw [h.kept (by omega) (by omega), hold, if_pos hpix]
  · have hleft := h.row_zero hd hfirst hlen (x - s.args.depth.toNat) (by omega)
    rw [h.added (by omega) (by omega), hold, if_neg hpix, hleft, BitVec.sub_add_cancel]
termination_by x

/-- Step 3 restores the later rows from row 0 down (R173, R182). -/
theorem columnSums.holdsPlane (h : columnSums u (u.args.height.toNat * u.args.stride.toNat) t)
    (hlen : u.args.height.toNat * u.args.stride.toNat ≤ u.unrleLen.toNat)
    (hzero : ∀ x < u.args.stride.toNat, u.outByte x = plane 0 x)
    (hlater : ∀ y x, y + 1 < u.args.height.toNat → x < u.args.stride.toNat →
      u.outByte ((y + 1) * u.args.stride.toNat + x) = plane (y + 1) x - plane y x) :
    Machine.holdsPlane t plane := by
  rw [Machine.holdsPlane, h.1.args]
  intro y x hy hx
  have hlt := u.unrleLen.isLt
  have hin := index_lt_plane hy hx
  induction y with
  | zero => rw [Nat.zero_mul, Nat.zero_add, h.kept (by omega) (by omega), hzero x hx]
  | succ y ih =>
    have habove := ih (by omega) (index_lt_plane (by omega) hx)
    have hrow : (y + 1) * u.args.stride.toNat = y * u.args.stride.toNat + u.args.stride.toNat := Nat.succ_mul ..
    rw [h.added (by omega) (by omega), hlater y x hy hx,
      show (y + 1) * u.args.stride.toNat + x - u.args.stride.toNat = y * u.args.stride.toNat + x by omega, habove,
      BitVec.sub_add_cancel]

/-- Step 2 leaves every row but the first as the filter left it (R172, R182). -/
theorem rowSums.later_row (h : rowSums s u) {y x : Nat}
    (hin : (y + 1) * s.args.stride.toNat + x < 4294967296) :
    u.outByte ((y + 1) * s.args.stride.toNat + x) = s.outByte ((y + 1) * s.args.stride.toNat + x) := by
  have hrow : s.args.stride.toNat ≤ (y + 1) * s.args.stride.toNat := Nat.le_mul_of_pos_left _ (Nat.succ_pos y)
  exact h.kept hin (by omega)

/-- Settles O56: after HDELTA row 0 is restored and the later rows stand filtered, and VDELTA restores these. -/
theorem deltaUndoInvertsForwardFilter : Obligations.DeltaUndoInvertsForwardFilter := by
  intro s plane ha hr hlen hfilter
  have hlt := s.unrleLen.isLt
  have hheight : 0 < s.args.height.toNat := Nat.pos_of_ne_zero fun h0 => ha.height (BitVec.eq_of_toNat_eq h0)
  have hwidth : s.args.stride.toNat ≤ s.args.height.toNat * s.args.stride.toNat := Nat.le_mul_of_pos_left _ hheight
  obtain ⟨u, hu, hrow⟩ := exec_hdelta_rowSums ha hr
  obtain ⟨t, ht, hcol⟩ := vdeltaCore_out (hrow.1.ready hr)
  have hplane : holdsPlane t plane := by
    refine hcol.holdsPlane ?length ?zero ?later <;> rw [hrow.1.args]
    case length => rwa [hrow.1.unrleLen]
    case zero =>
      exact hrow.row_zero ha.depth.1 (fun x hx => by simpa using hfilter 0 x hheight hx) (by omega)
    case later =>
      intro y x hy hx
      have hin := index_lt_plane hy hx
      rw [hrow.later_row (by omega), hfilter (y + 1) x hy hx, forwardFilter]
  rw [holdsPlane, hcol.1.args, hrow.1.args] at hplane
  rw [hrow.1.args] at hcol
  refine ⟨_, _, hu, exec_vdelta_complete (hrow.1.allowed ha) ht _, hplane, fun a hout => ?outside⟩
  calc t.byteAt a = u.byteAt a :=
        hcol.byteAt_kept fun i _ hi => by rw [hrow.1.args]; exact hout i (by omega)
    _ = s.byteAt a := hrow.byteAt_kept fun x _ hx => hout x (by omega)

end Sys2Proof.Machine
end

section
/-! SUPPORT. DECODE (spec/43_decode.md): its checks, its release of Scratch on every exit path (R77, R210), DECODE as
UNRLE and UNDELTAFILTER (R213), the pixels it leaves (R211), and that no failing command writes a host byte (R212). -/

namespace Sys2Proof.Machine

variable {s t : State}

/-! ### A command that fails -/

/-- Settles O27, by how the command ended: only one that ended well may have written. -/
theorem failureWritesNoHostByte : Obligations.FailureWritesNoHostByte := by
  intro i s t h hc
  rcases exec_next h with ⟨u, _, rfl⟩ | ⟨c, u, hfailed, rfl⟩
  · exact absurd rfl hc
  · exact hfailed.mem

/-! ### The release -/

/-- The release and the completion of a command change different fields, so they may stand in either order. -/
theorem release_complete (c : Code) (s : State) : release (complete c s) = complete c (release s) := rfl

theorem next_release_iff (u : State) :
    (Host.Outcome.next (release u) : Host.Outcome State Fault Refusal) = .next t ↔
      ∃ v, (Host.Outcome.next u : Host.Outcome State Fault Refusal) = .next v ∧ t = release v := by
  simp only [Host.Outcome.next.injEq, exists_eq_left']
  exact eq_comm

theorem finish_releasing_next {r : Res Unit} :
    finish (releasing r) = .next t ↔ ∃ u, finish r = .next u ∧ t = release u := by
  rcases r with ⟨⟨⟩, u⟩ | ⟨c, u⟩ | f
  case ok =>
    rw [releasing_ok, finish_ok, finish_ok, ← release_complete]
    exact next_release_iff _
  case fail =>
    rw [releasing_fail, finish_fail, finish_fail, ← release_complete]
    exact next_release_iff _
  case stop => simp

theorem finish_releasing_fault {r : Res Unit} {f : Fault} :
    finish (releasing r) = .fault f ↔ finish r = .fault f := by
  rcases r with ⟨⟨⟩, u⟩ | ⟨c, u⟩ | g <;> simp

/-- Settles O58: whatever state DECODE answers, a release made it. -/
theorem decodeReleasesScratch : Obligations.DecodeReleasesScratch := by
  intro s t h
  rw [exec_eq, commandBody, finish_releasing_next] at h
  obtain ⟨u, _, rfl⟩ := h
  exact ⟨rfl, rfl⟩

/-! ### The checks -/

/-- The first of DECODE's nine checks that raises, where one does; the code of the last three also stands for no raise
(R210). -/
theorem firstFailure_decodeTests (s : State) :
    (firstFailure (decodeTests s)).getD .addressRange =
      if s.args.dataAddr = 0#32 then .dataBufferIsNull
      else if s.args.cmdAddr = 0#32 then .cmdBufferIsNull
      else if s.args.outAddr = 0#32 then .rgbaBufferIsNull
      else if Config.maxRgbaLength < s.args.outCap.toNat then .dimensionsTooLarge
      else if s.args.width = 0#32 ∨ s.args.height = 0#32 then .invalidDimensions
      else if s.args.depth.toNat < 1 ∨ 4 < s.args.depth.toNat then .invalidDepthBytes else .addressRange := by
  simp only [decodeTests, dimensionTests, dataNullTest, cmdNullTest, dataRangeTest, cmdRangeTest, outRangeTest,
    List.cons_append, List.nil_append, firstFailure_cons, firstFailure_nil,
    apply_ite (Option.getD · Code.addressRange), Option.getD_some, Option.getD_none, ite_self, beq_iff_eq,
    Bool.or_eq_true, decide_eq_true_eq]

/-- Settles O57: some check raises, `firstFailure_decodeTests` says which comes first, and only the release follows. -/
theorem decodeValidationOrder : Obligations.DecodeValidationOrder := by
  intro s hna
  cases hf : firstFailure (decodeTests s) with
  | none => exact absurd (decodeTests_none.1 hf) hna
  | some c =>
    rw [exec_eq, commandBody, checked_some hf, ← firstFailure_decodeTests, hf]
    rfl

/-! ### UNRLE, then UNDELTAFILTER, then the release -/

/-- DECODE whose checks pass completes where its processing does, and then releases Scratch (R77, R210). -/
theorem exec_decode_next (ha : decodeAllowed s) (h : finish (decodeCore s) = .next t) :
    exec .decode s = .next (release t) := by
  rw [exec_decode ha, finish_releasing_next]
  exact ⟨t, h, rfl⟩

theorem exec_decode_fault {f : Fault} (ha : decodeAllowed s) (h : finish (decodeCore s) = .fault f) :
    exec .decode s = .fault f := by
  rw [exec_decode ha, finish_releasing_fault, h]

/-- A completion before a piece of pseudocode is lost in the one after it (R238). -/
theorem finish_onState_complete (c : Code) (r : Res Unit) : finish (r.onState (complete c)) = finish r := by
  cases r <;> rfl

/-- UNDELTAFILTER behind a completed UNRLE does what DECODE does behind its expander: the tests it makes and DECODE has
already made cannot raise again (R210, R213). -/
theorem exec_undeltafilter_complete {u : State} (ha : decodeAllowed s) (hu : unrleDone s u) (c : Code) :
    exec .undeltafilter (complete c u) = finish (checked (lengthTests u) undeltaCore u) := by
  obtain ⟨hframe, hvalid, _⟩ := hu
  have hargs : u.args = s.args := by rw [hframe]
  have htests : firstFailure (outputTests (complete c u)) = firstFailure (lengthTests u) :=
    outputTests_after ha hargs hvalid
  rw [exec_eq, commandBody]
  cases hf : firstFailure (lengthTests u) with
  | some d => rw [checked_some (htests.trans hf), checked_some hf, finish_fail, finish_fail, complete_complete]
  | none => rw [checked_none (htests.trans hf), checked_none hf, undeltaCore_complete, finish_onState_complete]

/-- Settles O59, by the end of the expander that UNRLE and DECODE share. -/
theorem decodeIsUnrleThenUndeltafilter : Obligations.DecodeIsUnrleThenUndeltafilter := by
  intro s ha
  cases hcore : unrleCore s with
  | stop g =>
    rw [exec_unrle ha.unrle, hcore, finish_stop]
    refine ⟨fun f hf => exec_decode_fault ha ?_, fun u hu => nomatch hu⟩
    rw [decodeCore, hcore, andThen_stop, finish_stop, hf]
  | fail c u =>
    rw [exec_unrle_of_fail ha.unrle hcore]
    refine ⟨fun f hf => (nomatch hf), ?_⟩
    rintro _ ⟨⟩
    have hfailed : finish (decodeCore s) = .next (complete c u) := by
      rw [decodeCore, hcore, andThen_fail, finish_fail]
    refine ⟨fun _ => exec_decode_next ha hfailed, fun hc => ?_⟩
    rcases ((unrleCore_sat s).of_fail hcore).1 with rfl | rfl <;> cases hc
  | ok a u =>
    rw [exec_unrle_of_ok ha.unrle hcore]
    refine ⟨fun f hf => (nomatch hf), ?_⟩
    rintro _ ⟨⟩
    have hrest : finish (decodeCore s) = exec .undeltafilter (complete .success u) := by
      rw [exec_undeltafilter_complete ha ((unrleCore_sat s).of_ok hcore), decodeCore, hcore, andThen_ok]
    exact ⟨fun hc => absurd rfl hc, fun _ => ⟨fun v hv => exec_decode_next ha (hrest.trans hv),
      fun f hf => exec_decode_fault ha (hrest.trans hf)⟩⟩

/-! ### The pixels -/

/-- The bytes Steps 1 to 3 leave in OUT below UNRLE_LEN, by the bytes `row0` that stand there after Step 2: the
regrouped buffer with row 0 a running sum, then each later row added to the one above (R171 to R173). -/
def holdsPixels (s : State) (row0 : Nat → Byte) (t : State) : Prop :=
  (∀ i, i < s.unrleLen.toNat → row0 i = regrouped s i +
    if s.args.depth.toNat ≤ i ∧ i < s.args.stride.toNat then row0 (i - s.args.depth.toNat) else 0#8) ∧
  ∀ i, i < s.unrleLen.toNat → t.outByte i = row0 i +
    if s.args.stride.toNat ≤ i ∧ i < s.args.height.toNat * s.args.stride.toNat then
      t.outByte (i - s.args.stride.toNat) else 0#8

/-- A byte that is added to only under a condition, as a sum in both cases. -/
theorem ite_add_eq_add_ite {p q : Prop} [Decidable p] [Decidable q] (h : p ↔ q) (x y : Byte) :
    (if p then x + y else x) = x + if q then y else 0#8 := by
  by_cases hq : q
  · rw [if_pos (h.2 hq), if_pos hq]
  · rw [if_neg (fun hp => hq (h.1 hp)), if_neg hq, BitVec.add_zero]

/-- What Steps 1 to 3 leave on a ready OUT (R180, R210). -/
theorem undeltaCore_out (hr : outReady s) (hq : s.unrleLen.toNat % 4 = 0) (hd : 0 < s.args.depth.toNat) :
    ∃ row0, endsIn (undeltaCore s) fun t => outOnly s t ∧ holdsPixels s row0 t := by
  have hlt := s.unrleLen.isLt
  obtain ⟨a, hregroup, hoa, hbytes⟩ := regroupCore_out hr hq
  obtain ⟨b, hhdelta, hrow⟩ := hdeltaCore_out (hoa.ready hr) (by rwa [hoa.args])
  have hob := hoa.trans hrow.1
  obtain ⟨t, hvdelta, hcol⟩ := vdeltaCore_out (hob.ready hr)
  refine ⟨b.outByte, t, ?run, hob.trans hcol.1, fun i hi => ?row, fun i hi => ?rows⟩
  case run => rw [undeltaCore, hregroup, andThen_ok, hhdelta, andThen_ok, hvdelta]
  case row =>
    have hsum := hrow.2 i (by omega)
    rw [hoa.args, hoa.unrleLen, hbytes i (by omega), if_pos hi] at hsum
    rw [hsum]
    exact ite_add_eq_add_ite (by omega) _ _
  case rows =>
    have hsum := hcol.2 i (by omega)
    rw [hob.args, hob.unrleLen] at hsum
    rw [hsum]
    exact ite_add_eq_add_ite (by omega) _ _

/-- A regrouped byte takes its bits from inside the buffer (R91, R92). -/
theorem regroupedByte_congr {buffer other : Nat → Byte} {len i : Nat} (hq : len % 4 = 0) (hi : i < len)
    (h : ∀ k < len, buffer k = other k) : regroupedByte buffer len i = regroupedByte other len i := by
  unfold regroupedByte
  simp only [h (i / 4) (by omega), h (len / 4 + i / 4) (by omega), h (2 * (len / 4) + i / 4) (by omega),
    h (3 * (len / 4) + i / 4) (by omega)]

/-- The state in which the expander ends on a whole well-formed stream (R144). -/
def expanded (s : State) (flag : Bool) (runs : List Nat) : State :=
  keepScratch (expansion s.dataByte flag 0 runs) (afterRuns s flag runs.sum runs)

/-- The same state, by its fields. -/
theorem expanded_eq (s : State) (flag : Bool) (runs : List Nat) :
    expanded s flag runs = { s with
      unrleLen := BitVec.ofNat 32 runs.sum, dataPos := BitVec.ofNat 32 (copiedLength flag runs)
      cur := cursorAfter ⟨s.args.cmdAddr, s.args.cmdLen, 0#3, false⟩ (commandStream flag runs.sum runs).length
      unstable := [], latched := false, scratch := expansion s.dataByte flag 0 runs, scrValid := true
      scratchEpoch := s.scratchEpoch + 1 } := by
  rw [expanded, afterRuns_eq, keepScratch]

section Expanded
variable {flag : Bool} {runs : List Nat}

@[simp] theorem expanded_args : (expanded s flag runs).args = s.args := by rw [expanded_eq]
@[simp] theorem expanded_mem : (expanded s flag runs).mem = s.mem := by rw [expanded_eq]
@[simp] theorem expanded_platform : (expanded s flag runs).platform = s.platform := by rw [expanded_eq]
@[simp] theorem expanded_raced : (expanded s flag runs).raced = s.raced := by rw [expanded_eq]
@[simp] theorem expanded_scratch : (expanded s flag runs).scratch = expansion s.dataByte flag 0 runs := by
  rw [expanded_eq]

theorem expanded_unrleLen_toNat (h : runs.sum < 4294967296) : (expanded s flag runs).unrleLen.toNat = runs.sum := by
  rw [expanded_eq]
  exact ofNat_toNat_of_lt h

/-- The expander touches neither host memory nor what the Host has written of it. -/
theorem outReady_expanded (h : runs.sum < 4294967296) (hr : regionReady s s.args.outAddr runs.sum)
    (hw : Memory.wf s.mem = true) : outReady (expanded s flag runs) where
  ready := by
    rw [expanded_unrleLen_toNat h, expanded_args]
    exact ⟨by rw [expanded_raced]; exact hr.settled, by rw [expanded_platform]; exact hr.backed⟩
  wf := by rwa [expanded_mem]

/-- Every byte of the expansion is determined, so Step 1 regroups it alone (R38, R144). -/
theorem regrouped_expanded (h : runs.sum < 4294967296) (hq : runs.sum % 4 = 0) {i : Nat} (hi : i < runs.sum) :
    regrouped (expanded s flag runs) i =
      regroupedByte (fun k => ((expansion s.dataByte flag 0 runs)[k]?).getD 0#8) runs.sum i := by
  rw [regrouped_eq, expanded_unrleLen_toNat h]
  refine regroupedByte_congr hq hi fun k hk => ?_
  have hdetermined : (expansion s.dataByte flag 0 runs)[k]? = some _ :=
    List.getElem?_eq_getElem (by rwa [expansion_length])
  rw [hdetermined, Option.getD_some]
  exact scratchAt_of_getElem? (by rw [expanded_scratch, hdetermined])

/-- DECODE behind a whole well-formed stream whose length passes goes on to Steps 1 to 3 (R210). -/
theorem decodeCore_expanded (hcore : unrleCore s = .ok () (expanded s flag runs)) (hlt : runs.sum < 4294967296)
    (hcap : runs.sum ≤ s.args.outCap.toNat) (hq : runs.sum % 4 = 0) :
    decodeCore s = undeltaCore (expanded s flag runs) := by
  have hlength : firstFailure (lengthTests (expanded s flag runs)) = none := by
    rw [lengthTests_none, expanded_unrleLen_toNat hlt, expanded_args]
    exact ⟨hcap, hq⟩
  rw [decodeCore, hcore, andThen_ok, checked_none hlength]

/-- Steps 1 to 3 behind the expander, then completion and release: of the state only host memory is theirs (R210). -/
theorem release_expanded (h : outOnly (expanded s flag runs) t) :
    release (complete .success t) = { s with
      mem := t.mem, unrleLen := BitVec.ofNat 32 runs.sum, dataPos := BitVec.ofNat 32 (copiedLength flag runs)
      cur := cursorAfter ⟨s.args.cmdAddr, s.args.cmdLen, 0#3, false⟩ (commandStream flag runs.sum runs).length
      unstable := [], latched := false, scrValid := false, scratch := [], scratchEpoch := s.scratchEpoch + 2
      status := ⟨false, true, .success⟩, pending := none } := by
  have hstate := h.1
  rw [expanded_eq, setMem] at hstate
  exact congrArg (fun u => release (complete .success u)) hstate

end Expanded

/-- Settles O60: `unrleCore_stream` gives the buffer, `undeltaCore_out` the pixels, and the release follows. -/
theorem decodeProducesPixels : Obligations.DecodeProducesPixels := by
  intro s flag runs ha hc hd hr hw hpos h0 hout hcap hq hdata hbits
  have hmax : runs.sum ≤ 0x40000000 := hout.trans ha.outCap
  have hlen : (expanded s flag runs).unrleLen.toNat = runs.sum := expanded_unrleLen_toNat (by omega)
  have hcore : unrleCore s = .ok () (expanded s flag runs) :=
    unrleCore_stream hc ha.unrle.cmdAddrOK hd hpos h0 (by omega) hcap hdata hbits
  obtain ⟨row0, t, hrun, ho, hrow, hrows⟩ := undeltaCore_out (outReady_expanded (flag := flag) (by omega) hr hw)
    (by rwa [hlen]) (by rw [expanded_args]; exact ha.depth.1)
  have houtside := ho.2.2
  rw [hlen, expanded_args] at hrow hrows houtside
  refine ⟨release (complete .success t), row0, exec_decode_next ha ?run, release_expanded ho, ?outside,
    fun i hi => ?row, hrows⟩
  case run => rw [decodeCore_expanded hcore (by omega) hout hq, hrun, finish_ok]
  case outside =>
    intro a hadr
    have hkept := houtside a hadr
    rwa [State.byteAt, State.byteAt, expanded_mem] at hkept
  case row => rw [hrow i hi, regrouped_expanded (by omega) hq hi]

end Sys2Proof.Machine
end

section
/-! SUPPORT. Completion (spec/60_exceptions.md R231, R237, R238): that a command with backed regions completes, with which
codes, and what the Engine's turn makes of it and of no pending command (R249). -/

namespace Sys2Proof.Machine

variable {s t : State}

/-! ### A command that completes -/

/-- Success is a code of every command (R235). -/
theorem success_mem_codesOf (i : Instr) : Code.success ∈ codesOf i := by cases i <;> exact List.mem_cons_self

/-- Settles O25, by how the command ended: with Success or with the code it raised, and then by `complete`. -/
theorem commandsCompleteWithTheirCodes : Obligations.CommandsCompleteWithTheirCodes := by
  intro i s t h
  rcases exec_next h with ⟨u, -, rfl⟩ | ⟨c, u, hfailed, rfl⟩
  · exact ⟨rfl, rfl, rfl, success_mem_codesOf i⟩
  · exact ⟨rfl, rfl, rfl, hfailed.code⟩

/-- Settles O29: a command faults only outside its regions (`exec_stop`), and none is refused. -/
theorem backedCommandsComplete : Obligations.BackedCommandsComplete := by
  intro i s hb
  cases h : exec i s with
  | next t => exact ⟨t, rfl⟩
  | fault f => exact absurd hb (exec_stop h).2
  | refused r => exact absurd h (exec_not_refused i s r)

/-! ### The Engine's turn -/

theorem engineStep_idle (hp : s.pending = none) : engineStep s = .next s := by
  rw [engineStep, hp]

/-- Settles O6. -/
theorem idleEngineKeepsState : Obligations.IdleEngineKeepsState := by
  intro s hn hp
  rw [step_engine hn, engineStep_idle (s := s.takeInput) hp]

theorem engineStep_faults {i : Instr} {f : Fault} (hp : s.pending = some (encode i)) (he : exec i s = .fault f) :
    engineStep s = .fault f := by
  simp only [engineStep, hp, decodeWord_encode, he]

/-- With no race the Engine's turn is the pending command itself (R237). -/
theorem engineStep_quiet {i : Instr} (hp : s.pending = some (encode i)) (hr : s.raced = []) :
    engineStep s = exec i s := by
  cases he : exec i s with
  | next t =>
    obtain ⟨-, -, -, -, -, hraced⟩ := commandsKeepHostRegisters i s t he
    rw [engineStep_completes hp he, settle_quiet i hr (hraced.trans hr)]
  | fault f => exact engineStep_faults hp he
  | refused r => exact absurd he (exec_not_refused i s r)

/-- Writes to bytes that are not ahead of a latched cursor leave nothing unstable (R75). -/
theorem latchWrites_of_not_unfinished {l : List Nat} (h : ∀ a ∈ l, ¬ s.unfinished a) : latchWrites l s = s := by
  have hnone : l.filter (mayBeLatched s) = [] :=
    List.filter_eq_nil_iff.2 fun a ha hm => h a ha ((mayBeLatched_iff s a).1 hm)
  rw [latchWrites, hnone]
  rfl

theorem endRace_of_not_unfinished (h : ∀ a ∈ s.raced, ¬ s.unfinished a) : endRace s = { s with raced := [] } := by
  rw [endRace, latchWrites_of_not_unfinished h]

/-- Settles O5: the command of the pending word is run, and its race settled by `settle`, which does nothing beyond
emptying the list where the writes were the Host's own affair. -/
theorem stepRunsDecodedCommand : Obligations.StepRunsDecodedCommand := by
  intro s w i hn hp hd
  obtain rfl := eq_encode_of_decodeWord hd
  have hp' : s.takeInput.pending = some (encode i) := hp
  rw [step_engine hn]
  refine ⟨fun t he => engineStep_completes hp' he, fun f he => engineStep_faults hp' he,
    fun hr => engineStep_quiet hp' hr, fun t he hlawful => ?lawful⟩
  obtain ⟨-, -, -, -, -, hraced⟩ := commandsKeepHostRegisters i s.takeInput t he
  have hfinished : ∀ a ∈ t.raced, ¬ t.unfinished a := by
    rw [hraced]
    exact fun a ha => (hlawful a ha).2
  rw [engineStep_completes hp' he, settle_untouched (s := s.takeInput) fun a ha => (hlawful a ha).1,
    endRace_of_not_unfinished hfinished]

end Sys2Proof.Machine
end

section
/-! SUPPORT. Why OUT needs no zeroing (spec/60_exceptions.md R251): Step 1 overwrites every byte below UNRLE_LEN, and the
two sums that follow determine what is left there. -/

namespace Sys2Proof.Machine

variable {s t u : State}

/-- A running sum is determined by its terms: each value is its term and, at some indices, the value `d` before. -/
theorem runningSum_unique {f g e : Nat → Byte} {p : Nat → Prop} [DecidablePred p] {d n : Nat}
    (hback : ∀ i, p i → i - d < i)
    (hf : ∀ i, i < n → f i = e i + if p i then f (i - d) else 0#8)
    (hg : ∀ i, i < n → g i = e i + if p i then g (i - d) else 0#8) (i : Nat) (hi : i < n) : f i = g i := by
  induction i using Nat.strong_induction_on with
  | _ i ih =>
    rw [hf i hi, hg i hi]
    by_cases hp : p i
    · have hlt := hback i hp
      rw [ih (i - d) hlt (by omega)]
    · rw [if_neg hp, if_neg hp]

/-- Whatever stood in OUT before, the pixels are the same: row 0 is a running sum of the regrouped bytes, and each column
one of row 0 and those below it (R171 to R173). -/
theorem holdsPixels.unique {row0 row0' : Nat → Byte} (h : holdsPixels s row0 t) (k : holdsPixels s row0' u)
    (hd : 0 < s.args.depth.toNat) {i : Nat} (hi : i < s.unrleLen.toNat) : u.outByte i = t.outByte i := by
  obtain ⟨hrow, hrows⟩ := h
  obtain ⟨krow, krows⟩ := k
  have hrow0 : ∀ j, j < s.unrleLen.toNat → row0' j = row0 j :=
    runningSum_unique (p := fun j => s.args.depth.toNat ≤ j ∧ j < s.args.stride.toNat)
      (fun j hj => by omega) krow hrow
  have hstride : ∀ j, s.args.stride.toNat ≤ j ∧ j < s.args.height.toNat * s.args.stride.toNat →
      j - s.args.stride.toNat < j := by
    rintro j ⟨hle, hlt⟩
    have hpos : 0 < s.args.stride.toNat := Nat.pos_of_ne_zero fun h0 => by simp [h0] at hlt
    omega
  refine runningSum_unique hstride (fun j hj => ?_) hrows i hi
  rw [krows j hj, hrow0 j hj]

/-- UNDELTAFILTER whose checks pass on a ready OUT completes and leaves the pixels (R180). -/
theorem exec_undeltafilter_pixels (ha : outputAllowed s) (hr : outReady s) :
    ∃ row0 t, exec .undeltafilter s = .next (complete .success t) ∧ holdsPixels s row0 t := by
  obtain ⟨row0, t, hrun, -, hpixels⟩ := undeltaCore_out hr ha.length ha.depth.1
  exact ⟨row0, t, by rw [exec_undelta ha, hrun, finish_ok], hpixels⟩

/-- Host memory is not among what the checks read (R174). -/
theorem outputAllowed.setMem (h : outputAllowed s) (m : Memory) : outputAllowed (Machine.setMem m s) :=
  allowed_of h rfl rfl rfl

/-- A ready OUT stays ready whatever bytes it holds. -/
theorem outReady.setMem (h : outReady s) {m : Memory} (hm : Memory.wf m = true) : outReady (Machine.setMem m s) :=
  ⟨⟨h.ready.settled, h.ready.backed⟩, hm⟩

/-- The recurrence for the pixels names no byte of the memory before. -/
theorem holdsPixels_setMem {row0 : Nat → Byte} (m : Memory) :
    holdsPixels (setMem m s) row0 t ↔ holdsPixels s row0 t := Iff.rfl

/-- Settles O55: both runs leave pixels, of one recurrence (`holdsPixels.unique`). -/
theorem outputNeedsNoZeroing : Obligations.OutputNeedsNoZeroing := by
  intro s m ha hr hm
  obtain ⟨row0, t, ht, hpixels⟩ := exec_undeltafilter_pixels ha hr
  obtain ⟨row0', u, hu, hpixels'⟩ := exec_undeltafilter_pixels (ha.setMem m) (hr.setMem hm)
  rw [holdsPixels_setMem] at hpixels'
  exact ⟨_, _, ht, hu, fun i hi => hpixels.unique hpixels' ha.depth.1 hi⟩

end Sys2Proof.Machine
end

section
/-! SUPPORT. A reset while busy (spec/70_reset_and_hazards.md R261): host memory takes another value at most where the
discarded word could write, and nowhere if that word is illegal. -/

namespace Sys2Proof.Machine

variable {s : State} {w : Word}

/-- An illegal word writes nothing (R82). -/
theorem pendingReach_illegal (hp : s.pending = some w) (hw : legalCommandWord w = false) :
    pendingReach s = (0, s.draws) := by
  obtain ⟨e, he⟩ := decodeWord_error_iff_illegal.2 hw
  simp only [pendingReach, hp, he]

theorem settleReset_mem_of_reach_zero (h : (pendingReach s).1 = 0) : (settleReset s).mem = s.mem := by
  unfold settleReset
  split
  · rw [h, clobberOut]
  · rfl

/-- Of host memory a reset leaves what `settleReset` does: the rest of the reset is the instance's (R47, R260). -/
theorem platformReset_sameOutside (s : State) : sameOutside s.args.outAddr (pendingReach s).1 s (platformReset s) :=
  (settleReset_kept s).2.1

/-- Settles O20: what a legal word could write is `pendingReach_encode`, and an illegal one nothing
(`pendingReach_illegal`). -/
theorem busyResetDiscardsCommand : Obligations.BusyResetDiscardsCommand := by
  intro s rest h _
  refine ⟨platformReset s.takeInput, ?step, rfl, registerWord_platformReset .status _, fun i hp => ?legal,
    fun w hp hw => ?illegal⟩
  case step => rw [step_reset h, tail_of h]
  case legal =>
    rw [← pendingReach_encode (s := s.takeInput) hp]
    exact platformReset_sameOutside s.takeInput
  case illegal =>
    have hreach : (pendingReach s.takeInput).1 = 0 := by rw [pendingReach_illegal (s := s.takeInput) hp hw]
    exact settleReset_mem_of_reach_zero hreach

end Sys2Proof.Machine
end
